-- ==== Sys2Proof/Word.lean ====
section
/-! DEFINITION. The bit-vector types of the AFP-CORE (00_scope.md R9, R10; 20_memory.md R70). -/

namespace Sys2Proof

/-- A `u32` (R9): the width of every CSR, RAM word and command word. -/
abbrev Word := BitVec 32

/-- One byte of a word as a byte-addressing host sees it (R72). -/
abbrev Byte := BitVec 8

/-- A byte offset into the 2^28-byte window (R70). -/
abbrev Offset := BitVec 28

/-- The pattern of an IEEE 754 binary64 value: sign bit 63, exponent 62:52, fraction 51:0 (R10). -/
abbrev F64 := BitVec 64

/-- A complex value of the FFT: real and imaginary part (R165). -/
abbrev Complex64 := F64 × F64

end Sys2Proof
end

