-- ==== Sys2Proof/Config.lean ====
section
/-! DEFINITION. What an instance of the AFP-CORE fixes (00_scope.md R7) and the free values of the model. -/

namespace Sys2Proof

/-- The instance parameters of R7, each as the capability register of R52 that reports it. A machine
carries them in its state, so that a statement about every state is about every instance (D4). -/
structure Caps where
  /-- `SAMPLE_CAP`, capacity of the sample RAM in samples. -/
  samples : Word
  /-- `TAP_CAP`, capacity of the kernel RAM in taps. -/
  taps : Word
  /-- `FS_MAX`, largest frame size and capacity of the window RAM. -/
  frame : Word
  /-- `SIG_CAP`, capacity of the signal RAM in entries. -/
  signal : Word
  /-- `SPEC_CAP`, capacity of the spectrogram RAM in entries. -/
  spec : Word
  /-- `PEAK_CAP`, capacity of the peak RAM in records. -/
  peaks : Word
  /-- `HASH_CAP`, capacity of the hash RAM in hashes. -/
  hashes : Word
  /-- `NUM_LANES`, number of frame lanes of SPECTRUM. -/
  lanes : Word
  deriving DecidableEq, Repr

/-- The reference instance of R7's table. -/
def Config.reference : Caps where
  samples := 2097152
  taps := 1024
  frame := 1024
  signal := 2097152
  spec := 8388608
  peaks := 1048576
  hashes := 4194304
  lanes := 4

/-- FREE VALUE (R13, 93 S2): what a host read of a word that nothing has written returns, at the RAM
epoch `e` and the word's byte offset. No body: no proof can see it (log 4). -/
opaque Config.freeWord (e : Nat) (offset : Nat) : Word

/-- `BASE` in units of 256 MiB (R7: `BASE` is 256 MiB aligned, platform-defined, OPEN). No body. -/
opaque Config.baseUnit : Nat

/-- `BASE`, the host address of offset 0 (R7, R70). -/
def Config.base : Nat := Config.baseUnit * 2 ^ 28

end Sys2Proof
end

