-- ==== Sys2Proof/Syntax.lean ====
section
/-! DEFINITION. The instructions: one constructor per row of spec/opcode_table.json. -/

namespace Sys2Proof

/-- The commands of 30_encoding.md R101 and the soft reset of R106. A command word carries no operand
field (R100), so no constructor has an argument; every operand is a CSR or a RAM entry (R105). -/
inductive Instr where
  /-- NOP, word 0x00000000 to CMD (40_commands.md R122). -/
  | nop
  /-- RUN, word 0x00000001 to CMD (R123, R128): the source's pipeline, all four stages. -/
  | run
  /-- FILTER, word 0x00000002 to CMD (41_filter.md R149). -/
  | filter
  /-- SPECTRUM, word 0x00000003 to CMD (42_spectrum.md R171). -/
  | spectrum
  /-- PEAKS, word 0x00000004 to CMD (43_peaks.md R195). -/
  | peaks
  /-- HASH, word 0x00000005 to CMD (44_hash.md R212). -/
  | hash
  /-- SRST, a word with bit 0 = 1 to CTRL (R106, R131). -/
  | srst
  deriving DecidableEq, Repr

end Sys2Proof
end

