-- ==== Sys2Proof/WellFormed.lean ====
section
/-! DEFINITION. Well-formedness: of an instruction, and of an instance's parameters (00_scope.md R7). -/

namespace Sys2Proof

/-- Every instruction is well formed: no constructor has an operand that could be out of range (R100). -/
def Instr.wf (_ : Instr) : Bool := true

/-- A positive power of two, the `FS_MAX` and FRAME_SIZE condition of R7 and R160. -/
def isPowerOfTwo (n : Nat) : Bool := n != 0 && 2 ^ n.log2 == n

/-- `SAMPLE_CAP`: even, 2 <= SAMPLE_CAP <= 2^23 (R7). -/
def Caps.samplesOk (c : Caps) : Bool :=
  c.samples.toNat % 2 == 0 && decide (2 ≤ c.samples.toNat) && decide (c.samples.toNat ≤ 2 ^ 23)

/-- `TAP_CAP`: 1 <= TAP_CAP <= 8192 (R7). -/
def Caps.tapsOk (c : Caps) : Bool := decide (1 ≤ c.taps.toNat) && decide (c.taps.toNat ≤ 8192)

/-- `FS_MAX`: a power of two, 2 <= FS_MAX <= 8192 (R7). -/
def Caps.frameOk (c : Caps) : Bool :=
  isPowerOfTwo c.frame.toNat && decide (2 ≤ c.frame.toNat) && decide (c.frame.toNat ≤ 8192)

/-- `SIG_CAP`: 1 <= SIG_CAP <= 2^21 (R7). -/
def Caps.signalOk (c : Caps) : Bool := decide (1 ≤ c.signal.toNat) && decide (c.signal.toNat ≤ 2 ^ 21)

/-- `SPEC_CAP`: 1 <= SPEC_CAP <= 2^23 (R7). -/
def Caps.specOk (c : Caps) : Bool := decide (1 ≤ c.spec.toNat) && decide (c.spec.toNat ≤ 2 ^ 23)

/-- `PEAK_CAP`: 1 <= PEAK_CAP <= 2^20 (R7). -/
def Caps.peaksOk (c : Caps) : Bool := decide (1 ≤ c.peaks.toNat) && decide (c.peaks.toNat ≤ 2 ^ 20)

/-- `HASH_CAP`: 1 <= HASH_CAP <= 2^22 (R7). -/
def Caps.hashesOk (c : Caps) : Bool := decide (1 ≤ c.hashes.toNat) && decide (c.hashes.toNat ≤ 2 ^ 22)

/-- `NUM_LANES`: 1 <= NUM_LANES <= 255 (R7). -/
def Caps.lanesOk (c : Caps) : Bool := decide (1 ≤ c.lanes.toNat) && decide (c.lanes.toNat ≤ 255)

/-- The constraints R7 puts on an instance. -/
def Caps.wf (c : Caps) : Bool :=
  c.samplesOk && c.tapsOk && c.frameOk && c.signalOk && c.specOk && c.peaksOk && c.hashesOk && c.lanesOk

end Sys2Proof
end

