-- ==== Sys2Proof/Decode.lean ====
section
/-! DEFINITION. The decoder, total on every word and every byte list, and the encoder (30_encoding.md
R100 to R106; 20_memory.md R72). -/

namespace Sys2Proof

/-- The two registers whose writes are instructions (R35, R32): the same word means different things
in each (RUN and SRST share 0x00000001). -/
inductive CmdReg where
  /-- `CMD`, offset 0x00C. -/
  | cmd
  /-- `CTRL`, offset 0x004. -/
  | ctrl
  deriving DecidableEq, Repr

/-- Why a word is no instruction. -/
inductive Reject where
  /-- A CMD word with RSV (bits 31:8) not 0: illegal (R103). -/
  | reservedBits
  /-- A CMD word with OP in 0x06 to 0xFF: illegal (R101, R103). -/
  | reservedOpcode
  /-- A CTRL word with bit 0 = 0: it does nothing (R106). -/
  | noControl
  /-- Fewer than four bytes: every command is exactly 32 bits (R104). -/
  | truncated
  deriving DecidableEq, Repr

/-- `decode(w)` of R102 for a word written to CMD. -/
def decodeCmd (w : Word) : Except Reject Instr :=
  if w.extractLsb' 8 24 ≠ 0 then .error .reservedBits
  else match (w.extractLsb' 0 8).toNat with
    | 0x00 => .ok .nop
    | 0x01 => .ok .run
    | 0x02 => .ok .filter
    | 0x03 => .ok .spectrum
    | 0x04 => .ok .peaks
    | 0x05 => .ok .hash
    | _ => .error .reservedOpcode

/-- A word written to CTRL: only bit 0 counts (R106). -/
def decodeCtrl (w : Word) : Except Reject Instr :=
  if w.getLsbD 0 then .ok .srst else .error .noControl

/-- The word `w` written to the register `r`. -/
def decode (r : CmdReg) (w : Word) : Except Reject Instr :=
  match r with
  | .cmd => decodeCmd w
  | .ctrl => decodeCtrl w

/-- Byte `i` of a word at an aligned offset: bits `[8i+7 : 8i]`, little-endian (R72). -/
def byteOf (w : Word) (i : Nat) : Byte := w.extractLsb' (8 * i) 8

/-- The word whose bytes at offsets +0, +1, +2, +3 are given (R72). -/
def wordOfBytes (b0 b1 b2 b3 : Byte) : Word := b3 ++ b2 ++ b1 ++ b0

/-- The bytes of an instruction word as a byte-addressing host lays them out, and what follows them. -/
def decodeBytes (r : CmdReg) : List Byte → Except Reject (Instr × List Byte)
  | b0 :: b1 :: b2 :: b3 :: rest =>
    match decode r (wordOfBytes b0 b1 b2 b3) with
    | .ok i => .ok (i, rest)
    | .error e => .error e
  | _ => .error .truncated

/-- The register an instruction's word is written to (spec/opcode_table.json "register"). -/
def Instr.reg : Instr → CmdReg
  | .nop => .cmd
  | .run => .cmd
  | .filter => .cmd
  | .spectrum => .cmd
  | .peaks => .cmd
  | .hash => .cmd
  | .srst => .ctrl

/-- `OP` (R101): bits 7:0 of the command word; what STATUS.LASTOP then holds (R120). SRST has no OP
field; its word's low byte stands here. -/
def Instr.opcode : Instr → BitVec 8
  | .nop => 0x00
  | .run => 0x01
  | .filter => 0x02
  | .spectrum => 0x03
  | .peaks => 0x04
  | .hash => 0x05
  | .srst => 0x01

/-- The word of an instruction (R101; for SRST the word of R110, its ignored bits 0). -/
def encode (i : Instr) : Word := i.opcode.setWidth 32

/-- The bytes of an instruction, in the order of their offsets (R72). -/
def encodeBytes (i : Instr) : List Byte :=
  [byteOf (encode i) 0, byteOf (encode i) 1, byteOf (encode i) 2, byteOf (encode i) 3]

/-- The bits of the word that an instruction's row fixes (spec/opcode_table.json "mask"). -/
def Instr.mask : Instr → Word
  | .nop => 0xFFFFFFFF
  | .run => 0xFFFFFFFF
  | .filter => 0xFFFFFFFF
  | .spectrum => 0xFFFFFFFF
  | .peaks => 0xFFFFFFFF
  | .hash => 0xFFFFFFFF
  | .srst => 0x00000001

/-- The register that a row of `nbits` bits is written to: a CMD row fixes all 32 bits of its word
(R101), the one CTRL row fixes bit 0 alone (R106), so a shorter row is CTRL's (log 5). -/
def tableReg (nbits : Nat) : CmdReg := if nbits < 32 then .ctrl else .cmd

/-- The word of a table row: the bits above `nbits` are 0. -/
def tableWord (nbits w : Nat) : Word := BitVec.ofNat 32 (w % 2 ^ nbits)

/-- What the decoder reads from the table row of `nbits` bits whose bits are `w` (log 5). -/
def decodeTableWord (nbits w : Nat) : Option Instr :=
  let v := tableWord nbits w
  match decodeBytes (tableReg nbits) [byteOf v 0, byteOf v 1, byteOf v 2, byteOf v 3] with
  | .ok (i, _) => some i
  | .error _ => none

end Sys2Proof
end

