-- ==== Sys2Proof/Machine/State.lean ====
section
/-! DEFINITION. The state of the AFP-CORE (10_state.md R30 to R57), the reasons a step can stop, and the
state after hardware reset (70_reset_and_hazards.md R265). -/

namespace Sys2Proof.Machine

/-- A stage of the sequencer, as STATUS.STAGE numbers it (R33); 5 to 15 are never produced. -/
inductive Stage where
  /-- 0: no stage. -/
  | idle
  /-- 1. -/
  | filter
  /-- 2. -/
  | spectrum
  /-- 3. -/
  | peaks
  /-- 4. -/
  | hash
  deriving DecidableEq, Repr

/-- The error codes of R236; no other code is ever produced. -/
inductive ErrCode where
  /-- 0x00 NONE. -/
  | none
  /-- 0x01 ILLEGAL_CMD. -/
  | illegalCmd
  /-- 0x02 INVALID_SAMPLE_RATE. -/
  | invalidSampleRate
  /-- 0x03 CFG_TARGET_RATE. -/
  | cfgTargetRate
  /-- 0x04 CFG_FRAME_SIZE. -/
  | cfgFrameSize
  /-- 0x05 CFG_HOP. -/
  | cfgHop
  /-- 0x06 CFG_BANDS. -/
  | cfgBands
  /-- 0x10 CAP_SAMPLES. -/
  | capSamples
  /-- 0x11 CAP_TAPS. -/
  | capTaps
  /-- 0x12 CAP_SIGNAL. -/
  | capSignal
  /-- 0x13 CAP_SPEC. -/
  | capSpec
  /-- 0x14 CAP_PEAKS. -/
  | capPeaks
  /-- 0x15 CAP_HASHES. -/
  | capHashes
  deriving DecidableEq, Repr

/-- STATUS (R33), a field per field. Bits 31:24 read 0 and hold nothing. -/
structure Status where
  /-- BUSY: a command is executing; the sequencer's `busy` (R55). -/
  busy : Bool
  /-- DONE. -/
  done : Bool
  /-- ERR. -/
  err : Bool
  /-- ACCERR. -/
  accErr : Bool
  /-- STAGE; the sequencer's `stage` while busy (R55). -/
  stage : Stage
  /-- ERRCODE. -/
  errCode : ErrCode
  /-- LASTOP; the sequencer's `op` while busy (R55). -/
  lastOp : BitVec 8
  deriving DecidableEq, Repr

/-- IRQ_EN (R36). Bits 31:3 read 0 and hold nothing. -/
structure IrqEnable where
  /-- DONE_IE. -/
  doneIe : Bool
  /-- ERR_IE. -/
  errIe : Bool
  /-- ACCERR_IE. -/
  accErrIe : Bool
  deriving DecidableEq, Repr

/-- The configuration registers (R38 to R45). -/
structure Settings where
  /-- SAMPLE_RATE, 0x020. -/
  sampleRate : Word
  /-- TARGET_RATE, 0x024. -/
  targetRate : Word
  /-- NUM_SAMPLES, 0x028. -/
  numSamples : Word
  /-- NUM_TAPS, 0x02C. -/
  numTaps : Word
  /-- FRAME_SIZE, 0x030. -/
  frameSize : Word
  /-- HOP_SIZE, 0x034. -/
  hopSize : Word
  /-- NUM_BANDS, 0x038. -/
  numBands : Word
  /-- TARGET_ZONE, 0x03C. -/
  targetZone : Word
  deriving DecidableEq, Repr

/-- DECIM and the stage length registers (R46 to R51). -/
structure Lengths where
  /-- DECIM, 0x040, RO. -/
  decim : Word
  /-- SIG_LEN, 0x044. -/
  sigLen : Word
  /-- NUM_FRAMES, 0x048. -/
  numFrames : Word
  /-- NUM_BINS, 0x04C. -/
  numBins : Word
  /-- NUM_PEAKS, 0x050. -/
  numPeaks : Word
  /-- NUM_HASHES, 0x054, RO. -/
  numHashes : Word
  deriving DecidableEq, Repr

/-- A host access (R84, R85), or the host statement WAIT, which repeats a read (R109). -/
inductive Access where
  /-- `MemRead(a, 4)`. -/
  | read (a : Offset)
  /-- `MemWrite(a, 4, v)`. -/
  | write (a : Offset) (v : Word)
  /-- `WAIT a, mask, value`: read `a` until `(result & mask) == value`. -/
  | wait (a : Offset) (mask value : Word)
  deriving DecidableEq, Repr

/-- Which agent moves next (R89): the host with one access, or the core. -/
inductive Move where
  /-- The host moves. -/
  | host (acc : Access)
  /-- The core moves: one core step if BUSY = 1, nothing if it is idle (R123, R251). -/
  | core
  deriving DecidableEq, Repr

/-- The seven buffer RAMs as (byte offset, byte) cells (log 17). An offset that is not listed was never
written: it holds no value (R13, R57). -/
abbrev Memory := List Host.Cell

/-- The one canonical form: offsets strictly rising. An unlisted offset reads as no value, so no entry
can equal what an unlisted offset reads as. -/
def Memory.wf : Memory → Bool
  | [] => true
  | [_] => true
  | c :: d :: rest => decide (c.1 < d.1) && Memory.wf (d :: rest)

/-- The machine's state (R30, R57) with the model's own `sched`, `rsp` and `epoch`. -/
structure State where
  /-- STATUS, and with it the sequencer's busy, op and stage (R33, R55). -/
  status : Status
  /-- IRQ_EN (R36). -/
  irqEn : IrqEnable
  /-- ERRINFO (R37). -/
  errInfo : Word
  /-- ACCADDR bits 27:0; bits 31:28 read 0 (R37). -/
  accAddr : Offset
  /-- The configuration registers. -/
  cfg : Settings
  /-- The length registers. -/
  len : Lengths
  /-- The capability registers (R52): constants of the instance. -/
  caps : Caps
  /-- The buffer RAMs (R76 to R82). -/
  mem : Memory
  /-- MODEL: the moves to come; when it is empty the core moves (log 1). -/
  sched : List Move
  /-- MODEL: `rsp_valid` and `rsp_rdata` of R270 after the step just taken (log 11). -/
  rsp : Option Word
  /-- MODEL: the epoch at which a free value of a never-written word is taken (log 4). -/
  epoch : Nat
  deriving DecidableEq, Repr

/-- Why the model stops. -/
inductive Fault where
  /-- A stage read a RAM word that nothing has written since it last became `none` (R13, R252, S1).
  Raised by the four stages. SAFE: the hardware goes on with whatever the RAM holds. -/
  | unwrittenWord
  /-- BUSY = 1 while LASTOP is no stage command or STAGE is not one of its stages: the spec gives no
  core step for that (R123). Raised by the core step. SAFE: no run reaches it (log 12). -/
  | noStageRunning
  deriving DecidableEq, Repr

/-- Why an instruction has no meaning. -/
inductive Refusal where
  /-- Not modelled. Raised by no arm: every row of the opcode table has its meaning. SAFE. -/
  | notModelled (mnemonic : String)
  deriving DecidableEq, Repr

/-- STATUS after reset: 0 (R33). -/
def Status.reset : Status where
  busy := false
  done := false
  err := false
  accErr := false
  stage := .idle
  errCode := .none
  lastOp := 0

/-- IRQ_EN after reset: 0 (R36). -/
def IrqEnable.reset : IrqEnable := ⟨false, false, false⟩

/-- The configuration registers after reset: the source's defaults (R38 to R45). -/
def Settings.reset : Settings where
  sampleRate := 0
  targetRate := 11025
  numSamples := 0
  numTaps := 101
  frameSize := 1024
  hopSize := 512
  numBands := 6
  targetZone := 20

/-- The length registers after reset: 0 (R46 to R51). -/
def Lengths.reset : Lengths := ⟨0, 0, 0, 0, 0, 0⟩

/-- Hardware reset of the instance `c` (R265): every CSR at its reset value, the sequencer idle, every
RAM word `none`. The model's own fields start empty (log 1, log 4, log 11). -/
def State.resetOf (c : Caps) : State where
  status := Status.reset
  irqEn := IrqEnable.reset
  errInfo := 0
  accAddr := 0
  cfg := Settings.reset
  len := Lengths.reset
  caps := c
  mem := []
  sched := []
  rsp := none
  epoch := 0

/-- The reference instance right after hardware reset (R7, R265). -/
def State.reset : State := State.resetOf Config.reference

end Sys2Proof.Machine
end

