-- ==== Sys2Proof/Machine/Flags.lean ====
section
/-! DEFINITION. STATUS and IRQ_EN as words, the W1C rule, and the interrupt line (10_state.md R33 to R36,
R56; 60_exceptions.md R245). -/

namespace Sys2Proof.Machine

/-- STATUS.STAGE's number (R33). -/
def Stage.code : Stage → BitVec 4
  | .idle => 0
  | .filter => 1
  | .spectrum => 2
  | .peaks => 3
  | .hash => 4

/-- STATUS.ERRCODE's number (R236). -/
def ErrCode.code : ErrCode → BitVec 8
  | .none => 0x00
  | .illegalCmd => 0x01
  | .invalidSampleRate => 0x02
  | .cfgTargetRate => 0x03
  | .cfgFrameSize => 0x04
  | .cfgHop => 0x05
  | .cfgBands => 0x06
  | .capSamples => 0x10
  | .capTaps => 0x11
  | .capSignal => 0x12
  | .capSpec => 0x13
  | .capPeaks => 0x14
  | .capHashes => 0x15

/-- STATUS as software reads it (R33): LASTOP 23:16, ERRCODE 15:8, STAGE 7:4, ACCERR 3, ERR 2, DONE 1,
BUSY 0; bits 31:24 read 0. -/
def Status.word (st : Status) : Word :=
  0#8 ++ st.lastOp ++ st.errCode.code ++ st.stage.code
    ++ BitVec.ofBool st.accErr ++ BitVec.ofBool st.err ++ BitVec.ofBool st.done ++ BitVec.ofBool st.busy

/-- The host's W1C write of `v` to STATUS (R34): bits 1, 2 and 3 clear DONE, ERR and ACCERR. -/
def Status.clear (st : Status) (v : Word) : Status :=
  { st with
    done := st.done && !v.getLsbD 1
    err := st.err && !v.getLsbD 2
    accErr := st.accErr && !v.getLsbD 3 }

/-- IRQ_EN as software reads it (R36): bits 31:3 read 0. -/
def IrqEnable.word (e : IrqEnable) : Word :=
  0#29 ++ BitVec.ofBool e.accErrIe ++ BitVec.ofBool e.errIe ++ BitVec.ofBool e.doneIe

/-- What a write of `v` leaves in IRQ_EN (R36): bits 31:3 are ignored. -/
def IrqEnable.ofWord (v : Word) : IrqEnable where
  doneIe := v.getLsbD 0
  errIe := v.getLsbD 1
  accErrIe := v.getLsbD 2

/-- The `irq` output (R56): a level, with no state of its own. -/
def State.irq (s : State) : Bool :=
  (s.status.done && s.irqEn.doneIe) || (s.status.err && s.irqEn.errIe)
    || (s.status.accErr && s.irqEn.accErrIe)

end Sys2Proof.Machine
end

