-- ==== Sys2Proof/Machine/Ops.lean ====
section
/-! DEFINITION. The operations over memory and registers, the error completion and the access error
(20_memory.md; 40_commands.md R120 to R131; 60_exceptions.md R238, R244). -/

namespace Sys2Proof.Machine

/-- The seven buffer RAMs (R76 to R82). -/
inductive Ram where
  | kernel
  | window
  | sample
  | signal
  | spec
  | peak
  | hash
  deriving DecidableEq, Repr

/-- The region's first offset (R71). -/
def Ram.base : Ram → Nat
  | .kernel => 0x0010000
  | .window => 0x0020000
  | .sample => 0x1000000
  | .signal => 0x2000000
  | .spec => 0x4000000
  | .peak => 0x8000000
  | .hash => 0x9000000

/-- The region's size in bytes (R71). -/
def Ram.size : Ram → Nat
  | .kernel => 0x10000
  | .window => 0x10000
  | .sample => 0x1000000
  | .signal => 0x1000000
  | .spec => 0x4000000
  | .peak => 0x1000000
  | .hash => 0x1000000

/-- Bytes per entry (R71). -/
def Ram.entryBytes : Ram → Nat
  | .kernel => 8
  | .window => 8
  | .sample => 2
  | .signal => 8
  | .spec => 8
  | .peak => 16
  | .hash => 4

/-- The number of valid entries (R71). -/
def Ram.cap (c : Caps) : Ram → Nat
  | .kernel => c.taps.toNat
  | .window => c.frame.toNat
  | .sample => c.samples.toNat
  | .signal => c.signal.toNat
  | .spec => c.spec.toNat
  | .peak => c.peaks.toNat
  | .hash => c.hashes.toNat

/-- The seven RAMs, in the map's order. -/
def allRams : List Ram := [.kernel, .window, .sample, .signal, .spec, .peak, .hash]

/-- The offset `a` falls inside the RAM's region and its entry index is below the capacity (R71). -/
def Ram.holds (r : Ram) (c : Caps) (a : Nat) : Bool :=
  decide (r.base ≤ a) && decide (a < r.base + r.size) && decide ((a - r.base) / r.entryBytes < r.cap c)

/-- The RAM a valid RAM offset belongs to; `none` for every other offset (R71). -/
def locate (c : Caps) (a : Nat) : Option Ram := allRams.find? (fun r => r.holds c a)

/-- The offset of entry `i` of a RAM (R76 to R82). -/
def Ram.entry (r : Ram) (i : Nat) : Nat := r.base + r.entryBytes * i

/-- The byte at an offset, if it was written (R57). -/
def memByte : Memory → Nat → Option Byte
  | [], _ => none
  | c :: rest, a => if c.1 = a then some c.2 else memByte rest a

/-- Write one byte, keeping the canonical form. -/
def memPut : Memory → Nat → Byte → Memory
  | [], a, b => [(a, b)]
  | c :: rest, a, b =>
    if a < c.1 then (a, b) :: c :: rest
    else if c.1 = a then (a, b) :: rest
    else c :: memPut rest a b

/-- Every byte at offsets `lo` to `lo + n - 1` becomes `none`. -/
def memErase (m : Memory) (lo n : Nat) : Memory :=
  m.filter (fun c => !(decide (lo ≤ c.1) && decide (c.1 < lo + n)))

/-- The RAM word at an aligned offset, if it was written (R57, R72). -/
def memWord (m : Memory) (a : Nat) : Option Word :=
  match memByte m a, memByte m (a + 1), memByte m (a + 2), memByte m (a + 3) with
  | some b0, some b1, some b2, some b3 => some (wordOfBytes b0 b1 b2 b3)
  | _, _, _, _ => none

/-- Write the RAM word at an aligned offset (R72, R85). -/
def memPutWord (m : Memory) (a : Nat) (w : Word) : Memory :=
  memPut (memPut (memPut (memPut m a (byteOf w 0)) (a + 1) (byteOf w 1)) (a + 2) (byteOf w 2))
    (a + 3) (byteOf w 3)

/-- Write words at consecutive aligned offsets from `a`. -/
def memPutWords (m : Memory) (a : Nat) : List Word → Memory
  | [] => m
  | w :: ws => memPutWords (memPutWord m a w) (a + 4) ws

/-- The two words of a binary64 entry, low word first (R73). -/
def f64Words (x : F64) : List Word := [x.extractLsb' 0 32, x.extractLsb' 32 32]

/-- Write binary64 entries at consecutive entry offsets from `a` (R73). -/
def memPutF64s (m : Memory) (a : Nat) (xs : List F64) : Memory :=
  memPutWords m a (xs.flatMap f64Words)

/-- The access error `accerr(a)` (R244): ACCERR set, ACCADDR holds `a[27:0]`, nothing else changes. -/
def State.accError (s : State) (a : Offset) : State :=
  { s with status := { s.status with accErr := true }, accAddr := a }

/-- The error completion of `raise Error(code, info)` (R238): the core's exception entry. It records the
code and the information word, sets ERR and DONE and ends the command. STAGE, LASTOP, ACCERR and IRQ_EN
stay; no pc, mode or stack exists to be saved. -/
def State.errorCompletion (s : State) (code : ErrCode) (info : Word) : State :=
  { s with
    status := { s.status with errCode := code, err := true, done := true, busy := false }
    errInfo := info }

/-- The acknowledgement that stands where a trap return would (R242): the W1C write to STATUS (R34). -/
def State.acknowledge (s : State) (v : Word) : State := { s with status := s.status.clear v }

/-- Normal completion `complete()` (R127). -/
def State.complete (s : State) : State :=
  { s with status := { s.status with busy := false, done := true } }

/-- Acceptance `accept(c)` with LASTOP as R120 writes it (R120, R121). -/
def State.accept (s : State) (op : BitVec 8) (first : Stage) : State :=
  { s with
    status := { s.status with
      busy := true, done := false, err := false, errCode := .none, stage := first, lastOp := op }
    errInfo := 0 }

/-- `nop()` with LASTOP as R120 writes it (R120, R122). DEDUCED: R122's pseudocode and V-C12 set ERRINFO to
0, and R105's table lists STATUS alone for NOP; R122 is followed (log 18). -/
def State.nopDone (s : State) (op : BitVec 8) : State :=
  { s with
    status := { s.status with done := true, err := false, errCode := .none, stage := .idle, lastOp := op }
    errInfo := 0 }

/-- An illegal command word `w` (R120): LASTOP takes its low byte, STAGE 0, ILLEGAL_CMD with `w`. -/
def State.illegalCommand (s : State) (w : Word) : State :=
  State.errorCompletion
    { s with status := { s.status with stage := .idle, lastOp := w.extractLsb' 0 8 } } .illegalCmd w

/-- STATUS.STAGE moves to the next stage of the command (R123). -/
def State.enterStage (s : State) (st : Stage) : State := { s with status := { s.status with stage := st } }

/-- MODEL: a core step begins a new epoch for the free values of never-written words (R88, log 4). -/
def State.newEpoch (s : State) : State := { s with epoch := s.epoch + 1 }

/-- The RAM a stage writes (R131, R276). -/
def outputRam : Stage → Option Ram
  | .idle => none
  | .filter => some .signal
  | .spectrum => some .spec
  | .peaks => some .peak
  | .hash => some .hash

/-- What a soft reset leaves in the RAMs (R131): an executing stage's output RAM becomes `none`. -/
def softResetMemory (s : State) : Memory :=
  if s.status.busy then
    match outputRam s.status.stage with
    | some r => memErase s.mem r.base r.size
    | none => s.mem
  else s.mem

/-- `soft_reset()` (R131, R267): every CSR at its reset value and the sequencer idle, in any state. The
capability registers are constants (R52); the schedule and the response are the host's (log 1). -/
def State.softReset (s : State) : State :=
  { State.resetOf s.caps with
    mem := softResetMemory s
    sched := s.sched
    rsp := s.rsp
    epoch := if s.status.busy then s.epoch + 1 else s.epoch }

end Sys2Proof.Machine
end

