-- ==== Sys2Proof/Machine/Csr.lean ====
section
/-! DEFINITION. The CSR file: names, offsets and reads (10_state.md section 2, R31 to R53). -/

namespace Sys2Proof.Machine

/-- The registers of the CSR map. -/
inductive Csr where
  | id
  | ctrl
  | status
  | cmd
  | irqEn
  | errInfo
  | accAddr
  | sampleRate
  | targetRate
  | numSamples
  | numTaps
  | frameSize
  | hopSize
  | numBands
  | targetZone
  | decim
  | sigLen
  | numFrames
  | numBins
  | numPeaks
  | numHashes
  | capSamples
  | capTaps
  | capFrame
  | capSignal
  | capSpec
  | capPeaks
  | capHashes
  | capLanes
  deriving DecidableEq, Repr

/-- The register's byte offset (the CSR map). -/
def Csr.offset : Csr → Offset
  | .id => 0x000
  | .ctrl => 0x004
  | .status => 0x008
  | .cmd => 0x00C
  | .irqEn => 0x010
  | .errInfo => 0x014
  | .accAddr => 0x018
  | .sampleRate => 0x020
  | .targetRate => 0x024
  | .numSamples => 0x028
  | .numTaps => 0x02C
  | .frameSize => 0x030
  | .hopSize => 0x034
  | .numBands => 0x038
  | .targetZone => 0x03C
  | .decim => 0x040
  | .sigLen => 0x044
  | .numFrames => 0x048
  | .numBins => 0x04C
  | .numPeaks => 0x050
  | .numHashes => 0x054
  | .capSamples => 0x060
  | .capTaps => 0x064
  | .capFrame => 0x068
  | .capSignal => 0x06C
  | .capSpec => 0x070
  | .capPeaks => 0x074
  | .capHashes => 0x078
  | .capLanes => 0x07C

/-- The registers in the order of their offsets. -/
def allCsrs : List Csr :=
  [.id, .ctrl, .status, .cmd, .irqEn, .errInfo, .accAddr, .sampleRate, .targetRate, .numSamples,
    .numTaps, .frameSize, .hopSize, .numBands, .targetZone]
  ++ [.decim, .sigLen, .numFrames, .numBins, .numPeaks, .numHashes, .capSamples, .capTaps, .capFrame,
    .capSignal, .capSpec, .capPeaks, .capHashes, .capLanes]

/-- The register at an offset; `none` at a reserved CSR offset (R53). -/
def csrAt (a : Offset) : Option Csr := allCsrs.find? (fun r => r.offset = a)

/-- The value a read of the register returns (R31 to R52); the write-only registers read 0. -/
def csrValue (s : State) : Csr → Word
  | .id => 0x41465031
  | .ctrl => 0
  | .status => s.status.word
  | .cmd => 0
  | .irqEn => s.irqEn.word
  | .errInfo => s.errInfo
  | .accAddr => s.accAddr.setWidth 32
  | .sampleRate => s.cfg.sampleRate
  | .targetRate => s.cfg.targetRate
  | .numSamples => s.cfg.numSamples
  | .numTaps => s.cfg.numTaps
  | .frameSize => s.cfg.frameSize
  | .hopSize => s.cfg.hopSize
  | .numBands => s.cfg.numBands
  | .targetZone => s.cfg.targetZone
  | .decim => s.len.decim
  | .sigLen => s.len.sigLen
  | .numFrames => s.len.numFrames
  | .numBins => s.len.numBins
  | .numPeaks => s.len.numPeaks
  | .numHashes => s.len.numHashes
  | .capSamples => s.caps.samples
  | .capTaps => s.caps.taps
  | .capFrame => s.caps.frame
  | .capSignal => s.caps.signal
  | .capSpec => s.caps.spec
  | .capPeaks => s.caps.peaks
  | .capHashes => s.caps.hashes
  | .capLanes => s.caps.lanes

/-- `csr_read` (R84): a reserved offset answers 0 and is an access error (R53). -/
def csrRead (a : Offset) (s : State) : Word × State :=
  match csrAt a with
  | some r => (csrValue s r, s)
  | none => (0, s.accError a)

/-- The value of a RAM word for the host: what was written, or the free value of a word that holds none
(R13, R84, S2). -/
def ramValue (s : State) (a : Nat) : Word :=
  match memWord s.mem a with
  | some w => w
  | none => Config.freeWord s.epoch a

/-- `MemRead(a, 4)` (R84): the value read and the state after it. -/
def memRead (a : Offset) (s : State) : Word × State :=
  if a.toNat % 4 ≠ 0 then (0, s.accError a)
  else if a.toNat ≤ 0xFFF then csrRead a s
  else match locate s.caps a.toNat with
    | some _ => if s.status.busy then (0, s.accError a) else (ramValue s a.toNat, s)
    | none => (0, s.accError a)

/-- Whether a register is one of those the busy rule covers (R54): SAMPLE_RATE to TARGET_ZONE, SIG_LEN,
NUM_FRAMES, NUM_BINS, NUM_PEAKS. -/
def Csr.busyRefused : Csr → Bool
  | .id => false
  | .ctrl => false
  | .status => false
  | .cmd => false
  | .irqEn => false
  | .errInfo => false
  | .accAddr => false
  | .sampleRate => true
  | .targetRate => true
  | .numSamples => true
  | .numTaps => true
  | .frameSize => true
  | .hopSize => true
  | .numBands => true
  | .targetZone => true
  | .decim => false
  | .sigLen => true
  | .numFrames => true
  | .numBins => true
  | .numPeaks => true
  | .numHashes => false
  | .capSamples => false
  | .capTaps => false
  | .capFrame => false
  | .capSignal => false
  | .capSpec => false
  | .capPeaks => false
  | .capHashes => false
  | .capLanes => false

/-- The state with `v` in a configuration or length register of `Csr.busyRefused`, unchanged by the
write (10_state.md section 4, R47 to R50). Any other register is left alone. -/
def csrStore (s : State) (v : Word) : Csr → State
  | .sampleRate => { s with cfg := { s.cfg with sampleRate := v } }
  | .targetRate => { s with cfg := { s.cfg with targetRate := v } }
  | .numSamples => { s with cfg := { s.cfg with numSamples := v } }
  | .numTaps => { s with cfg := { s.cfg with numTaps := v } }
  | .frameSize => { s with cfg := { s.cfg with frameSize := v } }
  | .hopSize => { s with cfg := { s.cfg with hopSize := v } }
  | .numBands => { s with cfg := { s.cfg with numBands := v } }
  | .targetZone => { s with cfg := { s.cfg with targetZone := v } }
  | .sigLen => { s with len := { s.len with sigLen := v } }
  | .numFrames => { s with len := { s.len with numFrames := v } }
  | .numBins => { s with len := { s.len with numBins := v } }
  | .numPeaks => { s with len := { s.len with numPeaks := v } }
  | .id => s
  | .ctrl => s
  | .status => s
  | .cmd => s
  | .irqEn => s
  | .errInfo => s
  | .accAddr => s
  | .decim => s
  | .numHashes => s
  | .capSamples => s
  | .capTaps => s
  | .capFrame => s
  | .capSignal => s
  | .capSpec => s
  | .capPeaks => s
  | .capHashes => s
  | .capLanes => s

/-- The offset of a host address in the window at BASE (R70); `none` outside the window. -/
def offsetOfAddress (address : Nat) : Option Offset :=
  if Config.base ≤ address ∧ address < Config.base + 2 ^ 28 then
    some (BitVec.ofNat 28 (address - Config.base))
  else none

end Sys2Proof.Machine
end

