-- ==== Sys2Proof/Machine/Float64.lean ====
section
/-! DEFINITION. Binary64 arithmetic (00_scope.md R10, R11): exact integer arithmetic, then one rounding to
nearest, ties to even. The IEEE 754 rules that the spec names without spelling them out are log 8. -/

namespace Sys2Proof.Machine

/-- What a binary64 pattern stands for. A finite value is `±(mant * 2^exp)` in units of 2^-1074, the
smallest subnormal, so that every finite value is an integer number of units. -/
inductive FloatClass where
  | nan
  | inf (neg : Bool)
  | fin (neg : Bool) (mant exp : Nat)
  deriving DecidableEq, Repr

/-- The fields of R10: sign bit 63, exponent 62:52, fraction 51:0. -/
def unpack (x : F64) : FloatClass :=
  let neg := x.getLsbD 63
  let ex := (x.extractLsb' 52 11).toNat
  let fr := (x.extractLsb' 0 52).toNat
  if ex = 2047 then if fr = 0 then .inf neg else .nan
  else if ex = 0 then .fin neg fr 0
  else .fin neg (2 ^ 52 + fr) (ex - 1)

/-- The canonical quiet NaN (R11). -/
def canonicalNaN : F64 := 0x7FF8000000000000

/-- An infinity. -/
def infinity (neg : Bool) : F64 := if neg then 0xFFF0000000000000 else 0x7FF0000000000000

/-- A zero. -/
def zeroOf (neg : Bool) : F64 := if neg then 0x8000000000000000 else 0x0000000000000000

/-- The magnitude bits (exponent and fraction) of the binary64 value nearest to `m * 2^-k` for
`k >= 1074`, ties to even, as a number; past the largest finite value, those of infinity. With `d` low
bits dropped, the kept significand `sig` and the exponent field add up to `(d - (k - 1074)) * 2^52 + sig`,
also when the rounding carries into the next binade. -/
def roundBits (m k : Nat) : Nat :=
  let d := max (m.log2 + 1 - 53) (k - 1074)
  let sig := m / 2 ^ d
  let rem := m % 2 ^ d
  let up := if 2 ^ d < 2 * rem ∨ (2 * rem = 2 ^ d ∧ sig % 2 = 1) then 1 else 0
  min ((d - (k - 1074)) * 2 ^ 52 + (sig + up)) (2047 * 2 ^ 52)

/-- `RN` of the dyadic number `(-1)^neg * m * 2^-k` (R10): the nearest binary64, ties to even. -/
def roundDyadic (neg : Bool) (m k : Nat) : F64 :=
  BitVec.ofNat 64 ((if neg then 2 ^ 63 else 0) + roundBits (m * 2 ^ (1074 - k)) (max k 1074))

/-- The signed number of units of 2^-1074. -/
def unitsOf (neg : Bool) (mant exp : Nat) : Int :=
  if neg then -(mant * 2 ^ exp : Nat) else (mant * 2 ^ exp : Nat)

/-- `fadd` (R10): exact sum, one rounding. An exact zero sum is +0.0 unless both addends are negative. -/
def fadd (a b : F64) : F64 :=
  match unpack a, unpack b with
  | .nan, _ => canonicalNaN
  | _, .nan => canonicalNaN
  | .inf s, .inf t => if s = t then infinity s else canonicalNaN
  | .inf s, .fin _ _ _ => infinity s
  | .fin _ _ _, .inf t => infinity t
  | .fin s m e, .fin t n f =>
    let r := unitsOf s m e + unitsOf t n f
    if r = 0 then zeroOf (s && t) else roundDyadic (decide (r < 0)) r.natAbs 1074

/-- The sign bit flipped. -/
def fneg (a : F64) : F64 := a ^^^ 0x8000000000000000

/-- `fsub` (R10): `a - b` is `a + (-b)`. -/
def fsub (a b : F64) : F64 := fadd a (fneg b)

/-- `fmul` (R10): exact product, one rounding. Zero times infinity is a NaN. -/
def fmul (a b : F64) : F64 :=
  match unpack a, unpack b with
  | .nan, _ => canonicalNaN
  | _, .nan => canonicalNaN
  | .inf s, .inf t => infinity (s ^^ t)
  | .inf s, .fin t n _ => if n = 0 then canonicalNaN else infinity (s ^^ t)
  | .fin s m _, .inf t => if m = 0 then canonicalNaN else infinity (s ^^ t)
  | .fin s m e, .fin t n f => roundDyadic (s ^^ t) (m * n * 2 ^ (e + f)) 2148

/-- The largest `r` with `r^2 <= n` and `r < acc + 2^bits`, found bit by bit from the top. -/
def isqrtFrom (n : Nat) : Nat → Nat → Nat
  | 0, acc => acc
  | bits + 1, acc =>
    if (acc + 2 ^ bits) * (acc + 2 ^ bits) ≤ n then isqrtFrom n bits (acc + 2 ^ bits)
    else isqrtFrom n bits acc

/-- Floor of the square root, for `n < 2^172`. -/
def isqrt (n : Nat) : Nat := isqrtFrom n 86 0

/-- `fsqrt` (R10). The root is taken to 58 more bits and one sticky bit, then rounded once: a root of a
53-bit significand is never so close to a tie that this loses anything. A zero keeps its sign; the root
of any other negative number is a NaN. -/
def fsqrt (a : F64) : F64 :=
  match unpack a with
  | .nan => canonicalNaN
  | .inf s => if s then canonicalNaN else infinity false
  | .fin s m e =>
    if m = 0 then zeroOf s
    else if s then canonicalNaN
    else
      let n := m * 2 ^ (e % 2) * 2 ^ 116
      let r := isqrt n
      let sticky := if r * r = n then 0 else 1
      roundDyadic false ((2 * r + sticky) * 2 ^ (e / 2)) 596

/-- `fgt` (R10): IEEE ordered `a > b`, false when either operand is a NaN. -/
def fgt (a b : F64) : Bool :=
  match unpack a, unpack b with
  | .nan, _ => false
  | _, .nan => false
  | .inf s, .inf t => !s && t
  | .inf s, .fin _ _ _ => !s
  | .fin _ _ _, .inf t => t
  | .fin s m e, .fin t n f => decide (unitsOf t n f < unitsOf s m e)

/-- `i16_to_f64` (R10): the exact binary64 value of an integer. -/
def i16ToF64 (n : Int) : F64 := roundDyadic (decide (n < 0)) n.natAbs 0

/-- `sext_16` (R9). -/
def sext16 (h : BitVec 16) : Int := h.toInt

end Sys2Proof.Machine
end

