-- ==== Sys2Proof/Machine/Operands.lean ====
section
/-! DEFINITION. How a stage reads its operands: the entries of the buffer RAMs (20_memory.md R73 to R82;
30_encoding.md R105). A word that was never written has no value: the read answers `none`, and the stage
then faults (R13). -/

namespace Sys2Proof.Machine

/-- The values `f start, …, f (start + n - 1)`, if each of them is there. -/
def collectFrom {α : Type} (f : Nat → Option α) : Nat → Nat → Option (List α)
  | _, 0 => some []
  | start, n + 1 =>
    match f start, collectFrom f (start + 1) n with
    | some x, some xs => some (x :: xs)
    | _, _ => none

/-- A binary64 entry: the word at `a` holds bits 31:0, the word at `a + 4` bits 63:32 (R73). -/
def memF64 (m : Memory) (a : Nat) : Option F64 :=
  match memWord m a, memWord m (a + 4) with
  | some lo, some hi => some (hi ++ lo)
  | _, _ => none

/-- `SAMPLE[n]`: half `n % 2` of sample RAM word `n / 2` (R74). -/
def sampleAt (m : Memory) (n : Nat) : Option (BitVec 16) :=
  match memWord m (Ram.sample.base + 4 * (n / 2)) with
  | some w => some (w.extractLsb' (16 * (n % 2)) 16)
  | none => none

/-- `KERNEL[t]` (R77). -/
def kernelAt (m : Memory) (t : Nat) : Option F64 := memF64 m (Ram.kernel.entry t)

/-- `WINDOW[n]` (R78). -/
def windowAt (m : Memory) (n : Nat) : Option F64 := memF64 m (Ram.window.entry n)

/-- `SIGNAL[i]` (R79). -/
def signalAt (m : Memory) (i : Nat) : Option F64 := memF64 m (Ram.signal.entry i)

/-- `SPEC[e]` (R80). -/
def specAt (m : Memory) (e : Nat) : Option F64 := memF64 m (Ram.spec.entry e)

/-- `PEAK[p].FRAME` (R81). -/
def peakFrameAt (m : Memory) (p : Nat) : Option Word := memWord m (Ram.peak.entry p)

/-- `PEAK[p].BIN` (R81). -/
def peakBinAt (m : Memory) (p : Nat) : Option Word := memWord m (Ram.peak.entry p + 4)

/-- `PEAK[p].MAG_LO` and `.MAG_HI` as one binary64 pattern (R81). -/
def peakMagAt (m : Memory) (p : Nat) : Option F64 := memF64 m (Ram.peak.entry p + 8)

/-- `HASH[h]` (R82). -/
def hashAt (m : Memory) (h : Nat) : Option Word := memWord m (Ram.hash.entry h)

/-- `min(n, 0xFFFFFFFF)` as an information word (R236). -/
def saturate32 (n : Nat) : Word := BitVec.ofNat 32 (min n 0xFFFFFFFF)

end Sys2Proof.Machine
end

