-- ==== Sys2Proof/Machine/Sequencer.lean ====
section
/-! DEFINITION. The sequencer (40_commands.md): the issue of a command, and its core steps. -/

namespace Sys2Proof.Machine

/-- What running one stage answers: its outputs are written, or it raised `Error(code, info)` in the
state it leaves, or it read a never-written word. -/
inductive StageResult where
  | done (s : State)
  | error (code : ErrCode) (info : Word) (s : State)
  | fault (r : Fault)
  deriving DecidableEq, Repr

/-- A command's stage list `stages(op)` (R123), each stage with its rule. -/
abbrev StageList := List (Stage × (State → StageResult))

/-- Offset of CMD (R35). -/
def cmdOffset : Offset := 0x00C

/-- Offset of CTRL (R32). -/
def ctrlOffset : Offset := 0x004

/-- What follows a stage that raised no error (R123): the next stage, or completion (R127). -/
def afterStage (rest : StageList) (s : State) : State :=
  match rest with
  | [] => s.complete
  | next :: _ => s.enterStage next.1

/-- `core_step()` (R123): run the stage STATUS.STAGE of the command's list; then the sequencer moves on,
or the error completion ends the command (R238). -/
def coreStep (stages : StageList) (s : State) : Host.Outcome State Fault Refusal :=
  match stages with
  | [] => .fault .noStageRunning
  | (st, rule) :: rest =>
    if s.status.stage = st then
      match rule s with
      | .done t => .next (afterStage rest t)
      | .error code info t => .next (t.errorCompletion code info)
      | .fault r => .fault r
    else coreStep rest s

/-- The meaning of a stage command with opcode `op` (log 2). Idle: its issue, accepted with the first
stage of its list (R120, R121). While it executes: its next core step (R123). While another command
executes: dropped with an access error (R120, R130). -/
def runCommand (op : BitVec 8) (first : Stage) (stages : StageList) (s : State) :
    Host.Outcome State Fault Refusal :=
  if s.status.busy then
    if s.status.lastOp = op then coreStep stages s.newEpoch else .next (s.accError cmdOffset)
  else .next (s.accept op first)

/-- NOP (R120, R122): completes in the issuing step; dropped while a command executes (R130). -/
def execNop (s : State) : Host.Outcome State Fault Refusal :=
  if s.status.busy then .next (s.accError cmdOffset)
  else .next (s.nopDone (Instr.opcode .nop))

end Sys2Proof.Machine
end

