-- ==== Sys2Proof/Machine/Filter.lean ====
section
/-! DEFINITION. The FILTER stage, the decimating FIR filter (41_filter.md R140 to R149). -/

namespace Sys2Proof.Machine

/-- D of R140: SAMPLE_RATE // TARGET_RATE, truncated (R141). -/
def decimation (s : State) : Nat := s.cfg.sampleRate.toNat / s.cfg.targetRate.toNat

/-- L of R145, the number of retained outputs. -/
def filterLength (s : State) : Nat :=
  (s.cfg.numSamples.toNat + decimation s - 1) / decimation s

/-- `filter_checks()` (R140): the first check that fails, with its information word. -/
def filterChecks (s : State) : Option (ErrCode × Word) :=
  if s.cfg.sampleRate.toNat < s.cfg.targetRate.toNat then
    some (.invalidSampleRate, s.cfg.sampleRate)
  else if s.cfg.targetRate.toNat = 0 then some (.cfgTargetRate, 0)
  else if s.caps.samples.toNat < s.cfg.numSamples.toNat then some (.capSamples, s.cfg.numSamples)
  else if s.caps.taps.toNat < s.cfg.numTaps.toNat then some (.capTaps, s.cfg.numTaps)
  else if s.caps.signal.toNat < filterLength s then
    some (.capSignal, BitVec.ofNat 32 (filterLength s))
  else none

/-- `x[n]` of R142: the sample times 2^-15. -/
def normalizeSample (sample : BitVec 16) : F64 := fmul (i16ToF64 (sext16 sample)) 0x3F00000000000000

/-- `y[i]` of R144: ascending `j` from +0.0, two roundings a term, the terms whose index
`i + j - half` falls outside the input skipped. -/
def firOutput (x k : List F64) (i : Nat) : F64 :=
  (List.range k.length).foldl (fun acc j =>
    if i + j < k.length / 2 then acc
    else match x[i + j - k.length / 2]? with
      | some v => fadd acc (fmul v (k.getD j 0))
      | none => acc) 0

/-- The retained outputs `y[m * D]` for `0 <= m < L` (R145, R147). -/
def decimated (x k : List F64) (d l : Nat) : List F64 :=
  (List.range l).map (fun m => firOutput x k (m * d))

/-- The samples below NUM_SAMPLES (R76, R142). -/
def filterSamples (s : State) : Option (List (BitVec 16)) :=
  collectFrom (sampleAt s.mem) 0 s.cfg.numSamples.toNat

/-- The taps below NUM_TAPS (R77, R143). With no sample no output exists and no tap is read (log 6). -/
def filterKernel (s : State) : Option (List F64) :=
  collectFrom (kernelAt s.mem) 0 (if s.cfg.numSamples.toNat = 0 then 0 else s.cfg.numTaps.toNat)

/-- The outputs of R146: SIGNAL[0..L-1], SIG_LEN and DECIM. -/
def filterWrite (s : State) (ys : List F64) : State :=
  { s with
    mem := memPutF64s s.mem Ram.signal.base ys
    len := { s.len with
      sigLen := BitVec.ofNat 32 (filterLength s), decim := BitVec.ofNat 32 (decimation s) } }

/-- The FILTER stage (R149): checks, then x, y, SIGNAL and the registers in one step. -/
def filterStage (s : State) : StageResult :=
  match filterChecks s with
  | some (code, info) => .error code info s
  | none =>
    match filterSamples s, filterKernel s with
    | some samples, some k =>
      .done (filterWrite s (decimated (samples.map normalizeSample) k (decimation s) (filterLength s)))
    | _, _ => .fault .unwrittenWord

/-- FILTER (R149): `stages(FILTER) = [FILTER]` (R123). -/
def execFilter (s : State) : Host.Outcome State Fault Refusal :=
  runCommand (Instr.opcode .filter) .filter [(.filter, filterStage)] s

end Sys2Proof.Machine
end

