-- ==== Sys2Proof/Machine/Hash.lean ====
section
/-! DEFINITION. The HASH stage, the peak-pair hash packer (44_hash.md R205 to R212). -/

namespace Sys2Proof.Machine

/-- `hash_checks()` (R205). -/
def hashChecks (s : State) : Option (ErrCode × Word) :=
  if s.caps.peaks.toNat < s.len.numPeaks.toNat then some (.capPeaks, s.len.numPeaks) else none

/-- `fr[p]` and `bn[p]` of R206, as non-negative integers. -/
structure PeakKey where
  frame : Nat
  bin : Nat
  deriving DecidableEq, Repr

/-- The FRAME and BIN words of record `p`; the magnitude words are not read (R75, R206). -/
def peakKeyAt (m : Memory) (p : Nat) : Option PeakKey :=
  match peakFrameAt m p, peakBinAt m p with
  | some f, some b => some { frame := f.toNat, bin := b.toNat }
  | _, _ => none

/-- `pack(a, t, dt)` (R211, R108): clipped to 9, 9 and 14 bits. -/
def pack (a t dt : Nat) : Word :=
  BitVec.ofNat 32 (min a 0x1FF <<< 23 ||| min t 0x1FF <<< 14 ||| min dt 0x3FFF)

/-- The inner loop of R207 for one anchor, over the later targets, with the hashes so far. The first
component says that a pair was due when `cap` hashes were there (R209). -/
def scanTargets (tz cap : Nat) (anchor : PeakKey) : List PeakKey → List Word → Bool × List Word
  | [], out => (false, out)
  | target :: rest, out =>
    let dt : Int := target.frame - anchor.frame
    if dt < 0 then scanTargets tz cap anchor rest out
    else if (tz : Int) < dt then (false, out)
    else if out.length = cap then (true, out)
    else scanTargets tz cap anchor rest (out ++ [pack anchor.bin target.bin dt.toNat])

/-- The outer loop of R207 from anchor index `i` on. The first component is the anchor at which the hash
RAM overflowed (R209). -/
def scanAnchors (tz cap : Nat) : Nat → List PeakKey → List Word → Option Nat × List Word
  | _, [], out => (none, out)
  | i, anchor :: rest, out =>
    match scanTargets tz cap anchor rest out with
    | (true, out') => (some i, out')
    | (false, out') => scanAnchors tz cap (i + 1) rest out'

/-- `hash_scan()` (R207): the overflow, if any, and the hashes in generation order. -/
def hashScan (tz cap : Nat) (ps : List PeakKey) : Option Nat × List Word := scanAnchors tz cap 0 ps []

/-- The outputs of R208 and R209: the hashes and NUM_HASHES. -/
def hashWrite (s : State) (hs : List Word) : State :=
  { s with
    mem := memPutWords s.mem Ram.hash.base hs
    len := { s.len with numHashes := BitVec.ofNat 32 hs.length } }

/-- The HASH stage (R212). -/
def hashStage (s : State) : StageResult :=
  match hashChecks s with
  | some (code, info) => .error code info s
  | none =>
    match collectFrom (peakKeyAt s.mem) 0 s.len.numPeaks.toNat with
    | some ps =>
      match hashScan s.cfg.targetZone.toNat s.caps.hashes.toNat ps with
      | (none, hs) => .done (hashWrite s hs)
      | (some i, hs) => .error .capHashes (BitVec.ofNat 32 i) (hashWrite s hs)
    | none => .fault .unwrittenWord

/-- HASH (R212): `stages(HASH) = [HASH]` (R123). -/
def execHash (s : State) : Host.Outcome State Fault Refusal :=
  runCommand (Instr.opcode .hash) .hash [(.hash, hashStage)] s

end Sys2Proof.Machine
end

