-- ==== Sys2Proof/Machine/Peaks.lean ====
section
/-! DEFINITION. The PEAKS stage, the peak-band detector (43_peaks.md R190 to R195). -/

namespace Sys2Proof.Machine

/-- Peaks per frame, `ppf` of R190 and R194, for `B = bins` and `NB = nb`. -/
def peaksPerFrame (bins nb : Nat) : Nat :=
  if 1 ≤ bins / nb then nb else if 1 ≤ bins then 1 else 0

/-- P of R190. -/
def peakCount (s : State) : Nat :=
  s.len.numFrames.toNat * peaksPerFrame s.len.numBins.toNat s.cfg.numBands.toNat

/-- F * B of R190, the number of spectrogram entries read. -/
def peakEntries (s : State) : Nat := s.len.numFrames.toNat * s.len.numBins.toNat

/-- `peaks_checks()` (R190). -/
def peaksChecks (s : State) : Option (ErrCode × Word) :=
  if s.cfg.numBands.toNat = 0 then some (.cfgBands, 0)
  else if s.caps.spec.toNat < peakEntries s then some (.capSpec, saturate32 (peakEntries s))
  else if s.caps.peaks.toNat < peakCount s then some (.capPeaks, saturate32 (peakCount s))
  else none

/-- `lo_b` of R191. -/
def bandLow (bins nb b : Nat) : Nat := b * (bins / nb)

/-- `hi_b` of R191: the last band takes the remainder. -/
def bandHigh (bins nb b : Nat) : Nat := if b < nb - 1 then (b + 1) * (bins / nb) else bins

/-- `best` of R192 over the bins `lo` to `hi - 1`: ascending, replaced only by a strictly greater
magnitude. -/
def strongest (mag : List F64) (lo hi : Nat) : Nat :=
  (List.range' (lo + 1) (hi - (lo + 1))).foldl
    (fun best k => if fgt (mag.getD k 0) (mag.getD best 0) then k else best) lo

/-- A peak record (R81). -/
structure Peak where
  frame : Nat
  bin : Nat
  mag : F64
  deriving DecidableEq, Repr

/-- The records of one frame (R192, R193): one for every non-empty band, ascending. -/
def framePeaks (nb f : Nat) (mag : List F64) : List Peak :=
  (List.range nb).filterMap (fun b =>
    let lo := bandLow mag.length nb b
    let hi := bandHigh mag.length nb b
    if lo < hi then
      some { frame := f, bin := strongest mag lo hi, mag := mag.getD (strongest mag lo hi) 0 }
    else none)

/-- The records of every frame, frame-major (R193). Row `f` of the spectrogram is entries `f * B` on
(R80). -/
def allPeaks (frames bins nb : Nat) (entries : List F64) : List Peak :=
  (List.range frames).flatMap (fun f => framePeaks nb f ((entries.drop (f * bins)).take bins))

/-- The four words of a record (R81, R193). -/
def peakWords (p : Peak) : List Word :=
  [BitVec.ofNat 32 p.frame, BitVec.ofNat 32 p.bin] ++ f64Words p.mag

/-- The outputs of R193: the records and NUM_PEAKS. -/
def peaksWrite (s : State) (ps : List Peak) : State :=
  { s with
    mem := memPutWords s.mem Ram.peak.base (ps.flatMap peakWords)
    len := { s.len with numPeaks := BitVec.ofNat 32 (peakCount s) } }

/-- The PEAKS stage (R195). -/
def peaksStage (s : State) : StageResult :=
  match peaksChecks s with
  | some (code, info) => .error code info s
  | none =>
    match collectFrom (specAt s.mem) 0 (peakEntries s) with
    | some entries =>
      .done (peaksWrite s
        (allPeaks s.len.numFrames.toNat s.len.numBins.toNat s.cfg.numBands.toNat entries))
    | none => .fault .unwrittenWord

/-- PEAKS (R195): `stages(PEAKS) = [PEAKS]` (R123). -/
def execPeaks (s : State) : Host.Outcome State Fault Refusal :=
  runCommand (Instr.opcode .peaks) .peaks [(.peaks, peaksStage)] s

end Sys2Proof.Machine
end

