-- ==== Sys2Proof/Machine/Twiddle.lean ====
section
/-! DEFINITION. The twiddle factors of 42_spectrum.md R167, computed: sines and cosines in fixed point
with 192 fraction bits, then rounded to binary64 (log 7). -/

namespace Sys2Proof.Machine

/-- The number of fraction bits of the fixed-point values of this file. -/
def fixBits : Nat := 192

/-- 1 in fixed point. -/
def fixOne : Nat := 2 ^ fixBits

/-- Pi in fixed point, rounded down. -/
def fixPi : Nat := 0x3243f6a8885a308d313198a2e03707344a4093822299f31d0

/-- The angle `2*pi*n/d` in fixed point; it depends on the quotient `n/d` alone. -/
def fixAngle (n d : Nat) : Nat := 2 * fixPi * n / d

/-- The nested form of the alternating series with the factors `1/(k*(k+1))`, `1/((k+2)*(k+3))`, …: from
`k = 1` the cosine, from `k = 2` the sine over its argument. `x2` is the squared argument. -/
def fixSeries (x2 : Nat) : Nat → Nat → Nat
  | 0, _ => fixOne
  | terms + 1, k => fixOne - x2 * fixSeries x2 terms (k + 2) / (fixOne * (k * (k + 1)))

/-- The number of terms: for angles up to pi/4 the rest is below one unit. -/
def fixTerms : Nat := 24

/-- `RN(cos(2*pi*n/d))` for `n/d <= 1/8`. -/
def cosEighth (n d : Nat) : F64 :=
  let x := fixAngle n d
  roundDyadic false (fixSeries (x * x / fixOne) fixTerms 1) fixBits

/-- `RN(sin(2*pi*n/d))` for `n/d <= 1/8`; exactly +0.0 at 0. -/
def sinEighth (n d : Nat) : F64 :=
  let x := fixAngle n d
  roundDyadic false (x * fixSeries (x * x / fixOne) fixTerms 2 / fixOne) fixBits

/-- The negated value; an exact zero stays +0.0 (R10, R167). -/
def negNonzero (x : F64) : F64 := if x = 0 then 0 else fneg x

/-- `W(j, s)` of R167 for `0 <= j < s/2`: `(RN(cos(2*pi*j/s)), RN(-sin(2*pi*j/s)))`, by the octant in
which the angle lies, reduced exactly to an angle of at most pi/4. -/
def twiddle (j s : Nat) : Complex64 :=
  if 8 * j ≤ s then (cosEighth j s, negNonzero (sinEighth j s))
  else if 4 * j ≤ s then (sinEighth (s - 4 * j) (4 * s), negNonzero (cosEighth (s - 4 * j) (4 * s)))
  else if 8 * j ≤ 3 * s then
    (negNonzero (sinEighth (4 * j - s) (4 * s)), negNonzero (cosEighth (4 * j - s) (4 * s)))
  else (negNonzero (cosEighth (s - 2 * j) (2 * s)), negNonzero (sinEighth (s - 2 * j) (2 * s)))

end Sys2Proof.Machine
end

