-- ==== Sys2Proof/Machine/Spectrum.lean ====
section
/-! DEFINITION. The SPECTRUM stage: frame buffer, windower and FFT magnitude core (42_spectrum.md R160 to
R171). The lanes leave no trace in the result (R170). -/

namespace Sys2Proof.Machine

/-- `frame_count(S, FS, HOP)` (R161). -/
def frameCount (s fs hop : Nat) : Nat := if s < fs then 0 else (s - fs) / hop + 1

/-- F of R160. -/
def spectrumFrames (s : State) : Nat :=
  frameCount s.len.sigLen.toNat s.cfg.frameSize.toNat s.cfg.hopSize.toNat

/-- B of R160 and R162. -/
def spectrumBins (s : State) : Nat := s.cfg.frameSize.toNat / 2 + 1

/-- `spectrum_checks()` (R160). -/
def spectrumChecks (s : State) : Option (ErrCode × Word) :=
  if ¬(isPowerOfTwo s.cfg.frameSize.toNat = true ∧ 2 ≤ s.cfg.frameSize.toNat ∧
      s.cfg.frameSize.toNat ≤ s.caps.frame.toNat) then some (.cfgFrameSize, s.cfg.frameSize)
  else if s.cfg.hopSize.toNat = 0 then some (.cfgHop, 0)
  else if s.caps.signal.toNat < s.len.sigLen.toNat then some (.capSignal, s.len.sigLen)
  else if s.caps.spec.toNat < spectrumFrames s * spectrumBins s then
    some (.capSpec, saturate32 (spectrumFrames s * spectrumBins s))
  else none

/-- `rev_b(i)`: the `b` low bits of `i` reversed (R165). -/
def revBits : Nat → Nat → Nat
  | 0, _ => 0
  | b + 1, i => i % 2 * 2 ^ b + revBits b (i / 2)

/-- One butterfly of R165 in exactly its operand order (R166): twiddle `w`, upper entry `u`, lower `a`. -/
def butterfly (w u a : Complex64) : Complex64 × Complex64 :=
  let tr := fsub (fmul w.1 a.1) (fmul w.2 a.2)
  let ti := fadd (fmul w.1 a.2) (fmul w.2 a.1)
  ((fadd u.1 tr, fadd u.2 ti), (fsub u.1 tr, fsub u.2 ti))

/-- The butterflies of one base (R165): entries `j` and `j + h` of a block of `s = 2 * h` entries. -/
def fftBlock (s : Nat) (block : List Complex64) : List Complex64 :=
  let outs := (List.range (s / 2)).map (fun j =>
    butterfly (twiddle j s) (block.getD j (0, 0)) (block.getD (j + s / 2) (0, 0)))
  outs.map Prod.fst ++ outs.map Prod.snd

/-- One level of R165: the blocks at `base = 0, s, 2s, …`. -/
def fftLevel (s : Nat) (a : List Complex64) : List Complex64 :=
  (List.range (a.length / s)).flatMap (fun blk => fftBlock s ((a.drop (blk * s)).take s))

/-- `fft(u)` of R165 for `FS = 2^b`: bit reversal, then the levels `s = 2, 4, …, FS` in order. -/
def fft (b : Nat) (u : List F64) : List Complex64 :=
  (List.range b).foldl (fun a t => fftLevel (2 ^ (t + 1)) a)
    ((List.range (2 ^ b)).map (fun i => (u.getD (revBits b i) 0, 0)))

/-- `m[k]` of R168. -/
def magnitude (z : Complex64) : F64 := fsqrt (fadd (fmul z.1 z.1) (fmul z.2 z.2))

/-- The spectrogram row of one frame (R164, R165, R168): windowing, FFT, bins 0 to FS/2. -/
def spectrumRow (fs : Nat) (window frame : List F64) : List F64 :=
  ((fft fs.log2 (List.zipWith fmul frame window)).take (fs / 2 + 1)).map magnitude

/-- Frame `f`, copied from SIGNAL[f * HOP] on (R163). -/
def frameAt (s : State) (f : Nat) : Option (List F64) :=
  collectFrom (signalAt s.mem) (f * s.cfg.hopSize.toNat) s.cfg.frameSize.toNat

/-- The window, read when some frame exists (R171). -/
def spectrumWindow (s : State) : Option (List F64) :=
  collectFrom (windowAt s.mem) 0 (if spectrumFrames s = 0 then 0 else s.cfg.frameSize.toNat)

/-- The outputs of R162 and R169: SPEC rows frame by frame, NUM_FRAMES and NUM_BINS. -/
def spectrumWrite (s : State) (rows : List (List F64)) : State :=
  { s with
    mem := memPutF64s s.mem Ram.spec.base rows.flatten
    len := { s.len with
      numFrames := BitVec.ofNat 32 (spectrumFrames s), numBins := BitVec.ofNat 32 (spectrumBins s) } }

/-- The SPECTRUM stage (R171). -/
def spectrumStage (s : State) : StageResult :=
  match spectrumChecks s with
  | some (code, info) => .error code info s
  | none =>
    match spectrumWindow s, collectFrom (frameAt s) 0 (spectrumFrames s) with
    | some window, some frames =>
      .done (spectrumWrite s (frames.map (spectrumRow s.cfg.frameSize.toNat window)))
    | _, _ => .fault .unwrittenWord

/-- SPECTRUM (R171): `stages(SPECTRUM) = [SPECTRUM]` (R123). -/
def execSpectrum (s : State) : Host.Outcome State Fault Refusal :=
  runCommand (Instr.opcode .spectrum) .spectrum [(.spectrum, spectrumStage)] s

end Sys2Proof.Machine
end

