-- ==== Sys2Proof/Machine/Control.lean ====
section
/-! DEFINITION. RUN and the soft reset (40_commands.md R123, R128, R131). -/

namespace Sys2Proof.Machine

/-- `stages(RUN) = [FILTER, SPECTRUM, PEAKS, HASH]` (R123). -/
def runStages : StageList :=
  [(.filter, filterStage), (.spectrum, spectrumStage), (.peaks, peaksStage), (.hash, hashStage)]

/-- RUN (R121, R123, R128): no stage is skipped, and each reads what the one before it wrote. -/
def execRun (s : State) : Host.Outcome State Fault Refusal :=
  runCommand (Instr.opcode .run) .filter runStages s

/-- SRST (R106, R131): accepted in any state. -/
def execSrst (s : State) : Host.Outcome State Fault Refusal := .next s.softReset

end Sys2Proof.Machine
end

