-- ==== Sys2Proof/Machine/Dispatch.lean ====
section
/-! DEFINITION. The meaning of every instruction: one arm per constructor of Instr. -/

namespace Sys2Proof.Machine

-- One direct call of a meaning per arm.
def exec (i : Instr) (s : State) : Host.Outcome State Fault Refusal :=
  match i with
  | .nop => Sys2Proof.Machine.execNop s
  | .run => Sys2Proof.Machine.execRun s
  | .filter => Sys2Proof.Machine.execFilter s
  | .spectrum => Sys2Proof.Machine.execSpectrum s
  | .peaks => Sys2Proof.Machine.execPeaks s
  | .hash => Sys2Proof.Machine.execHash s
  | .srst => Sys2Proof.Machine.execSrst s

end Sys2Proof.Machine
end

