-- ==== Sys2Proof/Machine/HostPort.lean ====
section
/-! DEFINITION. The host port and the moves of the two agents (20_memory.md R83 to R93; 40_commands.md
R120; 70_reset_and_hazards.md R270). -/

namespace Sys2Proof.Machine

/-- A write of `w` to CMD, `issue(w)` (R120): dropped while busy (R130); an illegal word is an error
completion (R103); a command is run by its meaning. -/
def writeCmd (w : Word) (s : State) : Host.Outcome State Fault Refusal :=
  if s.status.busy then .next (s.accError cmdOffset)
  else match decode .cmd w with
    | .ok i => exec i s
    | .error _ => .next (s.illegalCommand w)

/-- A write of `w` to CTRL (R32, R106): bit 0 = 1 is the soft reset, otherwise nothing happens. -/
def writeCtrl (w : Word) (s : State) : Host.Outcome State Fault Refusal :=
  match decode .ctrl w with
  | .ok i => exec i s
  | .error _ => .next s

/-- `csr_write` (R85): each register's own rule. Read-only registers refuse the write (R244). -/
def csrWrite (r : Csr) (v : Word) (s : State) : Host.Outcome State Fault Refusal :=
  match r with
  | .ctrl => writeCtrl v s
  | .status => .next (s.acknowledge v)
  | .cmd => writeCmd v s
  | .irqEn => .next { s with irqEn := IrqEnable.ofWord v }
  | r =>
    if r.busyRefused && !s.status.busy then .next (csrStore s v r) else .next (s.accError r.offset)

/-- `MemWrite(a, 4, v)` (R85). -/
def memWrite (a : Offset) (v : Word) (s : State) : Host.Outcome State Fault Refusal :=
  if a.toNat % 4 ≠ 0 then .next (s.accError a)
  else if a.toNat ≤ 0xFFF then
    match csrAt a with
    | some r => csrWrite r v s
    | none => .next (s.accError a)
  else match locate s.caps a.toNat with
    | some _ =>
      if s.status.busy then .next (s.accError a)
      else .next { s with mem := memPutWord s.mem a.toNat v }
    | none => .next (s.accError a)

/-- A read answers on the port (R270, log 11). -/
def State.respond (s : State) (v : Word) : State := { s with rsp := some v }

/-- A host move. WAIT reads once; while its condition fails it stays at the head of the schedule, after
one move of the core (R109, R126, log 10). -/
def hostMove (acc : Access) (s : State) : Host.Outcome State Fault Refusal :=
  match acc with
  | .read a => .next ((memRead a s).2.respond (memRead a s).1)
  | .write a v => memWrite a v s
  | .wait a mask value =>
    if (memRead a s).1 &&& mask = value then .next ((memRead a s).2.respond (memRead a s).1)
    else
      .next { (memRead a s).2.respond (memRead a s).1 with
        sched := .core :: .host (.wait a mask value) :: s.sched }

/-- A move of the core (R123): one core step of the executing command while BUSY = 1; idle, it does no
work (R251). LASTOP is the opcode of the executing command (R55). -/
def coreMove (s : State) : Host.Outcome State Fault Refusal :=
  if s.status.busy then
    match decode .cmd (s.status.lastOp.setWidth 32) with
    | .ok .nop => .fault .noStageRunning
    | .ok i => exec i s
    | .error _ => .fault .noStageRunning
  else .next s

/-- The state in which a move is made: the schedule moves on, and the last response is gone. -/
def State.advance (s : State) (rest : List Move) : State := { s with sched := rest, rsp := none }

/-- One move of the machine (R89): the next move of the schedule; when none is left, the core's (R126). -/
def takeMove (s : State) : Host.Outcome State Fault Refusal :=
  match s.sched with
  | [] => coreMove (s.advance [])
  | .core :: rest => coreMove (s.advance rest)
  | .host acc :: rest => hostMove acc (s.advance rest)

/-- The offset of a command register. -/
def cmdRegOffset : CmdReg → Offset
  | .cmd => cmdOffset
  | .ctrl => ctrlOffset

/-- The host's next move is the write of the word `w` to `reg`; a word for CMD finds the sequencer idle,
or the write would be dropped (log 5). -/
def State.offer (s : State) (reg : CmdReg) (w : Word) : State :=
  { s with
    status := { s.status with busy := match reg with | .cmd => false | .ctrl => s.status.busy }
    sched := .host (.write (cmdRegOffset reg) w) :: s.sched }

end Sys2Proof.Machine
end

