-- ==== Sys2Proof/Machine/Step.lean ====
section
/-! DEFINITION. One step of the machine (20_memory.md R89). -/

namespace Sys2Proof.Machine

/-- One move of the host or of the core, whichever is next (R89). -/
def step (s : State) : Host.Outcome State Fault Refusal := takeMove s

/-- The state `s` in which the host's next move writes the table row's word to its register, so that the
next step runs exactly it (log 5). -/
def State.withFetchWord (s : State) (nbits w : Nat) : State :=
  s.offer (tableReg nbits) (tableWord nbits w)

end Sys2Proof.Machine
end

