-- ==== Sys2Proof/Machine/HostSyntax.lean ====
section
/-! DEFINITION. The host access syntax: statements, locations and the expansions of the pseudo-statements
(30_encoding.md R109, R110). -/

namespace Sys2Proof.Machine

/-- `<loc>` of R109: a CSR name, a byte offset, or an entry form. -/
inductive Loc where
  | csr (r : Csr)
  | offset (a : Offset)
  | kernel (t : Nat)
  | kernelHi (t : Nat)
  | window (n : Nat)
  | windowHi (n : Nat)
  | signal (i : Nat)
  | signalHi (i : Nat)
  | spec (e : Nat)
  | specHi (e : Nat)
  | sampleWord (w : Nat)
  | peakFrame (p : Nat)
  | peakBin (p : Nat)
  | peakMagLo (p : Nat)
  | peakMagHi (p : Nat)
  | hash (h : Nat)
  deriving DecidableEq, Repr

/-- The byte offset a location stands for (R109; R71 to R82). -/
def Loc.address : Loc → Offset
  | .csr r => r.offset
  | .offset a => a
  | .kernel t => BitVec.ofNat 28 (Ram.kernel.entry t)
  | .kernelHi t => BitVec.ofNat 28 (Ram.kernel.entry t + 4)
  | .window n => BitVec.ofNat 28 (Ram.window.entry n)
  | .windowHi n => BitVec.ofNat 28 (Ram.window.entry n + 4)
  | .signal i => BitVec.ofNat 28 (Ram.signal.entry i)
  | .signalHi i => BitVec.ofNat 28 (Ram.signal.entry i + 4)
  | .spec e => BitVec.ofNat 28 (Ram.spec.entry e)
  | .specHi e => BitVec.ofNat 28 (Ram.spec.entry e + 4)
  | .sampleWord w => BitVec.ofNat 28 (Ram.sample.base + 4 * w)
  | .peakFrame p => BitVec.ofNat 28 (Ram.peak.entry p)
  | .peakBin p => BitVec.ofNat 28 (Ram.peak.entry p + 4)
  | .peakMagLo p => BitVec.ofNat 28 (Ram.peak.entry p + 8)
  | .peakMagHi p => BitVec.ofNat 28 (Ram.peak.entry p + 12)
  | .hash h => BitVec.ofNat 28 (Ram.hash.entry h)

/-- A host statement (R109) or pseudo-statement (R110). -/
inductive HostStmt where
  /-- `WR loc, value`. -/
  | wr (loc : Loc) (value : Word)
  /-- `RD loc`. -/
  | rd (loc : Loc)
  /-- `WAIT loc, mask, value`. -/
  | wait (loc : Loc) (mask value : Word)
  /-- `CMD.NOP`, `CMD.RUN`, …, or `SRST`: the instruction's word to its register. -/
  | command (i : Instr)
  /-- `ACK`. -/
  | ack
  /-- `WAITDONE`. -/
  | waitDone
  /-- `WRF64 KERNEL[t], x`. -/
  | wrF64Kernel (t : Nat) (x : F64)
  /-- `WRF64 WINDOW[n], x`. -/
  | wrF64Window (n : Nat) (x : F64)
  /-- `WRF64 SIGNAL[i], x`. -/
  | wrF64Signal (i : Nat) (x : F64)
  /-- `WRF64 SPEC[e], x`. -/
  | wrF64Spec (e : Nat) (x : F64)
  /-- `WRS16 w, a, b`. -/
  | wrS16 (w : Nat) (a b : BitVec 16)
  deriving DecidableEq, Repr

/-- The register a command register is. -/
def cmdRegCsr : CmdReg → Csr
  | .cmd => .cmd
  | .ctrl => .ctrl

/-- `WRF64` (R110): bits 31:0, then bits 63:32. -/
def wrF64 (lo hi : Loc) (x : F64) : List Access :=
  [.write lo.address (x.extractLsb' 0 32), .write hi.address (x.extractLsb' 32 32)]

/-- The host accesses a statement stands for (R109, R110). -/
def HostStmt.expand : HostStmt → List Access
  | .wr loc value => [.write loc.address value]
  | .rd loc => [.read loc.address]
  | .wait loc mask value => [.wait loc.address mask value]
  | .command i => [.write (cmdRegCsr i.reg).offset (encode i)]
  | .ack => [.write Csr.status.offset 0x0000000E]
  | .waitDone => [.wait Csr.status.offset 0x00000003 0x00000002]
  | .wrF64Kernel t x => wrF64 (.kernel t) (.kernelHi t) x
  | .wrF64Window n x => wrF64 (.window n) (.windowHi n) x
  | .wrF64Signal i x => wrF64 (.signal i) (.signalHi i) x
  | .wrF64Spec e x => wrF64 (.spec e) (.specHi e) x
  | .wrS16 w a b => [.write (Loc.sampleWord w).address (b ++ a)]

/-- A host program as the moves of the schedule, with no core turn of its own. -/
def hostMoves (p : List HostStmt) : List Move := (p.flatMap HostStmt.expand).map Move.host

end Sys2Proof.Machine
end

