-- ==== Sys2Proof/Safety.lean ====
section
/-! DEFINITION. What the claims use: the invariants of the machine, and when a stage can read all its
operands. -/

namespace Sys2Proof.Machine

/-- `stages(op)` of R123 for the opcode in LASTOP; empty for NOP and for every illegal opcode. -/
def stagesOf (op : BitVec 8) : List Stage :=
  if op = 0x01 then [.filter, .spectrum, .peaks, .hash]
  else if op = 0x02 then [.filter]
  else if op = 0x03 then [.spectrum]
  else if op = 0x04 then [.peaks]
  else if op = 0x05 then [.hash]
  else []

/-- The sequencer is consistent (R33, R55): while BUSY = 1, DONE = 0, ERR = 0, ERRCODE = 0, and STAGE is
a stage of the executing command. -/
abbrev State.SequencerOk (s : State) : Prop :=
  s.status.busy = true →
    s.status.done = false ∧ s.status.err = false ∧ s.status.errCode = .none ∧
      s.status.stage ∈ stagesOf s.status.lastOp

/-- ERR = 1 comes with the code of an error (R236, R238). -/
abbrev State.ErrorOk (s : State) : Prop := s.status.err = true → s.status.errCode ≠ .none

/-- Every listed byte belongs to a word of a buffer RAM that is valid in this machine and is wholly
written (R57, R71, R83). -/
abbrev State.RamOk (s : State) : Prop :=
  ∀ c ∈ s.mem,
    (locate s.caps (c.1 - c.1 % 4)).isSome = true ∧ (memWord s.mem (c.1 - c.1 % 4)).isSome = true

/-- NUM_HASHES never exceeds the hash RAM (R51, R208, R209): the host cannot write it. -/
abbrev State.HashesOk (s : State) : Prop := s.len.numHashes.toNat ≤ s.caps.hashes.toNat

/-- The machine's invariant, for an instance that R7 allows. -/
abbrev State.Inv (s : State) : Prop :=
  s.caps.wf = true ∧ Memory.wf s.mem = true ∧ s.RamOk ∧ s.SequencerOk ∧ s.ErrorOk ∧ s.HashesOk

/-- The step stops with a fault. -/
def State.Stuck (s : State) : Prop := ∃ r, step s = .fault r

end Sys2Proof.Machine
end

