-- ==== Sys2Proof/Certificates/Slice0/Obligations.lean ====
section
/-! DEFINITION. The statements about the AFP-CORE, from the numbered rules of spec/, and the terms they
are written in. -/

namespace Sys2Proof.Machine

/-! ### Terms of the statements -/

/-- The command `i` is executing and its stage `st` is the next core step (R55). -/
abbrev State.Executing (s : State) (i : Instr) (st : Stage) : Prop :=
  s.status.busy = true ∧ s.status.lastOp = i.opcode ∧ s.status.stage = st

/-- STATUS after a stage that raised no error (R123, R127): RUN moves on to `next` if there is one, a
single-stage command and the last stage of RUN complete. -/
def Status.afterStage (st : Status) (i : Instr) (next : Option Stage) : Status :=
  match i, next with
  | .run, some n => { st with stage := n }
  | _, _ => { st with busy := false, done := true }

/-- What no stage changes but STATUS, the lengths and its output RAM: the frame of a core step. -/
abbrev State.SameRegisters (s t : State) : Prop :=
  t.irqEn = s.irqEn ∧ t.errInfo = s.errInfo ∧ t.accAddr = s.accAddr ∧ t.cfg = s.cfg ∧ t.caps = s.caps ∧
    t.sched = s.sched ∧ t.rsp = s.rsp

/-- Every byte outside `[lo, lo + n)` reads as before. -/
def State.SameBytesOutside (s t : State) (lo n : Nat) : Prop :=
  ∀ a, a < lo ∨ lo + n ≤ a → memByte t.mem a = memByte s.mem a

/-- The signed number of units of 2^-1074 of a finite binary64 value. -/
def finiteUnits (x : F64) : Option Int :=
  match unpack x with
  | .fin s m e => some (unitsOf s m e)
  | .inf _ => none
  | .nan => none

/-- `r` is a binary64 value nearest to the number `n * 2^-k` (R10), measured in units of 2^-(1074 + k).
IEEE 754's rules, which the spec names only (R11, log 8): it is the infinity of the number's sign exactly
when the number reaches the midpoint above the largest finite value, `(2^54 - 1) * 2^970`; a number that is
not 0 gives its sign, also to a zero. -/
def NearestTo (n : Int) (k : Nat) (r : F64) : Prop :=
  (∀ u, finiteUnits r = some u → ∀ z v, finiteUnits z = some v →
    |n * 2 ^ 1074 - u * 2 ^ k| ≤ |n * 2 ^ 1074 - v * 2 ^ k|) ∧
  (finiteUnits r = none ↔ (2 ^ 54 - 1) * 2 ^ 970 * 2 ^ k ≤ n.natAbs) ∧
  (finiteUnits r = none → r = infinity (decide (n < 0))) ∧
  (n ≠ 0 → r.getLsbD 63 = decide (n < 0))

/-- When another finite value is as near to `n * 2^-k` as the finite `r` is, the last fraction bit of `r`
is 0 (R10: ties to even). -/
def EvenOnTie (n : Int) (k : Nat) (r : F64) : Prop :=
  ∀ u z v, finiteUnits r = some u → finiteUnits z = some v → u ≠ v →
    |n * 2 ^ 1074 - u * 2 ^ k| = |n * 2 ^ 1074 - v * 2 ^ k| → r.getLsbD 0 = false

/-- The signed number that `roundDyadic neg m` rounds, before its scale. -/
def signedMant (neg : Bool) (m : Nat) : Int := if neg then -(m : Int) else m

/-- `x` is a finite binary64 value nearest to the real number `r`, and +0.0 if `r` is 0 (`RN` of R10). -/
def NearestToReal (r : ℝ) (x : F64) : Prop :=
  (∃ u, finiteUnits x = some u ∧ ∀ z v, finiteUnits z = some v →
    |r * 2 ^ 1074 - (u : ℝ)| ≤ |r * 2 ^ 1074 - (v : ℝ)|) ∧ (r = 0 → x = 0)

/-- R131's four pairs, a stage and the first and last offset of its output RAM (R71): FILTER to SIGNAL,
SPECTRUM to SPEC, PEAKS to PEAK, HASH to HASH. -/
def outputRegions : List (Stage × Nat × Nat) :=
  [(.filter, 0x2000000, 0x2FFFFFF), (.spectrum, 0x4000000, 0x7FFFFFF), (.peaks, 0x8000000, 0x8FFFFFF),
   (.hash, 0x9000000, 0x9FFFFFF)]

/-- The soft reset erases the byte `a`: it lies in the output RAM of the stage that is executing. -/
abbrev State.Aborts (s : State) (a : Nat) : Prop :=
  s.status.busy = true ∧ ∃ r ∈ outputRegions, r.1 = s.status.stage ∧ r.2.1 ≤ a ∧ a ≤ r.2.2

/-- The seven RAM rows of R71: first and last offset, bytes per entry, number of valid entries. -/
def regionTable (c : Caps) : List (Ram × Nat × Nat × Nat × Nat) :=
  [(.kernel, 0x0010000, 0x001FFFF, 8, c.taps.toNat), (.window, 0x0020000, 0x002FFFF, 8, c.frame.toNat),
   (.sample, 0x1000000, 0x1FFFFFF, 2, c.samples.toNat), (.signal, 0x2000000, 0x2FFFFFF, 8, c.signal.toNat),
   (.spec, 0x4000000, 0x7FFFFFF, 8, c.spec.toNat), (.peak, 0x8000000, 0x8FFFFFF, 16, c.peaks.toNat),
   (.hash, 0x9000000, 0x9FFFFFF, 4, c.hashes.toNat)]

/-- The host statement `p`, offered as the next moves of the host, takes one step an access and changes
nothing but the `len` bytes at `lo`; the memory it leaves holds what `held` says. -/
def State.HostWrites (s : State) (p : HostStmt) (lo len : Nat) (held : Memory → Prop) : Prop :=
  ∀ rest : List Move, ∃ u : State,
    Host.Core.run Sys2Proof.core p.expand.length { s with sched := hostMoves [p] ++ rest } = .next u ∧
    u = { s with mem := u.mem, sched := rest, rsp := none } ∧ held u.mem ∧ s.SameBytesOutside u lo len

/-- `x[n]` of R142, from the sample RAM. -/
def refNormalized (m : Memory) (n : Nat) : F64 :=
  fmul (i16ToF64 (((sampleAt m n).getD 0).toInt)) 0x3F00000000000000

/-- `y[i]` of R144 in the spec's own index arithmetic, over `int`. -/
def refFir (x k : Nat → F64) (n taps : Nat) (i : Nat) : F64 :=
  (List.range taps).foldl (fun acc (j : Nat) =>
    let idx : Int := (i : Int) + j - (taps / 2 : Nat)
    if 0 ≤ idx ∧ idx < n then fadd acc (fmul (x idx.toNat) (k j)) else acc) 0

/-- `u_f[n]` of R163 and R164 for a whole frame. -/
def refFrame (m : Memory) (fs hop f : Nat) : List F64 :=
  (List.range fs).map (fun n => fmul ((signalAt m (f * hop + n)).getD 0) ((windowAt m n).getD 0))

/-- One butterfly of R165's loop, in place on the array. -/
def inPlaceButterfly (s base j : Nat) (a : List Complex64) : List Complex64 :=
  let h := s / 2
  let w := twiddle j s
  let u := a.getD (base + j) (0, 0)
  let v := a.getD (base + j + h) (0, 0)
  let tr := fsub (fmul w.1 v.1) (fmul w.2 v.2)
  let ti := fadd (fmul w.1 v.2) (fmul w.2 v.1)
  (a.set (base + j) (fadd u.1 tr, fadd u.2 ti)).set (base + j + h) (fsub u.1 tr, fsub u.2 ti)

/-- R165's loops over `base` and `j` for one `s`. -/
def inPlaceLevel (fs s : Nat) (a : List Complex64) : List Complex64 :=
  (List.range (fs / s)).foldl (fun a blk =>
    (List.range (s / 2)).foldl (fun a j => inPlaceButterfly s (blk * s) j a) a) a

/-- R165 as written: bit-reversed input, then the loops in place for `s = 2, 4, …, FS`. -/
def inPlaceFft (b : Nat) (u : List F64) : List Complex64 :=
  (List.range b).foldl (fun a t => inPlaceLevel (2 ^ b) (2 ^ (t + 1)) a)
    ((List.range (2 ^ b)).map (fun i => (u.getD (revBits b i) 0, 0)))

/-- The hashes of one anchor (R207 without a limit): the targets with a negative dt skipped, and the scan
left at the first target past the target zone. -/
def anchorHashes (tz : Nat) (anchor : PeakKey) (targets : List PeakKey) : List Word :=
  ((targets.filter (fun t => decide (anchor.frame ≤ t.frame))).takeWhile
    (fun t => decide (t.frame - anchor.frame ≤ tz))).map
      (fun t => pack anchor.bin t.bin (t.frame - anchor.frame))

/-- The sequence R207 would make without a limit. -/
def unlimitedHashes (tz : Nat) : List PeakKey → List Word
  | [] => []
  | anchor :: rest => anchorHashes tz anchor rest ++ unlimitedHashes tz rest

/-- The number of hashes of the first `i` anchors. -/
def hashesBefore (tz : Nat) (ps : List PeakKey) (i : Nat) : Nat :=
  (unlimitedHashes tz ps).length - (unlimitedHashes tz (ps.drop i)).length

/-- The hash word of R211, R108 in arithmetic: the fields at bits 31:23, 22:14 and 13:0. -/
def refHash (a t dt : Nat) : Word :=
  BitVec.ofNat 32 (min a 0x1FF * 2 ^ 23 + min t 0x1FF * 2 ^ 14 + min dt 0x3FFF)

/-- The pairs of R210 when nothing is dropped: every later target at most `tz` frames on. -/
def allPairsHashes (tz : Nat) : List PeakKey → List Word
  | [] => []
  | anchor :: rest =>
    (rest.filter (fun t => decide (anchor.frame ≤ t.frame ∧ t.frame - anchor.frame ≤ tz))).map
      (fun t => refHash anchor.bin t.bin (t.frame - anchor.frame)) ++ allPairsHashes tz rest

/-- The record keys below NUM_PEAKS as the RAM holds them (R206). -/
def peakKeys (s : State) : List PeakKey :=
  (List.range s.len.numPeaks.toNat).map (fun p =>
    { frame := ((peakFrameAt s.mem p).getD 0).toNat, bin := ((peakBinAt s.mem p).getD 0).toNat })

/-- The row of frame `f`: `mag[k] = SPEC[f * B + k]` (R80, R192), as the RAM holds it. -/
def refRow (m : Memory) (bins f : Nat) : List F64 :=
  (List.range bins).map (fun k => (specAt m (f * bins + k)).getD 0)

/-- The records of every frame in turn, each from its row (R193). -/
def refPeaks (s : State) : List Peak :=
  (List.range s.len.numFrames.toNat).flatMap (fun f =>
    framePeaks s.cfg.numBands.toNat f (refRow s.mem s.len.numBins.toNat f))

/-- The machine with another lane count. -/
def State.withLanes (s : State) (n : Word) : State := { s with caps := { s.caps with lanes := n } }

/-- An outcome with another lane count. -/
def outcomeWithLanes (n : Word) :
    Host.Outcome State Fault Refusal → Host.Outcome State Fault Refusal
  | .next s => .next (s.withLanes n)
  | .fault r => .fault r
  | .refused r => .refused r

end Sys2Proof.Machine

open Sys2Proof Sys2Proof.Machine

/-! ### Encoding -/

/-- R102: the decoder, total on every word written to CMD. -/
def Obligations.DecodeCommandWordIff : Prop :=
  ∀ w : Word,
    (∀ i, decode .cmd w = .ok i ↔ i.reg = .cmd ∧ w = encode i) ∧
    (w.extractLsb' 8 24 ≠ 0 → decode .cmd w = .error .reservedBits) ∧
    (w.extractLsb' 8 24 = 0 → 5 < (w.extractLsb' 0 8).toNat → decode .cmd w = .error .reservedOpcode)

/-- R104, R72: what the decoder reads from bytes is what it reads from the word they hold, four bytes
exactly; decoding the bytes of an instruction gives it back. -/
def Obligations.DecodeBytesAgree : Prop :=
  (∀ r (w : Word) rest,
    decodeBytes r (byteOf w 0 :: byteOf w 1 :: byteOf w 2 :: byteOf w 3 :: rest) =
      match decode r w with
      | .ok i => .ok (i, rest)
      | .error e => .error e) ∧
  (∀ (i : Instr) rest, decodeBytes i.reg (encodeBytes i ++ rest) = .ok (i, rest)) ∧
  (∀ r (bs : List Byte), bs.length < 4 → decodeBytes r bs = .error .truncated)

/-- R101, R106: some words of the opcode map, written out. -/
def Obligations.TableWordsDecode : Prop :=
  decode .cmd 0x00000000 = .ok .nop ∧ decode .cmd 0x00000001 = .ok .run ∧
  decode .cmd 0x00000002 = .ok .filter ∧ decode .cmd 0x00000003 = .ok .spectrum ∧
  decode .cmd 0x00000004 = .ok .peaks ∧ decode .cmd 0x00000005 = .ok .hash ∧
  decode .ctrl 0xFFFFFFFF = .ok .srst ∧ decode .cmd 0x00000107 = .error .reservedBits

/-! ### Registers -/

/-- R265 and the CSR map: what hardware reset leaves in the registers, the RAMs and on `irq`. That
State.reset is the reference instance is the model's choice (log 9). -/
def Obligations.ResetLeaves : Prop :=
  (∀ c, let s := State.resetOf c
    allCsrs.map (csrValue s) =
      [0x41465031, 0, 0, 0, 0, 0, 0, 0, 11025, 0, 101, 1024, 512, 6, 20, 0, 0, 0, 0, 0, 0,
        c.samples, c.taps, c.frame, c.signal, c.spec, c.peaks, c.hashes, c.lanes] ∧
    (∀ a, memWord s.mem a = none) ∧ s.irq = false ∧ s.status.busy = false) ∧
  State.reset = State.resetOf Config.reference ∧ Config.reference.wf = true

/-- R32, R106: CTRL reads 0, and so does CMD (R35), with no access error; a CTRL word with bit 0 set is the soft reset, in any state, and any other word
does nothing; neither is ever an access error. -/
def Obligations.ControlWordResets : Prop :=
  ∀ (s : State) (w : Word),
    memRead 0x004 s = (0, s) ∧ memRead 0x00C s = (0, s) ∧
    (∀ i, decode .ctrl w = .ok i ↔ i = .srst ∧ w.getLsbD 0 = true) ∧
    memWrite 0x004 w s = (if w.getLsbD 0 then exec .srst s else .next s)

/-- R33, R236: the fields of STATUS as software reads them, and the numbers of the stages and the codes. -/
def Obligations.StatusFields : Prop :=
  ∀ s : State, let w := (memRead 0x008 s).1
    w.getLsbD 0 = s.status.busy ∧ w.getLsbD 1 = s.status.done ∧ w.getLsbD 2 = s.status.err ∧
    w.getLsbD 3 = s.status.accErr ∧ w.extractLsb' 16 8 = s.status.lastOp ∧ w.extractLsb' 24 8 = 0 ∧
    (∀ p ∈ ([(.idle, 0), (.filter, 1), (.spectrum, 2), (.peaks, 3), (.hash, 4)] :
        List (Stage × BitVec 4)), s.status.stage = p.1 ↔ w.extractLsb' 4 4 = p.2) ∧
    (∀ p ∈ ([(.none, 0x00), (.illegalCmd, 0x01), (.invalidSampleRate, 0x02), (.cfgTargetRate, 0x03),
        (.cfgFrameSize, 0x04), (.cfgHop, 0x05), (.cfgBands, 0x06), (.capSamples, 0x10), (.capTaps, 0x11),
        (.capSignal, 0x12), (.capSpec, 0x13), (.capPeaks, 0x14), (.capHashes, 0x15)] :
        List (ErrCode × BitVec 8)), s.status.errCode = p.1 ↔ w.extractLsb' 8 8 = p.2)

/-- R34: the W1C write of STATUS, in any state, never an access error, and nothing else changes. -/
def Obligations.StatusWriteClears : Prop :=
  ∀ (s : State) (v : Word), ∃ st : Status,
    memWrite 0x008 v s = .next { s with status := st } ∧
    st.done = (if v.getLsbD 1 then false else s.status.done) ∧
    st.err = (if v.getLsbD 2 then false else s.status.err) ∧
    st.accErr = (if v.getLsbD 3 then false else s.status.accErr) ∧
    st.busy = s.status.busy ∧ st.stage = s.status.stage ∧ st.errCode = s.status.errCode ∧
    st.lastOp = s.status.lastOp

/-- R36, R56: IRQ_EN is 0 after reset and writable in any state, its bits 31:3 ignored and read as 0;
`irq` is the OR of STATUS bits 3:1, each gated by its IRQ_EN bit. -/
def Obligations.InterruptLine : Prop :=
  (∀ c : Caps, (memRead 0x010 (State.resetOf c)).1 = 0) ∧
  (∀ (s : State) (v : Word), ∃ e : IrqEnable,
    memWrite 0x010 v s = .next { s with irqEn := e } ∧
    e.doneIe = v.getLsbD 0 ∧ e.errIe = v.getLsbD 1 ∧ e.accErrIe = v.getLsbD 2 ∧
    memRead 0x010 { s with irqEn := e } = (v &&& 7, { s with irqEn := e })) ∧
  (∀ s : State, s.irq = true ↔ (((memRead 0x008 s).1 >>> 1) &&& (memRead 0x010 s).1) ≠ 0)

/-- R31, R52: ID and the capability registers read their constants, refuse writes with nothing but an
access error, and no step changes a capability. The other read-only registers (ERRINFO, ACCADDR, DECIM,
NUM_HASHES: R37, R46, R51, R244) refuse writes in the same way. -/
def Obligations.ConstantRegisters : Prop :=
  (∀ (s : State) (v : Word),
    ∀ p ∈ ([(0x000, 0x41465031), (0x060, s.caps.samples), (0x064, s.caps.taps),
        (0x068, s.caps.frame), (0x06C, s.caps.signal), (0x070, s.caps.spec),
        (0x074, s.caps.peaks), (0x078, s.caps.hashes), (0x07C, s.caps.lanes), (0x014, s.errInfo),
        (0x018, 0#4 ++ s.accAddr), (0x040, s.len.decim), (0x054, s.len.numHashes)] :
        List (Offset × Word)),
      memRead p.1 s = (p.2, s) ∧
      memWrite p.1 v s =
        .next { s with status := { s.status with accErr := true }, accAddr := p.1 }) ∧
  (∀ s t : State, step s = .next t → t.caps = s.caps)

/-- R53: the reserved CSR offsets. -/
def Obligations.ReservedCsrOffsets : Prop :=
  ∀ (s : State) (v : Word) (a : Offset), a.toNat % 4 = 0 → a.toNat ≤ 0xFFC →
    (a = 0x01C ∨ a = 0x058 ∨ a = 0x05C ∨ 0x080 ≤ a.toNat) →
      memRead a s = (0, s.accError a) ∧ memWrite a v s = .next (s.accError a)

/-- Section 4 of 10_state.md and R38 to R45, R47 to R50: while idle, each configuration and length register,
at its offset, takes any value unchanged; no other offset reads differently after, and nothing else
changes. -/
def Obligations.IdleRegisterWrite : Prop :=
  ∀ (s : State) (v : Word), s.status.busy = false →
    ∀ p ∈ ([(0x020, fun t => t.cfg.sampleRate), (0x024, fun t => t.cfg.targetRate),
        (0x028, fun t => t.cfg.numSamples), (0x02C, fun t => t.cfg.numTaps),
        (0x030, fun t => t.cfg.frameSize), (0x034, fun t => t.cfg.hopSize),
        (0x038, fun t => t.cfg.numBands), (0x03C, fun t => t.cfg.targetZone),
        (0x044, fun t => t.len.sigLen), (0x048, fun t => t.len.numFrames),
        (0x04C, fun t => t.len.numBins), (0x050, fun t => t.len.numPeaks)] :
        List (Offset × (State → Word))),
      ∃ t, memWrite p.1 v s = .next t ∧ p.2 t = v ∧ memRead p.1 t = (v, t) ∧
        (∀ b, b ≠ p.1 → (memRead b t).1 = (memRead b s).1) ∧
        t = { s with cfg := t.cfg, len := t.len }

/-- R54: the busy rule; reads are always allowed; and while a command runs no step but a soft reset
changes a configuration register. -/
def Obligations.BusyRegisterRule : Prop :=
  (∀ (s : State) (v : Word), s.status.busy = true →
    ∀ a ∈ ([0x020, 0x024, 0x028, 0x02C, 0x030, 0x034, 0x038, 0x03C, 0x044, 0x048, 0x04C, 0x050] :
        List Offset), memWrite a v s = .next (s.accError a)) ∧
  (∀ (s : State) (r : Csr), memRead r.offset s = (csrValue s r, s)) ∧
  (∀ s t : State, s.status.busy = true → step s = .next t →
    t.cfg = s.cfg ∨ (t.cfg = Settings.reset ∧ t.status = Status.reset))

/-! ### Memory and the host port -/

/-- R71, R84, R85: an offset belongs to a RAM exactly when R71's row of that RAM says so, so to at most
one; an aligned offset that is no CSR and no valid entry is an access error. -/
def Obligations.AddressMap : Prop :=
  (∀ (c : Caps) (a : Nat) (r : Ram), locate c a = some r ↔
    ∃ lo hi bytes entries, (r, lo, hi, bytes, entries) ∈ regionTable c ∧
      lo ≤ a ∧ a ≤ hi ∧ (a - lo) / bytes < entries) ∧
  (∀ (s : State) (v : Word) (a : Offset), a.toNat % 4 = 0 → 0xFFF < a.toNat →
    locate s.caps a.toNat = none →
      memRead a s = (0, s.accError a) ∧ memWrite a v s = .next (s.accError a))

/-- R83, R86: a misaligned access, and any RAM access while a command runs, is refused. -/
def Obligations.RefusedAccesses : Prop :=
  ∀ (s : State) (v : Word) (a : Offset),
    a.extractLsb' 0 2 ≠ 0 ∨ (s.status.busy = true ∧ (locate s.caps a.toNat).isSome = true) →
      memRead a s = (0, s.accError a) ∧ memWrite a v s = .next (s.accError a)

/-- R84, R85, R72: an idle machine's RAM word reads back as written, byte `i` of it is bits `8i+7 : 8i`,
and every byte outside it and every register stays; in any idle state, a RAM word that is there is what a
read answers, and a read of a never-written word answers the free value of log 4 (R13, R88), and neither
changes anything. -/
def Obligations.RamReadAfterWrite : Prop :=
  (∀ (s : State) (v : Word) (a : Offset), s.status.busy = false → a.toNat % 4 = 0 →
    (locate s.caps a.toNat).isSome = true →
      ∃ t, memWrite a v s = .next t ∧ memRead a t = (v, t) ∧
        (∀ i, i < 4 → memByte t.mem (a.toNat + i) = some (v.extractLsb' (8 * i) 8)) ∧
        s.SameBytesOutside t a.toNat 4 ∧ s.SameRegisters t ∧ t.status = s.status ∧ t.len = s.len) ∧
  (∀ (s : State) (a : Offset), s.status.busy = false → a.toNat % 4 = 0 →
    (locate s.caps a.toNat).isSome = true →
      (∀ w, memWord s.mem a.toNat = some w → memRead a s = (w, s)) ∧
      (memWord s.mem a.toNat = none → memRead a s = (Config.freeWord s.epoch a.toNat, s)))

/-- R88: a host read changes nothing but ACCERR and ACCADDR, and reading twice gives the same value;
writing the same value twice to anything but CMD, CTRL and STATUS is writing it once. -/
def Obligations.AccessesIdempotent : Prop :=
  (∀ (s : State) (a : Offset), let s' := (memRead a s).2
    (s' = s ∨ s' = s.accError a) ∧ (memRead a s').1 = (memRead a s).1) ∧
  (∀ (s t : State) (v : Word) (a : Offset), Memory.wf s.mem = true →
    a ≠ 0x004 → a ≠ 0x008 → a ≠ 0x00C → memWrite a v s = .next t → memWrite a v t = .next t)

/-- R73, R74, R76 to R80, R110: WRF64 and WRS16, run as host accesses on an idle machine of an instance
that R7 allows, leave in the RAM the entry that the stages read, and change no other byte or register; the
memory law behind it; and what CMD, SRST, ACK and WAITDONE stand for. -/
def Obligations.HostEntryWrites : Prop :=
  (∀ s : State, s.caps.wf = true → s.status.busy = false →
    (∀ t x, t < s.caps.taps.toNat →
      s.HostWrites (.wrF64Kernel t x) (0x0010000 + 8 * t) 8 (fun m => kernelAt m t = some x)) ∧
    (∀ n x, n < s.caps.frame.toNat →
      s.HostWrites (.wrF64Window n x) (0x0020000 + 8 * n) 8 (fun m => windowAt m n = some x)) ∧
    (∀ i x, i < s.caps.signal.toNat →
      s.HostWrites (.wrF64Signal i x) (0x2000000 + 8 * i) 8 (fun m => signalAt m i = some x)) ∧
    (∀ e x, e < s.caps.spec.toNat →
      s.HostWrites (.wrF64Spec e x) (0x4000000 + 8 * e) 8 (fun m => specAt m e = some x)) ∧
    (∀ w a b, 2 * w < s.caps.samples.toNat →
      s.HostWrites (.wrS16 w a b) (0x1000000 + 4 * w) 4
        (fun m => sampleAt m (2 * w) = some a ∧ sampleAt m (2 * w + 1) = some b))) ∧
  (∀ (m : Memory) (a : Nat) (x : F64),
    memF64 (memPutWord (memPutWord m a (x.extractLsb' 0 32)) (a + 4) (x.extractLsb' 32 32)) a = some x) ∧
  (∀ (m : Memory) (w : Nat) (lo hi : BitVec 16),
    let m' := memPutWord m (0x1000000 + 4 * w) (hi ++ lo)
    sampleAt m' (2 * w) = some lo ∧ sampleAt m' (2 * w + 1) = some hi) ∧
  (∀ p ∈ ([(.nop, 0), (.run, 1), (.filter, 2), (.spectrum, 3), (.peaks, 4), (.hash, 5)] :
      List (Instr × Word)), (HostStmt.command p.1).expand = [.write 0x00C p.2]) ∧
  (HostStmt.command .srst).expand = [.write 0x004 1] ∧
  HostStmt.ack.expand = [.write 0x008 0x0000000E] ∧
  HostStmt.waitDone.expand = [.wait 0x008 0x00000003 0x00000002]

/-! ### Commands and the sequencer -/

/-- A step runs the decoded instruction: a word written to CMD while idle, a word written to CTRL, and
the executing command at a move of the core (R120, R106, R123, R89). Around exec: a host read is memRead,
its value the response, a host write is memWrite, WAIT reads and repeats after a move of the core until its
condition holds (R84, R85, R109, R270; log 10, log 11), and the idle core does nothing (R251, log 14). The
list of moves, exec's two phases and withFetchWord are the model's choices (log 1, log 2, log 5). -/
def Obligations.StepRunsInstruction : Prop :=
  (∀ (s : State) (w : Word) rest i, s.sched = .host (.write 0x00C w) :: rest → s.status.busy = false →
    decode .cmd w = .ok i → step s = exec i { s with sched := rest, rsp := none }) ∧
  (∀ (s : State) (w : Word) rest i, s.sched = .host (.write 0x004 w) :: rest →
    decode .ctrl w = .ok i → step s = exec i { s with sched := rest, rsp := none }) ∧
  (∀ (s : State) i, s.sched.head? = some .core ∨ s.sched = [] → s.status.busy = true →
    decode .cmd (s.status.lastOp.setWidth 32) = .ok i → i ≠ .nop →
      step s = exec i { s with sched := s.sched.tail, rsp := none }) ∧
  (∀ (s : State) (a : Offset) rest, s.sched = .host (.read a) :: rest →
    let s' := { s with sched := rest, rsp := none }
    step s = .next { (memRead a s').2 with rsp := some (memRead a s').1 }) ∧
  (∀ (s : State) (a : Offset) (v : Word) rest, s.sched = .host (.write a v) :: rest →
    step s = memWrite a v { s with sched := rest, rsp := none }) ∧
  (∀ (s : State) (a : Offset) (mask v : Word) rest, s.sched = .host (.wait a mask v) :: rest →
    let s' := { s with sched := rest, rsp := none }
    let r := (memRead a s').1
    step s = .next { (memRead a s').2 with
      rsp := some r
      sched := if r &&& mask = v then rest else .core :: .host (.wait a mask v) :: rest }) ∧
  (∀ s : State, s.sched.head? = some .core ∨ s.sched = [] → s.status.busy = false →
    step s = .next { s with sched := s.sched.tail, rsp := none }) ∧
  (∀ (s : State) (nbits w : Nat) i, decodeTableWord nbits w = some i → s.status.busy = false →
    step (s.withFetchWord nbits w) = exec i { s with rsp := none })

/-- R122: NOP completes in the issuing step. ERRINFO <- 0 is R122's own line, which R105's table does not
list (log 18); `sched` and `rsp` are the model's own (log 1, log 11). -/
def Obligations.NopCompletes : Prop :=
  ∀ s : State, s.status.busy = false → ∃ t,
    exec .nop s = .next t ∧
    t.status = { busy := false, done := true, err := false, accErr := s.status.accErr, stage := .idle,
                 errCode := .none, lastOp := 0x00 } ∧
    t.errInfo = 0 ∧ t.irqEn = s.irqEn ∧ t.accAddr = s.accAddr ∧ t.cfg = s.cfg ∧ t.len = s.len ∧
    t.caps = s.caps ∧ t.mem = s.mem ∧ t.sched = s.sched ∧ t.rsp = s.rsp ∧
    (s.irqEn.doneIe = true → t.irq = true)

/-- R121: the acceptance of a stage command, and what it leaves. -/
def Obligations.StageCommandAccepted : Prop :=
  ∀ (s : State), s.status.busy = false →
    ∀ p ∈ ([(.run, .filter), (.filter, .filter), (.spectrum, .spectrum), (.peaks, .peaks),
        (.hash, .hash)] : List (Instr × Stage)),
      exec p.1 s = .next { s with
        status := { busy := true, done := false, err := false, accErr := s.status.accErr, stage := p.2,
                    errCode := .none, lastOp := p.1.opcode }
        errInfo := 0 }

/-- R103: an illegal word is refused with ILLEGAL_CMD, runs no stage and changes no RAM. -/
def Obligations.IllegalWordRefused : Prop :=
  ∀ (s : State) (w : Word), s.status.busy = false →
    (w.extractLsb' 8 24 ≠ 0 ∨ 0x06 ≤ (w.extractLsb' 0 8).toNat) →
      memWrite 0x00C w s = .next { s with
        status := { busy := false, done := true, err := true, accErr := s.status.accErr, stage := .idle,
                    errCode := .illegalCmd, lastOp := w.extractLsb' 0 8 }
        errInfo := w }

/-- R130: a CMD write while a command runs is dropped with an access error, whatever the word. -/
def Obligations.BusyCommandDropped : Prop :=
  ∀ (s : State) (w : Word), s.status.busy = true →
    memWrite 0x00C w s = .next { s with status := { s.status with accErr := true }, accAddr := 0x00C }

/-- R131: the soft reset, in any state; the aborted stage's output RAM by R131's four pairs. That the
schedule and the response stay is the model's choice (log 1, log 11). -/
def Obligations.SoftResetLeaves : Prop :=
  ∀ s : State, ∃ t, exec .srst s = .next t ∧
    (∀ r, csrValue t r = csrValue (State.resetOf s.caps) r) ∧
    t.status = Status.reset ∧ t.irq = false ∧ t.sched = s.sched ∧ t.rsp = s.rsp ∧
    (∀ a, s.Aborts a → memByte t.mem a = none) ∧ (∀ a, ¬s.Aborts a → memByte t.mem a = memByte s.mem a)

/-- R124: a stage inside RUN and the same stage alone do the same to RAMs, lengths and errors. -/
def Obligations.RunStageEqualsSingle : Prop :=
  ∀ (s : State) (t : State),
    ∀ p ∈ ([(.filter, .filter), (.spectrum, .spectrum), (.peaks, .peaks), (.hash, .hash)] :
        List (Instr × Stage)),
      s.Executing p.1 p.2 →
        let r := { s with status := { s.status with lastOp := Instr.opcode .run } }
        (exec p.1 s = .next t → ∃ u, exec .run r = .next u ∧ u.mem = t.mem ∧ u.len = t.len ∧
          u.errInfo = t.errInfo ∧ u.status.err = t.status.err ∧ u.status.errCode = t.status.errCode) ∧
        (∀ f, exec p.1 s = .fault f ↔ exec .run r = .fault f)

/-- R123, R127, R132: RUN, from its acceptance, runs its four stages in order, each reading what the one
before it wrote, and completes in four core steps. With no host move the core moves (log 1). -/
def Obligations.RunCompletesInFourSteps : Prop :=
  ∀ s a b c d : State, s.Executing .run .filter → s.sched = [] → s.rsp = none →
    filterStage s.newEpoch = .done a →
    spectrumStage (a.enterStage .spectrum).newEpoch = .done b →
    peaksStage (b.enterStage .peaks).newEpoch = .done c →
    hashStage (c.enterStage .hash).newEpoch = .done d →
      ∃ t, Host.Core.run Sys2Proof.core 4 s = .next t ∧
        t.status = { s.status with busy := false, done := true, stage := .hash } ∧
        t.mem = d.mem ∧ t.len = d.len ∧ t.errInfo = s.errInfo ∧ t.cfg = s.cfg ∧ t.irqEn = s.irqEn

/-- R126: every command ends. With no host move in between, an executing command completes or meets a
never-written word within four core steps. With no host move the core moves (log 1). -/
def Obligations.CommandsEnd : Prop :=
  ∀ s : State, s.SequencerOk → s.status.busy = true → s.sched = [] →
    ∃ k, 1 ≤ k ∧ k ≤ 4 ∧
      ((∃ t, Host.Core.run Sys2Proof.core k s = .next t ∧ t.status.busy = false ∧ t.status.done = true) ∨
        Host.Core.run Sys2Proof.core k s = .fault .unwrittenWord)

/-- R239: every error but CAP_HASHES leaves every RAM and every length register as it was; CAP_HASHES
leaves all but the hash RAM and NUM_HASHES. -/
def Obligations.ErrorsArePrecise : Prop :=
  ∀ (s t : State) (i : Instr), s.SequencerOk → s.status.busy = true → exec i s = .next t →
    t.status.err = true →
      (t.status.errCode ≠ .capHashes → t.mem = s.mem ∧ t.len = s.len) ∧
      (t.status.errCode = .capHashes →
        t.len = { s.len with numHashes := s.caps.hashes } ∧
        s.SameBytesOutside t Ram.hash.base (4 * s.caps.hashes.toNat))

/-- R76 to R78, R242, R276: a move of the core changes no configuration register, no interrupt enable,
no access-error record, and no byte of the CSR window, kernel, window or sample RAM. -/
def Obligations.CoreLeavesHostState : Prop :=
  ∀ s t : State, coreMove s = .next t →
    t.cfg = s.cfg ∧ t.caps = s.caps ∧ t.irqEn = s.irqEn ∧ t.accAddr = s.accAddr ∧
      t.status.accErr = s.status.accErr ∧ t.status.lastOp = s.status.lastOp ∧ t.sched = s.sched ∧
      t.rsp = s.rsp ∧ ∀ a, a < Ram.signal.base → memByte t.mem a = memByte s.mem a

/-! ### FILTER -/

/-- R140: the checks of FILTER, in order, in FILTER and in RUN. `newEpoch` moves only the model's own
counter (log 4). -/
def Obligations.FilterChecksInOrder : Prop :=
  ∀ s : State, ∀ i ∈ [Instr.filter, Instr.run], s.Executing i .filter →
    let n := s.cfg.numSamples.toNat
    let d := s.cfg.sampleRate.toNat / s.cfg.targetRate.toNat
    let l := (n + d - 1) / d
    let fails := fun code info => exec i s = .next (s.newEpoch.errorCompletion code info)
    (s.cfg.sampleRate.toNat < s.cfg.targetRate.toNat → fails .invalidSampleRate s.cfg.sampleRate) ∧
    (s.cfg.targetRate.toNat ≤ s.cfg.sampleRate.toNat →
      (s.cfg.targetRate = 0 → fails .cfgTargetRate 0) ∧
      (s.cfg.targetRate ≠ 0 →
        (s.caps.samples.toNat < n → fails .capSamples s.cfg.numSamples) ∧
        (n ≤ s.caps.samples.toNat →
          (s.caps.taps.toNat < s.cfg.numTaps.toNat → fails .capTaps s.cfg.numTaps) ∧
          (s.cfg.numTaps.toNat ≤ s.caps.taps.toNat →
            s.caps.signal.toNat < l → fails .capSignal (BitVec.ofNat 32 l)))))

/-- R144, R145, R146: FILTER, and the first stage of RUN, complete with SIGNAL, SIG_LEN and DECIM as the
formulas give them, and change nothing else. -/
def Obligations.FilterResult : Prop :=
  ∀ s : State, ∀ i ∈ [Instr.filter, Instr.run], s.Executing i .filter →
    let n := s.cfg.numSamples.toNat
    let k := s.cfg.numTaps.toNat
    let d := s.cfg.sampleRate.toNat / s.cfg.targetRate.toNat
    let l := (n + d - 1) / d
    s.cfg.targetRate.toNat ≤ s.cfg.sampleRate.toNat → s.cfg.targetRate ≠ 0 →
    n ≤ s.caps.samples.toNat → k ≤ s.caps.taps.toNat → l ≤ s.caps.signal.toNat →
    (∀ j, j < n → (sampleAt s.mem j).isSome = true) →
    (0 < n → ∀ j, j < k → (kernelAt s.mem j).isSome = true) →
      ∃ t, exec i s = .next t ∧
        t.status = s.status.afterStage i (some .spectrum) ∧
        t.len = { s.len with sigLen := BitVec.ofNat 32 l, decim := BitVec.ofNat 32 d } ∧
        (∀ m, m < l → signalAt t.mem m = some
          (refFir (refNormalized s.mem) (fun j => (kernelAt s.mem j).getD 0) n k (m * d))) ∧
        s.SameBytesOutside t Ram.signal.base (8 * l) ∧ s.SameRegisters t

/-- R142: normalisation is exact, and its range. -/
def Obligations.NormalizeExact : Prop :=
  ∀ h : BitVec 16, ∃ u, finiteUnits (normalizeSample h) = some u ∧ u = sext16 h * 2 ^ 1059 ∧
    -(2 ^ 1074) ≤ u ∧ u ≤ 32767 * 2 ^ 1059 ∧ normalizeSample 0x7FFF = 0x3FEFFFC000000000

/-- R149 (V-F2): the kernel [0.0, 1.0, 0.0] with D = 1 is the identity on any samples. -/
def Obligations.IdentityKernel : Prop :=
  ∀ samples : List (BitVec 16),
    decimated (samples.map normalizeSample) [0, 0x3FF0000000000000, 0] 1 samples.length = samples.map normalizeSample

/-- R149, R171: no filter output is -0.0, and no magnitude is negative or -0.0, whatever the inputs.
The sign of a zero sum and of a zero product is IEEE 754's, which the spec names only (log 8). -/
def Obligations.NoNegativeZero : Prop :=
  (∀ (x k : List F64) (i : Nat), firOutput x k i ≠ 0x8000000000000000) ∧
  (∀ z : Complex64, (magnitude z).getLsbD 63 = false)

/-! ### SPECTRUM -/

/-- R160: the checks of SPECTRUM, in order, in SPECTRUM and in RUN. -/
def Obligations.SpectrumChecksInOrder : Prop :=
  ∀ s : State, ∀ i ∈ [Instr.spectrum, Instr.run], s.Executing i .spectrum →
    let fs := s.cfg.frameSize.toNat
    let b := fs / 2 + 1
    let f := frameCount s.len.sigLen.toNat fs s.cfg.hopSize.toNat
    let fails := fun code info => exec i s = .next (s.newEpoch.errorCompletion code info)
    let sizeOk := (∃ e, fs = 2 ^ e) ∧ 2 ≤ fs ∧ fs ≤ s.caps.frame.toNat
    (¬sizeOk → fails .cfgFrameSize s.cfg.frameSize) ∧
    (sizeOk →
      (s.cfg.hopSize = 0 → fails .cfgHop 0) ∧
      (s.cfg.hopSize ≠ 0 →
        (s.caps.signal.toNat < s.len.sigLen.toNat → fails .capSignal s.len.sigLen) ∧
        (s.len.sigLen.toNat ≤ s.caps.signal.toNat →
          s.caps.spec.toNat < f * b → fails .capSpec (BitVec.ofNat 32 (min (f * b) 0xFFFFFFFF)))))

/-- R161: the source's loop condition: frame `f`, which starts at `f * hop`, is emitted exactly when it
fits; and the closed form. -/
def Obligations.FrameEmittedIffFits : Prop :=
  ∀ s fs hop f : Nat, 0 < hop →
    (f < frameCount s fs hop ↔ f * hop + fs ≤ s) ∧
    frameCount s fs hop = (if s < fs then 0 else (s - fs) / hop + 1)

/-- R162 to R164, R168, R169: SPECTRUM, and the second stage of RUN, complete with every bin of every
frame, NUM_FRAMES and NUM_BINS, and change nothing else. -/
def Obligations.SpectrumResult : Prop :=
  ∀ (s : State) (e : Nat), ∀ i ∈ [Instr.spectrum, Instr.run], s.Executing i .spectrum →
    let fs := s.cfg.frameSize.toNat
    let hop := s.cfg.hopSize.toNat
    let b := fs / 2 + 1
    let f := frameCount s.len.sigLen.toNat fs hop
    fs = 2 ^ e → 1 ≤ e → fs ≤ s.caps.frame.toNat → 0 < hop →
    s.len.sigLen.toNat ≤ s.caps.signal.toNat → f * b ≤ s.caps.spec.toNat →
    (∀ g, g < f → ∀ n, n < fs → (signalAt s.mem (g * hop + n)).isSome = true) →
    (0 < f → ∀ n, n < fs → (windowAt s.mem n).isSome = true) →
      ∃ t, exec i s = .next t ∧
        t.status = s.status.afterStage i (some .peaks) ∧
        t.len = { s.len with numFrames := BitVec.ofNat 32 f, numBins := BitVec.ofNat 32 b } ∧
        (∀ g, g < f → ∀ k, k < b → ∃ z, (fft e (refFrame s.mem fs hop g))[k]? = some z ∧
          specAt t.mem (g * b + k) = some (fsqrt (fadd (fmul z.1 z.1) (fmul z.2 z.2)))) ∧
        s.SameBytesOutside t Ram.spec.base (8 * (f * b)) ∧ s.SameRegisters t

/-- R165: the model's FFT is the spec's loop, in place on one array. -/
def Obligations.FftIsTheInPlaceLoop : Prop :=
  ∀ (b : Nat) (u : List F64), fft b u = inPlaceFft b u

/-- R165: `rev_b` reverses the `b` low bits. -/
def Obligations.RevBitsReverses : Prop :=
  ∀ b i j : Nat, (revBits b i).testBit j = (decide (j < b) && i.testBit (b - 1 - j))

/-- R167: the table of twiddles for s <= 8; and a twiddle depends only on the rational number `j/s`, so
one ROM serves every frame size. For the values at s = 16 to 8192 see TwiddleIsNearest. -/
def Obligations.TwiddleTable : Prop :=
  twiddle 0 2 = (0x3FF0000000000000, 0) ∧ twiddle 0 4 = (0x3FF0000000000000, 0) ∧
  twiddle 1 4 = (0, 0xBFF0000000000000) ∧ twiddle 0 8 = (0x3FF0000000000000, 0) ∧
  twiddle 1 8 = (0x3FE6A09E667F3BCD, 0xBFE6A09E667F3BCD) ∧ twiddle 2 8 = (0, 0xBFF0000000000000) ∧
  twiddle 3 8 = (0xBFE6A09E667F3BCD, 0xBFE6A09E667F3BCD) ∧
  (∀ j s c : Nat, 0 < c → twiddle (j * c) (s * c) = twiddle j s)

/-- R167: for every frame size that R7 allows, a twiddle is the pair of binary64 values nearest to the real
cosine and to the negated real sine, an exact zero being +0.0. The factors are computed, and this is what
log 7 takes to be true of them. -/
def Obligations.TwiddleIsNearest : Prop :=
  ∀ e j : Nat, 1 ≤ e → e ≤ 13 → j < 2 ^ e / 2 →
    NearestToReal (Real.cos (2 * Real.pi * j / 2 ^ e)) (twiddle j (2 ^ e)).1 ∧
    NearestToReal (-Real.sin (2 * Real.pi * j / 2 ^ e)) (twiddle j (2 ^ e)).2

/-- R170, R7: no instruction's result depends on NUM_LANES. -/
def Obligations.LanesDoNotMatter : Prop :=
  ∀ (i : Instr) (s : State) (n : Word), exec i (s.withLanes n) = outcomeWithLanes n (exec i s)

/-! ### PEAKS -/

/-- R190: the checks of PEAKS, in order, in PEAKS and in RUN. -/
def Obligations.PeaksChecksInOrder : Prop :=
  ∀ s : State, ∀ i ∈ [Instr.peaks, Instr.run], s.Executing i .peaks →
    let nb := s.cfg.numBands.toNat
    let f := s.len.numFrames.toNat
    let b := s.len.numBins.toNat
    let p := f * (if 1 ≤ b / nb then nb else if 1 ≤ b then 1 else 0)
    let fails := fun code info => exec i s = .next (s.newEpoch.errorCompletion code info)
    (nb = 0 → fails .cfgBands 0) ∧
    (nb ≠ 0 →
      (s.caps.spec.toNat < f * b → fails .capSpec (BitVec.ofNat 32 (min (f * b) 0xFFFFFFFF))) ∧
      (f * b ≤ s.caps.spec.toNat →
        s.caps.peaks.toNat < p → fails .capPeaks (BitVec.ofNat 32 (min p 0xFFFFFFFF))))

/-- R193: PEAKS, and the third stage of RUN, complete with the records in order and NUM_PEAKS, and change
nothing else. The row of frame `f` is `SPEC[f * B + k]` (R80, R192), and a record's magnitude is the entry
of its frame and bin. -/
def Obligations.PeaksResult : Prop :=
  ∀ s : State, ∀ i ∈ [Instr.peaks, Instr.run], s.Executing i .peaks →
    s.cfg.numBands ≠ 0 → peakEntries s ≤ s.caps.spec.toNat → peakCount s ≤ s.caps.peaks.toNat →
    (∀ e, e < peakEntries s → (specAt s.mem e).isSome = true) →
      let ps := refPeaks s
      ps.length = peakCount s ∧
      (∀ r ∈ ps, r.frame < s.len.numFrames.toNat ∧ r.bin < s.len.numBins.toNat ∧
        specAt s.mem (r.frame * s.len.numBins.toNat + r.bin) = some r.mag) ∧
      ∃ t, exec i s = .next t ∧
        t.status = s.status.afterStage i (some .hash) ∧
        t.len = { s.len with numPeaks := BitVec.ofNat 32 (peakCount s) } ∧
        (∀ p r, ps[p]? = some r →
          peakFrameAt t.mem p = some (BitVec.ofNat 32 r.frame) ∧
          peakBinAt t.mem p = some (BitVec.ofNat 32 r.bin) ∧ peakMagAt t.mem p = some r.mag) ∧
        s.SameBytesOutside t Ram.peak.base (16 * peakCount s) ∧ s.SameRegisters t

/-- R191, R192: the strongest bin of a band lies in it, no bin of the band beats it, it beats every
earlier bin of the band that is a number, and it is the first bin if that bin is a NaN; a frame's records
are exactly those of its non-empty bands. -/
def Obligations.StrongestBin : Prop :=
  (∀ (nb f : Nat) (mag : List F64) (p : Peak),
    let bs := mag.length / nb
    let hi := fun b => if b + 1 < nb then (b + 1) * bs else mag.length
    p ∈ framePeaks nb f mag ↔ ∃ b, b < nb ∧ b * bs < hi b ∧ p.frame = f ∧
      p.bin = strongest mag (b * bs) (hi b) ∧ mag[p.bin]? = some p.mag) ∧
  ∀ (mag : List F64) (lo hi : Nat), lo < hi →
    let best := strongest mag lo hi
    lo ≤ best ∧ best < hi ∧
    (∀ k, lo ≤ k → k < hi → fgt (mag.getD k 0) (mag.getD best 0) = false) ∧
    (∀ k, lo ≤ k → k < best →
      fgt (mag.getD best 0) (mag.getD k 0) = true ∨ unpack (mag.getD k 0) = .nan) ∧
    (unpack (mag.getD lo 0) = .nan → best = lo)

/-- R191, R193, R194: each frame gives `ppf` records, its own frame index in each, bins strictly rising
and below B, magnitudes copied bit for bit; over all frames, frame indices never decrease and bins
strictly increase within a frame. -/
def Obligations.PeaksScanOrder : Prop :=
  (∀ (nb f : Nat) (mag : List F64), 0 < nb →
    let ps := framePeaks nb f mag
    ps.length = (if 1 ≤ mag.length / nb then nb else if 1 ≤ mag.length then 1 else 0) ∧
    (∀ p ∈ ps, p.frame = f ∧ p.bin < mag.length ∧ mag[p.bin]? = some p.mag)) ∧
  (∀ (frames bins nb : Nat) (entries : List F64),
    (allPeaks frames bins nb entries).Pairwise
      (fun p q => p.frame ≤ q.frame ∧ (p.frame = q.frame → p.bin < q.bin)))

/-! ### HASH -/

/-- R207, R208: HASH, and the last stage of RUN, complete with the hashes of the pair scan and
NUM_HASHES when they fit, and change nothing else. -/
def Obligations.HashResult : Prop :=
  ∀ s : State, ∀ i ∈ [Instr.hash, Instr.run], s.Executing i .hash →
    s.len.numPeaks.toNat ≤ s.caps.peaks.toNat →
    (∀ p, p < s.len.numPeaks.toNat →
      (peakFrameAt s.mem p).isSome = true ∧ (peakBinAt s.mem p).isSome = true) →
    let hs := unlimitedHashes s.cfg.targetZone.toNat (peakKeys s)
    hs.length ≤ s.caps.hashes.toNat →
      ∃ t, exec i s = .next t ∧
        t.status = s.status.afterStage i none ∧
        t.len = { s.len with numHashes := BitVec.ofNat 32 hs.length } ∧
        (∀ h, h < hs.length → hashAt t.mem h = hs[h]?) ∧
        s.SameBytesOutside t Ram.hash.base (4 * hs.length) ∧ s.SameRegisters t

/-- R205, R209: the check of HASH; and the hash RAM overflow, which keeps the first HASH_CAP hashes and
reports the anchor. -/
def Obligations.HashErrors : Prop :=
  ∀ s : State, ∀ i ∈ [Instr.hash, Instr.run], s.Executing i .hash →
    (s.caps.peaks.toNat < s.len.numPeaks.toNat →
      exec i s = .next (s.newEpoch.errorCompletion .capPeaks s.len.numPeaks)) ∧
    (s.len.numPeaks.toNat ≤ s.caps.peaks.toNat →
    (∀ p, p < s.len.numPeaks.toNat →
      (peakFrameAt s.mem p).isSome = true ∧ (peakBinAt s.mem p).isSome = true) →
    let tz := s.cfg.targetZone.toNat
    let cap := s.caps.hashes.toNat
    let hs := unlimitedHashes tz (peakKeys s)
    cap < hs.length →
      ∃ t anchor, exec i s = .next t ∧ anchor < s.len.numPeaks.toNat ∧
        hashesBefore tz (peakKeys s) anchor ≤ cap ∧ cap < hashesBefore tz (peakKeys s) (anchor + 1) ∧
        t.errInfo = BitVec.ofNat 32 anchor ∧
        t.status = { s.status with busy := false, done := true, err := true, errCode := .capHashes } ∧
        t.len = { s.len with numHashes := s.caps.hashes } ∧
        (∀ h, h < cap → hashAt t.mem h = hs[h]?) ∧
        s.SameBytesOutside t Ram.hash.base (4 * cap) ∧
        t.irqEn = s.irqEn ∧ t.accAddr = s.accAddr ∧ t.cfg = s.cfg ∧ t.caps = s.caps)

/-- R211, R108: the three fields of a hash, each clipped, none overlapping another. -/
def Obligations.PackFields : Prop :=
  ∀ a t dt : Nat,
    ((pack a t dt).extractLsb' 23 9).toNat = min a 0x1FF ∧
    ((pack a t dt).extractLsb' 14 9).toNat = min t 0x1FF ∧
    ((pack a t dt).extractLsb' 0 14).toNat = min dt 0x3FFF

/-- R210: for peaks whose frame indices never decrease the scan's break drops nothing: the scan gives the
hashes of all pairs, or the first `cap` of them and an overflow. -/
def Obligations.SortedPeaksLoseNoPair : Prop :=
  ∀ (tz cap : Nat) (ps : List PeakKey), ps.Pairwise (fun p q => p.frame ≤ q.frame) →
    let hs := allPairsHashes tz ps
    (hs.length ≤ cap → hashScan tz cap ps = (none, hs)) ∧
    (cap < hs.length → (hashScan tz cap ps).1.isSome = true ∧ (hashScan tz cap ps).2 = hs.take cap)

/-- R75: HASH does not depend on the magnitude words of the records. -/
def Obligations.HashIgnoresMagnitudes : Prop :=
  ∀ (s : State) (m' : Memory), s.Executing .hash .hash →
    (∀ a, memByte m' a = memByte s.mem a ∨
      (Ram.peak.base ≤ a ∧ a < Ram.peak.base + Ram.peak.size ∧ 8 ≤ (a - Ram.peak.base) % 16)) →
    ∀ t, exec .hash s = .next t → ∃ t', exec .hash { s with mem := m' } = .next t' ∧
      t'.status = t.status ∧ t'.len = t.len ∧ t'.errInfo = t.errInfo ∧
      ∀ h, h < t.len.numHashes.toNat → hashAt t'.mem h = hashAt t.mem h

/-- R13, R252: a stage that needs a never-written word faults, and does nothing else. That it faults with
no next state, and which taps FILTER reads, is the model's reading (log 3, log 6). -/
def Obligations.UnwrittenWordFaults : Prop :=
  ∀ s : State,
    (s.Executing .filter .filter → filterChecks s = none →
      (∃ n, n < s.cfg.numSamples.toNat ∧ sampleAt s.mem n = none) →
        exec .filter s = .fault .unwrittenWord) ∧
    (s.Executing .filter .filter → filterChecks s = none → s.cfg.numSamples ≠ 0 →
      (∃ j, j < s.cfg.numTaps.toNat ∧ kernelAt s.mem j = none) →
        exec .filter s = .fault .unwrittenWord) ∧
    (s.Executing .spectrum .spectrum → spectrumChecks s = none → 0 < spectrumFrames s →
      (∃ n, n < s.cfg.frameSize.toNat ∧ windowAt s.mem n = none) →
        exec .spectrum s = .fault .unwrittenWord) ∧
    (s.Executing .spectrum .spectrum → spectrumChecks s = none →
      (∃ g n, g < spectrumFrames s ∧ n < s.cfg.frameSize.toNat ∧
        signalAt s.mem (g * s.cfg.hopSize.toNat + n) = none) →
        exec .spectrum s = .fault .unwrittenWord) ∧
    (s.Executing .peaks .peaks → peaksChecks s = none →
      (∃ e, e < peakEntries s ∧ specAt s.mem e = none) → exec .peaks s = .fault .unwrittenWord) ∧
    (s.Executing .hash .hash → hashChecks s = none →
      (∃ p, p < s.len.numPeaks.toNat ∧ (peakFrameAt s.mem p = none ∨ peakBinAt s.mem p = none)) →
        exec .hash s = .fault .unwrittenWord)

/-! ### Binary64 -/

/-- R10, R11: an operation whose result is a NaN returns the canonical one, and a NaN operand makes every
operation do so; `fgt` is the ordered comparison: false with a NaN, by value on finite numbers (so neither
zero beats the other), +inf above and -inf below every other value, and no infinity above itself. What a sum,
difference or product with an infinity is, and the sign of one that is exactly zero, are IEEE 754's rules,
which the spec names only (log 8); R168 and R171 rest on them. -/
def Obligations.NanIsCanonical : Prop :=
  (∀ a b : F64,
    (unpack (fadd a b) = .nan → fadd a b = 0x7FF8000000000000) ∧
    (unpack (fsub a b) = .nan → fsub a b = 0x7FF8000000000000) ∧
    (unpack (fmul a b) = .nan → fmul a b = 0x7FF8000000000000) ∧
    (unpack (fsqrt a) = .nan → fsqrt a = 0x7FF8000000000000) ∧
    (unpack a = .nan → fadd a b = 0x7FF8000000000000 ∧ fadd b a = 0x7FF8000000000000 ∧
      fsub a b = 0x7FF8000000000000 ∧ fsub b a = 0x7FF8000000000000 ∧
      fmul a b = 0x7FF8000000000000 ∧ fmul b a = 0x7FF8000000000000 ∧ fsqrt a = 0x7FF8000000000000 ∧
      fgt a b = false ∧ fgt b a = false)) ∧
  (∀ (a b : F64) (u v : Int), finiteUnits a = some u → finiteUnits b = some v →
    (fgt a b = true ↔ v < u)) ∧
  (∀ a : F64, unpack a ≠ .nan →
    (fgt 0x7FF0000000000000 a = true ↔ a ≠ 0x7FF0000000000000) ∧
    (fgt a 0xFFF0000000000000 = true ↔ a ≠ 0xFFF0000000000000) ∧
    fgt a 0x7FF0000000000000 = false ∧ fgt 0xFFF0000000000000 a = false) ∧
  (infinity false = 0x7FF0000000000000 ∧ infinity true = 0xFFF0000000000000) ∧
  (∀ (s : Bool) (b : F64) (v : Int), finiteUnits b = some v →
    fadd (infinity s) b = infinity s ∧ fadd b (infinity s) = infinity s ∧
    fsub (infinity s) b = infinity s ∧ fsub b (infinity s) = infinity (!s) ∧
    (v ≠ 0 → fmul (infinity s) b = infinity (s ^^ b.getLsbD 63) ∧
      fmul b (infinity s) = infinity (s ^^ b.getLsbD 63)) ∧
    (v = 0 → fmul (infinity s) b = 0x7FF8000000000000 ∧ fmul b (infinity s) = 0x7FF8000000000000)) ∧
  (∀ s t : Bool,
    fadd (infinity s) (infinity t) = (if s = t then infinity s else 0x7FF8000000000000) ∧
    fsub (infinity s) (infinity t) = (if s = t then 0x7FF8000000000000 else infinity s) ∧
    fmul (infinity s) (infinity t) = infinity (s ^^ t)) ∧
  (∀ (a b : F64) (u v : Int), finiteUnits a = some u → finiteUnits b = some v →
    (u + v = 0 → fadd a b = if a.getLsbD 63 && b.getLsbD 63 then 0x8000000000000000 else 0) ∧
    (u - v = 0 → fsub a b = if a.getLsbD 63 && !b.getLsbD 63 then 0x8000000000000000 else 0) ∧
    (u * v = 0 → fmul a b = if a.getLsbD 63 ^^ b.getLsbD 63 then 0x8000000000000000 else 0))

/-- R10: rounding gives a nearest binary64 value, of either sign and at every scale; a sum, difference or
product of finite values is the exact one so rounded; `i16_to_f64` is exact. That the result is the infinity
of the number's sign from the midpoint above the largest finite value on, and that a number that is not 0
keeps its sign when it rounds to a zero, are IEEE 754's rules, which the spec names only (R11, log 8). -/
def Obligations.RoundingIsNearest : Prop :=
  (∀ (neg : Bool) (m k : Nat), NearestTo (signedMant neg m) k (roundDyadic neg m k)) ∧
  (∀ (a b : F64) (u v : Int), finiteUnits a = some u → finiteUnits b = some v →
    NearestTo (u + v) 1074 (fadd a b) ∧ NearestTo (u - v) 1074 (fsub a b) ∧
      NearestTo (u * v) 2148 (fmul a b)) ∧
  (∀ n : Int, -32768 ≤ n → n ≤ 32767 → finiteUnits (i16ToF64 n) = some (n * 2 ^ 1074))

/-- R10: a tie goes to the even significand, in rounding and in the sum, difference and product of finite
values. -/
def Obligations.TiesGoToEven : Prop :=
  (∀ (neg : Bool) (m k : Nat), EvenOnTie (signedMant neg m) k (roundDyadic neg m k)) ∧
  (∀ (a b : F64) (u v : Int), finiteUnits a = some u → finiteUnits b = some v →
    EvenOnTie (u + v) 1074 (fadd a b) ∧ EvenOnTie (u - v) 1074 (fsub a b) ∧
      EvenOnTie (u * v) 2148 (fmul a b))

/-- R10: the square root of a positive finite value is a finite positive value nearest to the real root. In
units of 2^-1074 the root of `n` units is `sqrt (n * 2^1074)` units. A zero is its own root, the root of
+inf is +inf, and that of any other negative value is the NaN (IEEE 754's rules, log 8). -/
def Obligations.SquareRootIsNearest : Prop :=
  (∀ (x : F64) (n : Int), finiteUnits x = some n → 0 < n →
    (fsqrt x).getLsbD 63 = false ∧
    ∃ u, finiteUnits (fsqrt x) = some u ∧ ∀ z v, finiteUnits z = some v →
      |Real.sqrt (n * 2 ^ 1074) - u| ≤ |Real.sqrt (n * 2 ^ 1074) - v|) ∧
  (∀ x : F64, finiteUnits x = some 0 → fsqrt x = x) ∧
  (∀ (x : F64) (n : Int), finiteUnits x = some n → n < 0 → fsqrt x = 0x7FF8000000000000) ∧
  fsqrt 0x7FF0000000000000 = 0x7FF0000000000000 ∧ fsqrt 0xFFF0000000000000 = 0x7FF8000000000000

/-! ### Invariants -/

/-- The reset state of an instance that R7 allows meets the invariant. -/
def Obligations.ResetMeetsInvariant : Prop :=
  State.reset.Inv ∧ ∀ c : Caps, c.wf = true → (State.resetOf c).Inv

/-- Every step keeps the memory's canonical form, from every state. -/
def Obligations.StepKeepsCanonicalMemory : Prop :=
  ∀ s t : State, Memory.wf s.mem = true → step s = .next t → Memory.wf t.mem = true

/-- R33: every step keeps the sequencer consistent: BUSY = 1 implies DONE = 0, ERR = 0, ERRCODE = 0, and
STAGE a stage of the command in LASTOP. -/
def Obligations.StepKeepsSequencer : Prop :=
  ∀ s t : State, s.SequencerOk → step s = .next t → t.SequencerOk

/-- Every step keeps the whole invariant: the instance, the canonical memory, whole words in valid RAM
entries only, the sequencer, the error record and the bound of NUM_HASHES. -/
def Obligations.StepKeepsInvariant : Prop :=
  ∀ s t : State, s.Inv → step s = .next t → t.Inv

/-- From a consistent state, a step is a next state that is consistent again, or the one fault of R13 while
a command executes: it is never refused and never finds the sequencer without a stage (log 3, log 12). -/
def Obligations.StepAnswers : Prop :=
  ∀ s : State, s.SequencerOk → (∃ t, step s = .next t ∧ t.SequencerOk) ∨
    (step s = .fault .unwrittenWord ∧ s.status.busy = true)
end

