-- ==== Sys2Proof/Laws/State.lean ====
section
/-! SUPPORT. What each update of the state leaves in each field: one lemma per field per update, true by
unfolding, so that no proof unfolds a record update. -/

namespace Sys2Proof.Machine

variable (s : State)

@[simp] theorem State.accError_status (a : Offset) : (s.accError a).status = { s.status with accErr := true } := rfl
@[simp] theorem State.accError_irqEn (a : Offset) : (s.accError a).irqEn = s.irqEn := rfl
@[simp] theorem State.accError_errInfo (a : Offset) : (s.accError a).errInfo = s.errInfo := rfl
@[simp] theorem State.accError_accAddr (a : Offset) : (s.accError a).accAddr = a := rfl
@[simp] theorem State.accError_cfg (a : Offset) : (s.accError a).cfg = s.cfg := rfl
@[simp] theorem State.accError_len (a : Offset) : (s.accError a).len = s.len := rfl
@[simp] theorem State.accError_caps (a : Offset) : (s.accError a).caps = s.caps := rfl
@[simp] theorem State.accError_mem (a : Offset) : (s.accError a).mem = s.mem := rfl
@[simp] theorem State.accError_sched (a : Offset) : (s.accError a).sched = s.sched := rfl
@[simp] theorem State.accError_rsp (a : Offset) : (s.accError a).rsp = s.rsp := rfl
@[simp] theorem State.accError_epoch (a : Offset) : (s.accError a).epoch = s.epoch := rfl

@[simp] theorem State.errorCompletion_status (code : ErrCode) (info : Word) : (s.errorCompletion code info).status = { s.status with errCode := code, err := true, done := true, busy := false } := rfl
@[simp] theorem State.errorCompletion_irqEn (code : ErrCode) (info : Word) : (s.errorCompletion code info).irqEn = s.irqEn := rfl
@[simp] theorem State.errorCompletion_errInfo (code : ErrCode) (info : Word) : (s.errorCompletion code info).errInfo = info := rfl
@[simp] theorem State.errorCompletion_accAddr (code : ErrCode) (info : Word) : (s.errorCompletion code info).accAddr = s.accAddr := rfl
@[simp] theorem State.errorCompletion_cfg (code : ErrCode) (info : Word) : (s.errorCompletion code info).cfg = s.cfg := rfl
@[simp] theorem State.errorCompletion_len (code : ErrCode) (info : Word) : (s.errorCompletion code info).len = s.len := rfl
@[simp] theorem State.errorCompletion_caps (code : ErrCode) (info : Word) : (s.errorCompletion code info).caps = s.caps := rfl
@[simp] theorem State.errorCompletion_mem (code : ErrCode) (info : Word) : (s.errorCompletion code info).mem = s.mem := rfl
@[simp] theorem State.errorCompletion_sched (code : ErrCode) (info : Word) : (s.errorCompletion code info).sched = s.sched := rfl
@[simp] theorem State.errorCompletion_rsp (code : ErrCode) (info : Word) : (s.errorCompletion code info).rsp = s.rsp := rfl
@[simp] theorem State.errorCompletion_epoch (code : ErrCode) (info : Word) : (s.errorCompletion code info).epoch = s.epoch := rfl

@[simp] theorem State.acknowledge_status (v : Word) : (s.acknowledge v).status = s.status.clear v := rfl
@[simp] theorem State.acknowledge_irqEn (v : Word) : (s.acknowledge v).irqEn = s.irqEn := rfl
@[simp] theorem State.acknowledge_errInfo (v : Word) : (s.acknowledge v).errInfo = s.errInfo := rfl
@[simp] theorem State.acknowledge_accAddr (v : Word) : (s.acknowledge v).accAddr = s.accAddr := rfl
@[simp] theorem State.acknowledge_cfg (v : Word) : (s.acknowledge v).cfg = s.cfg := rfl
@[simp] theorem State.acknowledge_len (v : Word) : (s.acknowledge v).len = s.len := rfl
@[simp] theorem State.acknowledge_caps (v : Word) : (s.acknowledge v).caps = s.caps := rfl
@[simp] theorem State.acknowledge_mem (v : Word) : (s.acknowledge v).mem = s.mem := rfl
@[simp] theorem State.acknowledge_sched (v : Word) : (s.acknowledge v).sched = s.sched := rfl
@[simp] theorem State.acknowledge_rsp (v : Word) : (s.acknowledge v).rsp = s.rsp := rfl
@[simp] theorem State.acknowledge_epoch (v : Word) : (s.acknowledge v).epoch = s.epoch := rfl

@[simp] theorem State.complete_status : s.complete.status = { s.status with busy := false, done := true } := rfl
@[simp] theorem State.complete_irqEn : s.complete.irqEn = s.irqEn := rfl
@[simp] theorem State.complete_errInfo : s.complete.errInfo = s.errInfo := rfl
@[simp] theorem State.complete_accAddr : s.complete.accAddr = s.accAddr := rfl
@[simp] theorem State.complete_cfg : s.complete.cfg = s.cfg := rfl
@[simp] theorem State.complete_len : s.complete.len = s.len := rfl
@[simp] theorem State.complete_caps : s.complete.caps = s.caps := rfl
@[simp] theorem State.complete_mem : s.complete.mem = s.mem := rfl
@[simp] theorem State.complete_sched : s.complete.sched = s.sched := rfl
@[simp] theorem State.complete_rsp : s.complete.rsp = s.rsp := rfl
@[simp] theorem State.complete_epoch : s.complete.epoch = s.epoch := rfl

@[simp] theorem State.accept_status (op : BitVec 8) (first : Stage) : (s.accept op first).status = ⟨true, false, false, s.status.accErr, first, .none, op⟩ := rfl
@[simp] theorem State.accept_irqEn (op : BitVec 8) (first : Stage) : (s.accept op first).irqEn = s.irqEn := rfl
@[simp] theorem State.accept_errInfo (op : BitVec 8) (first : Stage) : (s.accept op first).errInfo = 0 := rfl
@[simp] theorem State.accept_accAddr (op : BitVec 8) (first : Stage) : (s.accept op first).accAddr = s.accAddr := rfl
@[simp] theorem State.accept_cfg (op : BitVec 8) (first : Stage) : (s.accept op first).cfg = s.cfg := rfl
@[simp] theorem State.accept_len (op : BitVec 8) (first : Stage) : (s.accept op first).len = s.len := rfl
@[simp] theorem State.accept_caps (op : BitVec 8) (first : Stage) : (s.accept op first).caps = s.caps := rfl
@[simp] theorem State.accept_mem (op : BitVec 8) (first : Stage) : (s.accept op first).mem = s.mem := rfl
@[simp] theorem State.accept_sched (op : BitVec 8) (first : Stage) : (s.accept op first).sched = s.sched := rfl
@[simp] theorem State.accept_rsp (op : BitVec 8) (first : Stage) : (s.accept op first).rsp = s.rsp := rfl
@[simp] theorem State.accept_epoch (op : BitVec 8) (first : Stage) : (s.accept op first).epoch = s.epoch := rfl

@[simp] theorem State.nopDone_status (op : BitVec 8) : (s.nopDone op).status = ⟨s.status.busy, true, false, s.status.accErr, .idle, .none, op⟩ := rfl
@[simp] theorem State.nopDone_irqEn (op : BitVec 8) : (s.nopDone op).irqEn = s.irqEn := rfl
@[simp] theorem State.nopDone_errInfo (op : BitVec 8) : (s.nopDone op).errInfo = 0 := rfl
@[simp] theorem State.nopDone_accAddr (op : BitVec 8) : (s.nopDone op).accAddr = s.accAddr := rfl
@[simp] theorem State.nopDone_cfg (op : BitVec 8) : (s.nopDone op).cfg = s.cfg := rfl
@[simp] theorem State.nopDone_len (op : BitVec 8) : (s.nopDone op).len = s.len := rfl
@[simp] theorem State.nopDone_caps (op : BitVec 8) : (s.nopDone op).caps = s.caps := rfl
@[simp] theorem State.nopDone_mem (op : BitVec 8) : (s.nopDone op).mem = s.mem := rfl
@[simp] theorem State.nopDone_sched (op : BitVec 8) : (s.nopDone op).sched = s.sched := rfl
@[simp] theorem State.nopDone_rsp (op : BitVec 8) : (s.nopDone op).rsp = s.rsp := rfl
@[simp] theorem State.nopDone_epoch (op : BitVec 8) : (s.nopDone op).epoch = s.epoch := rfl

@[simp] theorem State.illegalCommand_status (w : Word) : (s.illegalCommand w).status = ⟨false, true, true, s.status.accErr, .idle, .illegalCmd, w.extractLsb' 0 8⟩ := rfl
@[simp] theorem State.illegalCommand_irqEn (w : Word) : (s.illegalCommand w).irqEn = s.irqEn := rfl
@[simp] theorem State.illegalCommand_errInfo (w : Word) : (s.illegalCommand w).errInfo = w := rfl
@[simp] theorem State.illegalCommand_accAddr (w : Word) : (s.illegalCommand w).accAddr = s.accAddr := rfl
@[simp] theorem State.illegalCommand_cfg (w : Word) : (s.illegalCommand w).cfg = s.cfg := rfl
@[simp] theorem State.illegalCommand_len (w : Word) : (s.illegalCommand w).len = s.len := rfl
@[simp] theorem State.illegalCommand_caps (w : Word) : (s.illegalCommand w).caps = s.caps := rfl
@[simp] theorem State.illegalCommand_mem (w : Word) : (s.illegalCommand w).mem = s.mem := rfl
@[simp] theorem State.illegalCommand_sched (w : Word) : (s.illegalCommand w).sched = s.sched := rfl
@[simp] theorem State.illegalCommand_rsp (w : Word) : (s.illegalCommand w).rsp = s.rsp := rfl
@[simp] theorem State.illegalCommand_epoch (w : Word) : (s.illegalCommand w).epoch = s.epoch := rfl

@[simp] theorem State.enterStage_status (st : Stage) : (s.enterStage st).status = { s.status with stage := st } := rfl
@[simp] theorem State.enterStage_irqEn (st : Stage) : (s.enterStage st).irqEn = s.irqEn := rfl
@[simp] theorem State.enterStage_errInfo (st : Stage) : (s.enterStage st).errInfo = s.errInfo := rfl
@[simp] theorem State.enterStage_accAddr (st : Stage) : (s.enterStage st).accAddr = s.accAddr := rfl
@[simp] theorem State.enterStage_cfg (st : Stage) : (s.enterStage st).cfg = s.cfg := rfl
@[simp] theorem State.enterStage_len (st : Stage) : (s.enterStage st).len = s.len := rfl
@[simp] theorem State.enterStage_caps (st : Stage) : (s.enterStage st).caps = s.caps := rfl
@[simp] theorem State.enterStage_mem (st : Stage) : (s.enterStage st).mem = s.mem := rfl
@[simp] theorem State.enterStage_sched (st : Stage) : (s.enterStage st).sched = s.sched := rfl
@[simp] theorem State.enterStage_rsp (st : Stage) : (s.enterStage st).rsp = s.rsp := rfl
@[simp] theorem State.enterStage_epoch (st : Stage) : (s.enterStage st).epoch = s.epoch := rfl

@[simp] theorem State.newEpoch_status : s.newEpoch.status = s.status := rfl
@[simp] theorem State.newEpoch_irqEn : s.newEpoch.irqEn = s.irqEn := rfl
@[simp] theorem State.newEpoch_errInfo : s.newEpoch.errInfo = s.errInfo := rfl
@[simp] theorem State.newEpoch_accAddr : s.newEpoch.accAddr = s.accAddr := rfl
@[simp] theorem State.newEpoch_cfg : s.newEpoch.cfg = s.cfg := rfl
@[simp] theorem State.newEpoch_len : s.newEpoch.len = s.len := rfl
@[simp] theorem State.newEpoch_caps : s.newEpoch.caps = s.caps := rfl
@[simp] theorem State.newEpoch_mem : s.newEpoch.mem = s.mem := rfl
@[simp] theorem State.newEpoch_sched : s.newEpoch.sched = s.sched := rfl
@[simp] theorem State.newEpoch_rsp : s.newEpoch.rsp = s.rsp := rfl
@[simp] theorem State.newEpoch_epoch : s.newEpoch.epoch = s.epoch + 1 := rfl

@[simp] theorem State.softReset_status : s.softReset.status = Status.reset := rfl
@[simp] theorem State.softReset_irqEn : s.softReset.irqEn = IrqEnable.reset := rfl
@[simp] theorem State.softReset_errInfo : s.softReset.errInfo = 0 := rfl
@[simp] theorem State.softReset_accAddr : s.softReset.accAddr = 0 := rfl
@[simp] theorem State.softReset_cfg : s.softReset.cfg = Settings.reset := rfl
@[simp] theorem State.softReset_len : s.softReset.len = Lengths.reset := rfl
@[simp] theorem State.softReset_caps : s.softReset.caps = s.caps := rfl
@[simp] theorem State.softReset_mem : s.softReset.mem = softResetMemory s := rfl
@[simp] theorem State.softReset_sched : s.softReset.sched = s.sched := rfl
@[simp] theorem State.softReset_rsp : s.softReset.rsp = s.rsp := rfl
@[simp] theorem State.softReset_epoch : s.softReset.epoch = if s.status.busy then s.epoch + 1 else s.epoch := rfl

@[simp] theorem State.respond_status (v : Word) : (s.respond v).status = s.status := rfl
@[simp] theorem State.respond_irqEn (v : Word) : (s.respond v).irqEn = s.irqEn := rfl
@[simp] theorem State.respond_errInfo (v : Word) : (s.respond v).errInfo = s.errInfo := rfl
@[simp] theorem State.respond_accAddr (v : Word) : (s.respond v).accAddr = s.accAddr := rfl
@[simp] theorem State.respond_cfg (v : Word) : (s.respond v).cfg = s.cfg := rfl
@[simp] theorem State.respond_len (v : Word) : (s.respond v).len = s.len := rfl
@[simp] theorem State.respond_caps (v : Word) : (s.respond v).caps = s.caps := rfl
@[simp] theorem State.respond_mem (v : Word) : (s.respond v).mem = s.mem := rfl
@[simp] theorem State.respond_sched (v : Word) : (s.respond v).sched = s.sched := rfl
@[simp] theorem State.respond_rsp (v : Word) : (s.respond v).rsp = some v := rfl
@[simp] theorem State.respond_epoch (v : Word) : (s.respond v).epoch = s.epoch := rfl

@[simp] theorem State.advance_status (rest : List Move) : (s.advance rest).status = s.status := rfl
@[simp] theorem State.advance_irqEn (rest : List Move) : (s.advance rest).irqEn = s.irqEn := rfl
@[simp] theorem State.advance_errInfo (rest : List Move) : (s.advance rest).errInfo = s.errInfo := rfl
@[simp] theorem State.advance_accAddr (rest : List Move) : (s.advance rest).accAddr = s.accAddr := rfl
@[simp] theorem State.advance_cfg (rest : List Move) : (s.advance rest).cfg = s.cfg := rfl
@[simp] theorem State.advance_len (rest : List Move) : (s.advance rest).len = s.len := rfl
@[simp] theorem State.advance_caps (rest : List Move) : (s.advance rest).caps = s.caps := rfl
@[simp] theorem State.advance_mem (rest : List Move) : (s.advance rest).mem = s.mem := rfl
@[simp] theorem State.advance_sched (rest : List Move) : (s.advance rest).sched = rest := rfl
@[simp] theorem State.advance_rsp (rest : List Move) : (s.advance rest).rsp = none := rfl
@[simp] theorem State.advance_epoch (rest : List Move) : (s.advance rest).epoch = s.epoch := rfl

@[simp] theorem filterWrite_status (ys : List F64) : (filterWrite s ys).status = s.status := rfl
@[simp] theorem filterWrite_irqEn (ys : List F64) : (filterWrite s ys).irqEn = s.irqEn := rfl
@[simp] theorem filterWrite_errInfo (ys : List F64) : (filterWrite s ys).errInfo = s.errInfo := rfl
@[simp] theorem filterWrite_accAddr (ys : List F64) : (filterWrite s ys).accAddr = s.accAddr := rfl
@[simp] theorem filterWrite_cfg (ys : List F64) : (filterWrite s ys).cfg = s.cfg := rfl
@[simp] theorem filterWrite_len (ys : List F64) : 
    (filterWrite s ys).len = { s.len with sigLen := BitVec.ofNat 32 (filterLength s), decim := BitVec.ofNat 32 (decimation s) } := rfl
@[simp] theorem filterWrite_caps (ys : List F64) : (filterWrite s ys).caps = s.caps := rfl
@[simp] theorem filterWrite_mem (ys : List F64) : 
    (filterWrite s ys).mem = memPutF64s s.mem Ram.signal.base ys := rfl
@[simp] theorem filterWrite_sched (ys : List F64) : (filterWrite s ys).sched = s.sched := rfl
@[simp] theorem filterWrite_rsp (ys : List F64) : (filterWrite s ys).rsp = s.rsp := rfl
@[simp] theorem filterWrite_epoch (ys : List F64) : (filterWrite s ys).epoch = s.epoch := rfl

@[simp] theorem spectrumWrite_status (rows : List (List F64)) : 
    (spectrumWrite s rows).status = s.status := rfl
@[simp] theorem spectrumWrite_irqEn (rows : List (List F64)) : (spectrumWrite s rows).irqEn = s.irqEn := rfl
@[simp] theorem spectrumWrite_errInfo (rows : List (List F64)) : 
    (spectrumWrite s rows).errInfo = s.errInfo := rfl
@[simp] theorem spectrumWrite_accAddr (rows : List (List F64)) : 
    (spectrumWrite s rows).accAddr = s.accAddr := rfl
@[simp] theorem spectrumWrite_cfg (rows : List (List F64)) : (spectrumWrite s rows).cfg = s.cfg := rfl
@[simp] theorem spectrumWrite_len (rows : List (List F64)) : 
    (spectrumWrite s rows).len = { s.len with numFrames := BitVec.ofNat 32 (spectrumFrames s), numBins := BitVec.ofNat 32 (spectrumBins s) } := rfl
@[simp] theorem spectrumWrite_caps (rows : List (List F64)) : (spectrumWrite s rows).caps = s.caps := rfl
@[simp] theorem spectrumWrite_mem (rows : List (List F64)) : 
    (spectrumWrite s rows).mem = memPutF64s s.mem Ram.spec.base rows.flatten := rfl
@[simp] theorem spectrumWrite_sched (rows : List (List F64)) : (spectrumWrite s rows).sched = s.sched := rfl
@[simp] theorem spectrumWrite_rsp (rows : List (List F64)) : (spectrumWrite s rows).rsp = s.rsp := rfl
@[simp] theorem spectrumWrite_epoch (rows : List (List F64)) : (spectrumWrite s rows).epoch = s.epoch := rfl

@[simp] theorem peaksWrite_status (ps : List Peak) : (peaksWrite s ps).status = s.status := rfl
@[simp] theorem peaksWrite_irqEn (ps : List Peak) : (peaksWrite s ps).irqEn = s.irqEn := rfl
@[simp] theorem peaksWrite_errInfo (ps : List Peak) : (peaksWrite s ps).errInfo = s.errInfo := rfl
@[simp] theorem peaksWrite_accAddr (ps : List Peak) : (peaksWrite s ps).accAddr = s.accAddr := rfl
@[simp] theorem peaksWrite_cfg (ps : List Peak) : (peaksWrite s ps).cfg = s.cfg := rfl
@[simp] theorem peaksWrite_len (ps : List Peak) : 
    (peaksWrite s ps).len = { s.len with numPeaks := BitVec.ofNat 32 (peakCount s) } := rfl
@[simp] theorem peaksWrite_caps (ps : List Peak) : (peaksWrite s ps).caps = s.caps := rfl
@[simp] theorem peaksWrite_mem (ps : List Peak) : 
    (peaksWrite s ps).mem = memPutWords s.mem Ram.peak.base (ps.flatMap peakWords) := rfl
@[simp] theorem peaksWrite_sched (ps : List Peak) : (peaksWrite s ps).sched = s.sched := rfl
@[simp] theorem peaksWrite_rsp (ps : List Peak) : (peaksWrite s ps).rsp = s.rsp := rfl
@[simp] theorem peaksWrite_epoch (ps : List Peak) : (peaksWrite s ps).epoch = s.epoch := rfl

@[simp] theorem hashWrite_status (hs : List Word) : (hashWrite s hs).status = s.status := rfl
@[simp] theorem hashWrite_irqEn (hs : List Word) : (hashWrite s hs).irqEn = s.irqEn := rfl
@[simp] theorem hashWrite_errInfo (hs : List Word) : (hashWrite s hs).errInfo = s.errInfo := rfl
@[simp] theorem hashWrite_accAddr (hs : List Word) : (hashWrite s hs).accAddr = s.accAddr := rfl
@[simp] theorem hashWrite_cfg (hs : List Word) : (hashWrite s hs).cfg = s.cfg := rfl
@[simp] theorem hashWrite_len (hs : List Word) : 
    (hashWrite s hs).len = { s.len with numHashes := BitVec.ofNat 32 hs.length } := rfl
@[simp] theorem hashWrite_caps (hs : List Word) : (hashWrite s hs).caps = s.caps := rfl
@[simp] theorem hashWrite_mem (hs : List Word) : 
    (hashWrite s hs).mem = memPutWords s.mem Ram.hash.base hs := rfl
@[simp] theorem hashWrite_sched (hs : List Word) : (hashWrite s hs).sched = s.sched := rfl
@[simp] theorem hashWrite_rsp (hs : List Word) : (hashWrite s hs).rsp = s.rsp := rfl
@[simp] theorem hashWrite_epoch (hs : List Word) : (hashWrite s hs).epoch = s.epoch := rfl

@[simp] theorem csrStore_status (v : Word) (r : Csr) : (csrStore s v r).status = s.status := by cases r <;> rfl
@[simp] theorem csrStore_irqEn (v : Word) (r : Csr) : (csrStore s v r).irqEn = s.irqEn := by cases r <;> rfl
@[simp] theorem csrStore_errInfo (v : Word) (r : Csr) : (csrStore s v r).errInfo = s.errInfo := by cases r <;> rfl
@[simp] theorem csrStore_accAddr (v : Word) (r : Csr) : (csrStore s v r).accAddr = s.accAddr := by cases r <;> rfl
@[simp] theorem csrStore_caps (v : Word) (r : Csr) : (csrStore s v r).caps = s.caps := by cases r <;> rfl
@[simp] theorem csrStore_mem (v : Word) (r : Csr) : (csrStore s v r).mem = s.mem := by cases r <;> rfl
@[simp] theorem csrStore_sched (v : Word) (r : Csr) : (csrStore s v r).sched = s.sched := by cases r <;> rfl
@[simp] theorem csrStore_rsp (v : Word) (r : Csr) : (csrStore s v r).rsp = s.rsp := by cases r <;> rfl
@[simp] theorem csrStore_epoch (v : Word) (r : Csr) : (csrStore s v r).epoch = s.epoch := by cases r <;> rfl

end Sys2Proof.Machine
end

