-- ==== Sys2Proof/Laws/Memory.lean ====
section
/-! SUPPORT. The memory operations: read after write, what a write leaves alone, and the canonical form. -/

namespace Sys2Proof.Machine

/-! ### Bytes -/

theorem memByte_memPut (m : Memory) (a x : Nat) (b : Byte) :
    memByte (memPut m a b) x = if a = x then some b else memByte m x := by
  induction m with
  | nil => simp [memPut, memByte]
  | cons c rest ih =>
    unfold memPut
    split_ifs with h₁ h₂ h₃ h₃ h₃ <;> simp_all [memByte]

theorem memByte_memErase (m : Memory) (lo n x : Nat) :
    memByte (memErase m lo n) x = if lo ≤ x ∧ x < lo + n then none else memByte m x := by
  induction m with
  | nil => simp [memErase, memByte]
  | cons c rest ih =>
    unfold memErase at ih ⊢
    rw [List.filter_cons]
    by_cases hc : lo ≤ c.1 ∧ c.1 < lo + n
    · simp only [hc.1, hc.2, decide_true, Bool.and_self, Bool.not_true, Bool.false_eq_true, if_false,
        ih, memByte]
      by_cases hx : c.1 = x
      · subst hx; simp [hc]
      · simp [hx]
    · have : (!(decide (lo ≤ c.1) && decide (c.1 < lo + n))) = true := by
        simp only [Bool.not_eq_true', Bool.and_eq_false_iff, decide_eq_false_iff_not]; tauto
      simp only [this, if_true, memByte, ih]
      by_cases hx : c.1 = x
      · subst hx; simp [hc]
      · simp [hx]

/-! ### Words -/

theorem wordOfBytes_byteOf (w : Word) :
    wordOfBytes (byteOf w 0) (byteOf w 1) (byteOf w 2) (byteOf w 3) = w := by
  unfold wordOfBytes byteOf
  ext i hi
  simp only [BitVec.getElem_append, BitVec.getElem_extractLsb']
  split_ifs with h₁ h₂ h₃ <;> rw [← BitVec.getLsbD_eq_getElem hi] <;> congr 1 <;> omega

/-- A word write at `a` and a byte read at `x`. -/
theorem memByte_memPutWord (m : Memory) (a x : Nat) (w : Word) :
    memByte (memPutWord m a w) x =
      if a ≤ x ∧ x < a + 4 then some (byteOf w (x - a)) else memByte m x := by
  simp only [memPutWord, memByte_memPut]
  by_cases h : a ≤ x ∧ x < a + 4
  · obtain ⟨k, rfl⟩ := Nat.exists_eq_add_of_le h.1
    have : k = 0 ∨ k = 1 ∨ k = 2 ∨ k = 3 := by omega
    rcases this with rfl | rfl | rfl | rfl <;> simp
  · rw [if_neg h]
    split_ifs <;> first | omega | rfl

theorem memWord_eq_of_bytes {m m' : Memory} {a : Nat}
    (h : ∀ x, a ≤ x → x < a + 4 → memByte m' x = memByte m x) : memWord m' a = memWord m a := by
  simp only [memWord, h a (by omega) (by omega), h (a + 1) (by omega) (by omega),
    h (a + 2) (by omega) (by omega), h (a + 3) (by omega) (by omega)]

theorem memF64_eq_of_bytes {m m' : Memory} {a : Nat}
    (h : ∀ x, a ≤ x → x < a + 8 → memByte m' x = memByte m x) : memF64 m' a = memF64 m a := by
  simp only [memF64, memWord_eq_of_bytes (fun x h₁ h₂ => h x h₁ (by omega)),
    memWord_eq_of_bytes (a := a + 4) (fun x h₁ h₂ => h x (by omega) (by omega))]

theorem memWord_memPutWord_same (m : Memory) (a : Nat) (w : Word) :
    memWord (memPutWord m a w) a = some w := by
  have h (k : Nat) (hk : k < 4) : memByte (memPutWord m a w) (a + k) = some (byteOf w k) := by
    rw [memByte_memPutWord, if_pos (by omega)]; simp
  simp only [memWord, h 1 (by omega), h 2 (by omega), h 3 (by omega),
    show memByte (memPutWord m a w) a = some (byteOf w 0) from h 0 (by omega), wordOfBytes_byteOf]

/-- A write of a word leaves every word that shares no byte with it. -/
theorem memWord_memPutWord_other (m : Memory) (a x : Nat) (w : Word) (h : x + 4 ≤ a ∨ a + 4 ≤ x) :
    memWord (memPutWord m a w) x = memWord m x :=
  memWord_eq_of_bytes fun y h₁ h₂ => by rw [memByte_memPutWord, if_neg (by omega)]

theorem memWord_memErase_other (m : Memory) (lo n x : Nat) (h : x + 4 ≤ lo ∨ lo + n ≤ x) :
    memWord (memErase m lo n) x = memWord m x :=
  memWord_eq_of_bytes fun y h₁ h₂ => by rw [memByte_memErase, if_neg (by omega)]

theorem memWord_memErase_inside (m : Memory) (lo n x : Nat) (h : lo ≤ x ∧ x < lo + n) :
    memWord (memErase m lo n) x = none := by
  simp [memWord, memByte_memErase, h]

/-! ### Runs of words -/

theorem memByte_memPutWords_outside (ws : List Word) (m : Memory) (a x : Nat)
    (h : x < a ∨ a + 4 * ws.length ≤ x) : memByte (memPutWords m a ws) x = memByte m x := by
  induction ws generalizing m a with
  | nil => rfl
  | cons w ws ih =>
    simp only [List.length_cons] at h
    rw [memPutWords, ih _ _ (by omega), memByte_memPutWord, if_neg (by omega)]

theorem memWord_memPutWords_inside (ws : List Word) (m : Memory) (a i : Nat) (hi : i < ws.length) :
    memWord (memPutWords m a ws) (a + 4 * i) = some ws[i] := by
  induction ws generalizing m a i with
  | nil => simp at hi
  | cons w ws ih =>
    cases i with
    | zero =>
      rw [memPutWords, memWord_eq_of_bytes (m := memPutWord m a w)
        (fun x h₁ h₂ => memByte_memPutWords_outside _ _ _ _ (by omega))]
      simpa using memWord_memPutWord_same m a w
    | succ i =>
      have hi' : i < ws.length := by simpa using hi
      have := ih (memPutWord m a w) (a + 4) i hi'
      rw [memPutWords, show a + 4 * (i + 1) = a + 4 + 4 * i by ring, this]
      simp

/-! ### Binary64 entries -/

theorem length_flatMap_f64Words (xs : List F64) : (xs.flatMap f64Words).length = 2 * xs.length := by
  induction xs with
  | nil => rfl
  | cons x xs ih => simp only [List.flatMap_cons, List.length_append, ih, List.length_cons]; simp [f64Words]; ring

theorem f64Words_join (x : F64) : x.extractLsb' 32 32 ++ x.extractLsb' 0 32 = x := by
  ext i hi
  simp only [BitVec.getElem_append, BitVec.getElem_extractLsb']
  split_ifs with h <;> rw [← BitVec.getLsbD_eq_getElem hi] <;> congr 1 <;> omega

theorem memByte_memPutF64s_outside (xs : List F64) (m : Memory) (a x : Nat)
    (h : x < a ∨ a + 8 * xs.length ≤ x) : memByte (memPutF64s m a xs) x = memByte m x :=
  memByte_memPutWords_outside _ _ _ _ (by rw [length_flatMap_f64Words]; omega)

theorem getElem?_flatMap_f64Words (xs : List F64) (i : Nat) (hi : i < xs.length) :
    (xs.flatMap f64Words)[2 * i]? = some (xs[i].extractLsb' 0 32) ∧
      (xs.flatMap f64Words)[2 * i + 1]? = some (xs[i].extractLsb' 32 32) := by
  induction xs generalizing i with
  | nil => simp at hi
  | cons x xs ih =>
    cases i with
    | zero => simp [f64Words]
    | succ i =>
      have := ih i (by simpa using hi)
      simpa [f64Words, show 2 * (i + 1) = 2 * i + 1 + 1 by ring] using this

theorem memF64_memPutF64s_inside (xs : List F64) (m : Memory) (a i : Nat) (hi : i < xs.length) :
    memF64 (memPutF64s m a xs) (a + 8 * i) = some xs[i] := by
  have hl := length_flatMap_f64Words xs
  obtain ⟨h₀, h₁⟩ := getElem?_flatMap_f64Words xs i hi
  obtain ⟨l₀, e₀⟩ := List.getElem?_eq_some_iff.mp h₀
  obtain ⟨l₁, e₁⟩ := List.getElem?_eq_some_iff.mp h₁
  have w₀ := memWord_memPutWords_inside (xs.flatMap f64Words) m a (2 * i) l₀
  have w₁ := memWord_memPutWords_inside (xs.flatMap f64Words) m a (2 * i + 1) l₁
  rw [show a + 4 * (2 * i) = a + 8 * i by ring] at w₀
  rw [show a + 4 * (2 * i + 1) = a + 8 * i + 4 by ring] at w₁
  simp only [memF64, memPutF64s, w₀, w₁, e₀, e₁, f64Words_join]

/-! ### The canonical form -/

theorem Memory.wf_cons (c : Host.Cell) (m : Memory) :
    Memory.wf (c :: m) = true ↔ (∀ d, m.head? = some d → c.1 < d.1) ∧ Memory.wf m = true := by
  cases m with
  | nil => simp [Memory.wf]
  | cons d rest => simp [Memory.wf]

theorem head?_memPut (m : Memory) (a : Nat) (b : Byte) (d : Host.Cell)
    (h : (memPut m a b).head? = some d) : d.1 = a ∨ m.head? = some d := by
  cases m with
  | nil => simp [memPut] at h; simp [← h]
  | cons c rest =>
    unfold memPut at h
    split_ifs at h with h₁ h₂
    · exact .inl (congrArg Prod.fst (Option.some.inj h).symm)
    · exact .inl (congrArg Prod.fst (Option.some.inj h).symm)
    · exact .inr h

theorem memPut_wf (m : Memory) (a : Nat) (b : Byte) (h : Memory.wf m = true) :
    Memory.wf (memPut m a b) = true := by
  induction m with
  | nil => rfl
  | cons c rest ih =>
    rw [Memory.wf_cons] at h
    unfold memPut
    split_ifs with h₁ h₂
    · rw [Memory.wf_cons, Memory.wf_cons]
      exact ⟨fun d hd => by simp at hd; simpa [← hd] using h₁, h⟩
    · rw [Memory.wf_cons]
      exact ⟨fun d hd => by simpa [← h₂] using h.1 d hd, h.2⟩
    · rw [Memory.wf_cons]
      refine ⟨fun d hd => ?_, ih h.2⟩
      rcases head?_memPut rest a b d hd with hd | hd
      · omega
      · exact h.1 d hd

theorem Memory.wf_iff_pairwise (m : Memory) :
    Memory.wf m = true ↔ m.Pairwise (fun c d => c.1 < d.1) := by
  induction m with
  | nil => simp [Memory.wf]
  | cons c rest ih =>
    rw [Memory.wf_cons, List.pairwise_cons, ih]
    refine and_congr_left fun hp => ⟨fun hh d hd => ?_, fun hh d hd => hh d (List.mem_of_mem_head? hd)⟩
    cases rest with
    | nil => simp at hd
    | cons e rest =>
      have he := hh e rfl
      rcases List.mem_cons.mp hd with rfl | hd
      · exact he
      · exact he.trans ((List.pairwise_cons.mp hp).1 d hd)

theorem memErase_wf (m : Memory) (lo n : Nat) (h : Memory.wf m = true) :
    Memory.wf (memErase m lo n) = true := by
  rw [Memory.wf_iff_pairwise] at h ⊢
  exact h.filter _

theorem memPutWord_wf (m : Memory) (a : Nat) (w : Word) (h : Memory.wf m = true) :
    Memory.wf (memPutWord m a w) = true :=
  memPut_wf _ _ _ (memPut_wf _ _ _ (memPut_wf _ _ _ (memPut_wf _ _ _ h)))

theorem memPutWords_wf (ws : List Word) (m : Memory) (a : Nat) (h : Memory.wf m = true) :
    Memory.wf (memPutWords m a ws) = true := by
  induction ws generalizing m a with
  | nil => exact h
  | cons w ws ih => exact ih _ _ (memPutWord_wf m a w h)

theorem memPutF64s_wf (xs : List F64) (m : Memory) (a : Nat) (h : Memory.wf m = true) :
    Memory.wf (memPutF64s m a xs) = true := memPutWords_wf _ _ _ h

theorem softResetMemory_wf (s : State) (h : Memory.wf s.mem = true) :
    Memory.wf (softResetMemory s) = true := by
  unfold softResetMemory
  split
  · split
    · exact memErase_wf _ _ _ h
    · exact h
  · exact h

theorem reset_mem_wf : Memory.wf State.reset.mem = true := rfl

/-- In canonical form a byte that is read is listed. -/
theorem mem_of_memByte {m : Memory} {a : Nat} {b : Byte} (h : memByte m a = some b) : (a, b) ∈ m := by
  induction m with
  | nil => simp [memByte] at h
  | cons c rest ih =>
    unfold memByte at h
    split_ifs at h with hc
    · simp at h; simp [← hc, ← h]
    · exact List.mem_cons_of_mem _ (ih h)

theorem memByte_isSome_iff (m : Memory) (a : Nat) : (memByte m a).isSome ↔ ∃ c ∈ m, c.1 = a := by
  induction m with
  | nil => simp [memByte]
  | cons c rest ih =>
    unfold memByte
    split_ifs with hc
    · simp [hc]
    · simp [ih, hc]

/-- Two canonical memories that read alike at every offset are the same list. -/
theorem memory_ext {m m' : Memory} (h : Memory.wf m = true) (h' : Memory.wf m' = true)
    (he : ∀ a, memByte m a = memByte m' a) : m = m' := by
  induction m generalizing m' with
  | nil =>
    cases m' with
    | nil => rfl
    | cons d rest => have := he d.1; simp [memByte] at this
  | cons c rest ih =>
    rw [Memory.wf_iff_pairwise] at h h'
    cases m' with
    | nil => have := he c.1; simp [memByte] at this
    | cons d rest' =>
      have notIn (x : Host.Cell) (r : Memory) (hr : (x :: r).Pairwise (fun c d : Host.Cell => c.1 < d.1))
          (y : Nat) (hy : y ≤ x.1) : memByte r y = none := by
        by_contra hn
        obtain ⟨z, hz, rfl⟩ := (memByte_isSome_iff r y).mp (Option.ne_none_iff_isSome.mp hn)
        have := (List.pairwise_cons.mp hr).1 z hz
        omega
      have hcd : c.1 = d.1 := by
        rcases lt_trichotomy c.1 d.1 with hlt | heq | hgt
        · have := he c.1
          rw [memByte, if_pos rfl, memByte, if_neg (by omega), notIn d rest' h' _ hlt.le] at this
          simp at this
        · exact heq
        · have := he d.1
          rw [memByte, if_neg (by omega), memByte, if_pos rfl, notIn c rest h _ hgt.le] at this
          simp at this
      have hv : c.2 = d.2 := by
        have := he c.1
        rw [memByte, if_pos rfl, memByte, if_pos hcd.symm] at this
        simpa using this
      have hr : rest = rest' := by
        refine ih ((Memory.wf_iff_pairwise _).mpr (List.pairwise_cons.mp h).2)
          ((Memory.wf_iff_pairwise _).mpr (List.pairwise_cons.mp h').2) fun a => ?_
        by_cases ha : a = c.1
        · subst ha; rw [notIn c rest h _ le_rfl, notIn d rest' h' _ hcd.le]
        · have := he a
          rwa [memByte, if_neg (fun e => ha e.symm), memByte, if_neg (fun e => ha (hcd.trans e).symm)] at this
      rw [hr, Prod.ext hcd hv]

/-! ### Operand reads -/

theorem collectFrom_eq_some_iff {α : Type} (f : Nat → Option α) (n start : Nat) (xs : List α) :
    collectFrom f start n = some xs ↔
      xs.length = n ∧ ∀ i, (hi : i < xs.length) → f (start + i) = some xs[i] := by
  induction n generalizing start xs with
  | zero =>
    simp only [collectFrom, Option.some.injEq]
    constructor
    · rintro rfl; simp
    · rintro ⟨h, -⟩; exact (List.length_eq_zero_iff.mp h).symm
  | succ n ih =>
    unfold collectFrom
    constructor
    · intro h
      split at h
      · rename_i x ys hx hys
        obtain rfl : x :: ys = xs := by simpa using h
        obtain ⟨hl, hf⟩ := (ih (start + 1) ys).mp hys
        refine ⟨by simp [hl], fun i hi => ?_⟩
        cases i with
        | zero => simpa using hx
        | succ i => simpa [show start + (i + 1) = start + 1 + i by ring] using hf i (by simpa using hi)
      · simp at h
    · rintro ⟨hl, hf⟩
      cases xs with
      | nil => simp at hl
      | cons x ys =>
        have h₀ := hf 0 (by simp)
        have h₁ : collectFrom f (start + 1) n = some ys :=
          (ih (start + 1) ys).mpr ⟨by simpa using hl, fun i hi => by
            have := hf (i + 1) (by simpa using hi)
            simpa [show start + (i + 1) = start + 1 + i by ring] using this⟩
        simp at h₀
        simp [h₀, h₁]

/-- The values are there exactly when each of them is. -/
theorem collectFrom_isSome_iff {α : Type} (f : Nat → Option α) (n start : Nat) :
    (collectFrom f start n).isSome = true ↔ ∀ i, i < n → (f (start + i)).isSome = true := by
  induction n generalizing start with
  | zero => simp [collectFrom]
  | succ n ih =>
    unfold collectFrom
    constructor
    · intro h i hi
      split at h
      · rename_i x ys hx hys
        cases i with
        | zero => simp [hx]
        | succ i =>
          have := (ih (start + 1)).mp (by simp [hys]) i (by omega)
          rwa [show start + (i + 1) = start + 1 + i by ring]
      · simp at h
    · intro h
      have h₀ := h 0 (by omega)
      have h₁ := (ih (start + 1)).mpr fun i hi => by
        have := h (i + 1) (by omega)
        rwa [show start + (i + 1) = start + 1 + i by ring] at this
      obtain ⟨x, hx⟩ := Option.isSome_iff_exists.mp h₀
      obtain ⟨ys, hys⟩ := Option.isSome_iff_exists.mp h₁
      simp at hx
      simp [hx, hys]

theorem length_of_collectFrom {α : Type} {f : Nat → Option α} {n start : Nat} {xs : List α}
    (h : collectFrom f start n = some xs) : xs.length = n :=
  ((collectFrom_eq_some_iff f n start xs).mp h).1

theorem collectFrom_congr {α : Type} {f g : Nat → Option α} (start n : Nat)
    (h : ∀ i, start ≤ i → i < start + n → f i = g i) : collectFrom f start n = collectFrom g start n := by
  induction n generalizing start with
  | zero => rfl
  | succ n ih =>
    simp only [collectFrom, h start le_rfl (by omega)]
    rw [ih (start + 1) fun i h₁ h₂ => h i (by omega) (by omega)]

end Sys2Proof.Machine
end

