-- ==== Sys2Proof/Laws/Steps.lean ====
section
/-! SUPPORT. What each shared operation can do, said once: the stages, the sequencer, the host port and
the step. -/

namespace Sys2Proof.Machine

/-! ### The stages -/

/-- FILTER fails a check, or writes its outputs, or meets a never-written word. -/
theorem filterStage_cases (s : State) :
    (∃ code info, filterChecks s = some (code, info) ∧ filterStage s = .error code info s) ∨
    (filterChecks s = none ∧ ∃ samples k, filterSamples s = some samples ∧ filterKernel s = some k ∧
      filterStage s = .done (filterWrite s
        (decimated (samples.map normalizeSample) k (decimation s) (filterLength s)))) ∨
    (filterChecks s = none ∧ (filterSamples s = none ∨ filterKernel s = none) ∧
      filterStage s = .fault .unwrittenWord) := by
  unfold filterStage
  cases hc : filterChecks s with
  | some e => exact .inl ⟨e.1, e.2, rfl, rfl⟩
  | none =>
    cases hs : filterSamples s <;> cases hk : filterKernel s <;> simp

/-- SPECTRUM fails a check, or writes its outputs, or meets a never-written word. -/
theorem spectrumStage_cases (s : State) :
    (∃ code info, spectrumChecks s = some (code, info) ∧ spectrumStage s = .error code info s) ∨
    (spectrumChecks s = none ∧ ∃ window frames, spectrumWindow s = some window ∧
      collectFrom (frameAt s) 0 (spectrumFrames s) = some frames ∧
      spectrumStage s =
        .done (spectrumWrite s (frames.map (spectrumRow s.cfg.frameSize.toNat window)))) ∨
    (spectrumChecks s = none ∧
      (spectrumWindow s = none ∨ collectFrom (frameAt s) 0 (spectrumFrames s) = none) ∧
      spectrumStage s = .fault .unwrittenWord) := by
  unfold spectrumStage
  cases hc : spectrumChecks s with
  | some e => exact .inl ⟨e.1, e.2, rfl, rfl⟩
  | none =>
    cases hs : spectrumWindow s <;> cases hk : collectFrom (frameAt s) 0 (spectrumFrames s) <;> simp

/-- PEAKS fails a check, or writes its outputs, or meets a never-written word. -/
theorem peaksStage_cases (s : State) :
    (∃ code info, peaksChecks s = some (code, info) ∧ peaksStage s = .error code info s) ∨
    (peaksChecks s = none ∧ ∃ entries, collectFrom (specAt s.mem) 0 (peakEntries s) = some entries ∧
      peaksStage s = .done (peaksWrite s
        (allPeaks s.len.numFrames.toNat s.len.numBins.toNat s.cfg.numBands.toNat entries))) ∨
    (peaksChecks s = none ∧ collectFrom (specAt s.mem) 0 (peakEntries s) = none ∧
      peaksStage s = .fault .unwrittenWord) := by
  unfold peaksStage
  cases hc : peaksChecks s with
  | some e => exact .inl ⟨e.1, e.2, rfl, rfl⟩
  | none => cases hk : collectFrom (specAt s.mem) 0 (peakEntries s) <;> simp

/-- HASH fails its check, or writes its hashes, or fills the hash RAM, or meets a never-written word. -/
theorem hashStage_cases (s : State) :
    (∃ code info, hashChecks s = some (code, info) ∧ hashStage s = .error code info s) ∨
    (hashChecks s = none ∧ ∃ ps, collectFrom (peakKeyAt s.mem) 0 s.len.numPeaks.toNat = some ps ∧
      ((∃ hs, hashScan s.cfg.targetZone.toNat s.caps.hashes.toNat ps = (none, hs) ∧
        hashStage s = .done (hashWrite s hs)) ∨
      (∃ i hs, hashScan s.cfg.targetZone.toNat s.caps.hashes.toNat ps = (some i, hs) ∧
        hashStage s = .error .capHashes (BitVec.ofNat 32 i) (hashWrite s hs)))) ∨
    (hashChecks s = none ∧ collectFrom (peakKeyAt s.mem) 0 s.len.numPeaks.toNat = none ∧
      hashStage s = .fault .unwrittenWord) := by
  unfold hashStage
  cases hc : hashChecks s with
  | some e => exact .inl ⟨e.1, e.2, rfl, rfl⟩
  | none =>
    cases hk : collectFrom (peakKeyAt s.mem) 0 s.len.numPeaks.toNat with
    | none => simp
    | some ps =>
      rcases hh : hashScan s.cfg.targetZone.toNat s.caps.hashes.toNat ps with ⟨_ | i, hs⟩ <;> simp [hh]

/-- The state a stage leaves, if it answers one. -/
def StageResult.state? : StageResult → Option State
  | .done s => some s
  | .error _ _ s => some s
  | .fault _ => none

/-- A stage leaves everything but the RAMs and the length registers. -/
def StageKeeps (rule : State → StageResult) : Prop :=
  ∀ s t, (rule s).state? = some t → t = { s with mem := t.mem, len := t.len }

theorem filterStage_keeps : StageKeeps filterStage := by
  intro s t h
  rcases filterStage_cases s with ⟨_, _, -, e⟩ | ⟨-, _, _, -, -, e⟩ | ⟨-, -, e⟩ <;> rw [e] at h <;>
    simp only [StageResult.state?, Option.some.injEq, reduceCtorEq] at h <;> subst h <;> rfl

theorem spectrumStage_keeps : StageKeeps spectrumStage := by
  intro s t h
  rcases spectrumStage_cases s with ⟨_, _, -, e⟩ | ⟨-, _, _, -, -, e⟩ | ⟨-, -, e⟩ <;> rw [e] at h <;>
    simp only [StageResult.state?, Option.some.injEq, reduceCtorEq] at h <;> subst h <;> rfl

theorem peaksStage_keeps : StageKeeps peaksStage := by
  intro s t h
  rcases peaksStage_cases s with ⟨_, _, -, e⟩ | ⟨-, _, -, e⟩ | ⟨-, -, e⟩ <;> rw [e] at h <;>
    simp only [StageResult.state?, Option.some.injEq, reduceCtorEq] at h <;> subst h <;> rfl

theorem hashStage_keeps : StageKeeps hashStage := by
  intro s t h
  rcases hashStage_cases s with ⟨_, _, -, e⟩ | ⟨-, _, -, ⟨_, -, e⟩ | ⟨_, _, -, e⟩⟩ | ⟨-, -, e⟩ <;>
    rw [e] at h <;> simp only [StageResult.state?, Option.some.injEq, reduceCtorEq] at h <;>
    subst h <;> rfl

/-! ### The sequencer -/

/-- What a core step can answer: the stage STATUS.STAGE of the list ran, and the sequencer moved on or
the error completion ended the command, or the stage faulted; or no stage of the list is running. -/
theorem coreStep_cases (stages : StageList) (s : State) :
    (∃ pre rule rest, stages = pre ++ (s.status.stage, rule) :: rest ∧
      ((∃ t, rule s = .done t ∧ coreStep stages s = .next (afterStage rest t)) ∨
      (∃ code info t, rule s = .error code info t ∧
        coreStep stages s = .next (t.errorCompletion code info)) ∨
      (∃ r, rule s = .fault r ∧ coreStep stages s = .fault r))) ∨
    ((∀ p ∈ stages, p.1 ≠ s.status.stage) ∧ coreStep stages s = .fault .noStageRunning) := by
  induction stages with
  | nil => exact .inr ⟨by simp, rfl⟩
  | cons p stages ih =>
    obtain ⟨st, rule⟩ := p
    by_cases h : s.status.stage = st
    · refine .inl ⟨[], rule, stages, by simp [h], ?_⟩
      simp only [coreStep, if_pos h]
      cases rule s <;> simp
    · have hstep : coreStep ((st, rule) :: stages) s = coreStep stages s := by
        simp only [coreStep, if_neg h]
      rw [hstep]
      rcases ih with ⟨pre, rule', rest, e, hc⟩ | ⟨hn, hc⟩
      · exact .inl ⟨(st, rule) :: pre, rule', rest, by simp [e], hc⟩
      · exact .inr ⟨by simpa [Ne.symm h, eq_comm] using hn, hc⟩

theorem runCommand_idle (op : BitVec 8) (first : Stage) (stages : StageList) (s : State)
    (h : s.status.busy = false) : runCommand op first stages s = .next (s.accept op first) := by
  simp [runCommand, h]

theorem runCommand_executing (op : BitVec 8) (first : Stage) (stages : StageList) (s : State)
    (h : s.status.busy = true) (hop : s.status.lastOp = op) :
    runCommand op first stages s = coreStep stages s.newEpoch := by
  simp [runCommand, h, hop]

theorem runCommand_dropped (op : BitVec 8) (first : Stage) (stages : StageList) (s : State)
    (h : s.status.busy = true) (hop : s.status.lastOp ≠ op) :
    runCommand op first stages s = .next (s.accError cmdOffset) := by
  simp [runCommand, h, hop]

/-! ### The host port -/

/-- A read leaves the state as it was, or is refused with an access error and answers 0 (R84, R88). -/
theorem memRead_cases (a : Offset) (s : State) :
    (memRead a s).2 = s ∨ ((memRead a s).2 = s.accError a ∧ (memRead a s).1 = 0) := by
  simp only [memRead, csrRead]
  split_ifs
  · exact .inr ⟨rfl, rfl⟩
  · cases csrAt a
    · exact .inr ⟨rfl, rfl⟩
    · exact .inl rfl
  · cases locate s.caps a.toNat
    · exact .inr ⟨rfl, rfl⟩
    · exact .inr ⟨rfl, rfl⟩
  · cases locate s.caps a.toNat
    · exact .inr ⟨rfl, rfl⟩
    · exact .inl rfl

/-- A write to a register that is neither CTRL nor CMD never stops the machine. -/
theorem csrWrite_cases (r : Csr) (v : Word) (s : State) :
    (r = .ctrl ∧ csrWrite r v s = writeCtrl v s) ∨ (r = .cmd ∧ csrWrite r v s = writeCmd v s) ∨
    (r = .status ∧ csrWrite r v s = .next (s.acknowledge v)) ∨
    (r = .irqEn ∧ csrWrite r v s = .next { s with irqEn := IrqEnable.ofWord v }) ∨
    (r.busyRefused = true ∧ s.status.busy = false ∧ csrWrite r v s = .next (csrStore s v r)) ∨
    ((r.busyRefused = false ∨ s.status.busy = true) ∧ r ∉ [.ctrl, .cmd, .status, .irqEn] ∧
      csrWrite r v s = .next (s.accError r.offset)) := by
  cases hb : s.status.busy <;> cases r <;> simp [csrWrite, Csr.busyRefused, hb]

theorem writeCtrl_eq (w : Word) (s : State) :
    writeCtrl w s = .next (if w.getLsbD 0 then s.softReset else s) := by
  simp only [writeCtrl, decode, decodeCtrl]
  split_ifs <;> rfl

/-- What a write can do (R85). -/
theorem memWrite_cases (a : Offset) (v : Word) (s : State) :
    memWrite a v s = .next (s.accError a) ∨
    (∃ r, csrAt a = some r ∧ memWrite a v s = csrWrite r v s) ∨
    (s.status.busy = false ∧ 0xFFF < a.toNat ∧ a.toNat % 4 = 0 ∧ (locate s.caps a.toNat).isSome ∧
      memWrite a v s = .next { s with mem := memPutWord s.mem a.toNat v }) := by
  unfold memWrite
  by_cases h₁ : a.toNat % 4 ≠ 0
  · exact .inl (by rw [if_pos h₁])
  by_cases h₂ : a.toNat ≤ 0xFFF
  · rw [if_neg h₁, if_pos h₂]
    cases hr : csrAt a with
    | none => exact .inl rfl
    | some r => exact .inr (.inl ⟨r, rfl, rfl⟩)
  · rw [if_neg h₁, if_neg h₂]
    cases hl : locate s.caps a.toNat with
    | none => exact .inl rfl
    | some r =>
      cases hb : s.status.busy
      · exact .inr (.inr ⟨rfl, by omega, by simpa using h₁, rfl, by simp⟩)
      · exact .inl (by simp)

/-! ### The step -/

theorem step_core_nil (s : State) (h : s.sched = []) : step s = coreMove (s.advance []) := by
  simp [step, takeMove, h]

theorem step_core (s : State) (rest : List Move) (h : s.sched = .core :: rest) :
    step s = coreMove (s.advance rest) := by simp [step, takeMove, h]

theorem step_host (s : State) (acc : Access) (rest : List Move) (h : s.sched = .host acc :: rest) :
    step s = hostMove acc (s.advance rest) := by simp [step, takeMove, h]

/-- A step is a move of the core or of the host, in the state in which the move is made. -/
theorem step_cases (s : State) :
    (∃ rest, step s = coreMove (s.advance rest)) ∨
    (∃ acc rest, s.sched = .host acc :: rest ∧ step s = hostMove acc (s.advance rest)) := by
  unfold step takeMove
  rcases s.sched with _ | ⟨_ | _, rest⟩
  · exact .inl ⟨_, rfl⟩
  · exact .inr ⟨_, _, rfl, rfl⟩
  · exact .inl ⟨_, rfl⟩

end Sys2Proof.Machine
end

