-- ==== Sys2Proof/Laws/PerInstr.lean ====
section
/-! SUPPORT. Per-instruction statements: the family TableRow says that an instruction's word fits its row
of spec/opcode_table.json. -/

namespace Sys2Proof.Laws.TableRow

/-- The row's `match` of an instruction (spec/opcode_table.json). -/
def pattern : Instr → Word
  | .nop => 0x00000000
  | .run => 0x00000001
  | .filter => 0x00000002
  | .spectrum => 0x00000003
  | .peaks => 0x00000004
  | .hash => 0x00000005
  | .srst => 0x00000001

/-- The instruction's word has the row's pattern in the bits the row's mask fixes, and every word with
that pattern there, written to the row's register, is that instruction (R101, R102, R106). -/
def Statement (i : Instr) : Prop :=
  encode i &&& i.mask = pattern i ∧
    ∀ w : Word, w &&& i.mask = pattern i → decode i.reg w = .ok i

theorem eq_of_mask_all {w p : Word} (h : w &&& (0xFFFFFFFF : Word) = p) : w = p := by
  rwa [show (0xFFFFFFFF : Word) = BitVec.allOnes 32 from rfl, BitVec.and_allOnes] at h

theorem nop : Statement .nop :=
  ⟨rfl, fun w h => by rw [eq_of_mask_all h]; rfl⟩

theorem run : Statement .run :=
  ⟨rfl, fun w h => by rw [eq_of_mask_all h]; rfl⟩

theorem filter : Statement .filter :=
  ⟨rfl, fun w h => by rw [eq_of_mask_all h]; rfl⟩

theorem spectrum : Statement .spectrum :=
  ⟨rfl, fun w h => by rw [eq_of_mask_all h]; rfl⟩

theorem peaks : Statement .peaks :=
  ⟨rfl, fun w h => by rw [eq_of_mask_all h]; rfl⟩

theorem hash : Statement .hash :=
  ⟨rfl, fun w h => by rw [eq_of_mask_all h]; rfl⟩

theorem srst : Statement .srst :=
  ⟨rfl, fun w h => by
    have h₀ : w.getLsbD 0 = true := by
      have := congrArg (fun v => BitVec.getLsbD v 0) h
      simpa [Instr.mask, pattern] using this
    simp only [Instr.reg, decode, decodeCtrl, h₀, if_true]⟩

end Sys2Proof.Laws.TableRow
end

