-- ==== Sys2Proof/Tests/Slice0.lean ====
section
/-! SUPPORT. The model's own tests: the ill-formed instances, the words of the encoding, vectors of
spec/95_test_vectors.md, and a witness for the hypotheses of every statement that has some. -/

namespace Sys2Proof.Tests

set_option Elab.async false

open Sys2Proof Sys2Proof.Machine

/-! ### Helpers -/

/-- A view of the next state of an outcome. -/
def after {α : Type} (o : Host.Outcome State Fault Refusal) (view : State → α) : Option α :=
  match o with
  | .next s => some (view s)
  | .fault _ => none
  | .refused _ => none

/-- The fault of an outcome. -/
def faultOf (o : Host.Outcome State Fault Refusal) : Option Fault :=
  match o with
  | .next _ => none
  | .fault r => some r
  | .refused _ => none

/-- The state of an outcome, or else the reset state. -/
def nextOr (o : Host.Outcome State Fault Refusal) : State :=
  match o with
  | .next s => s
  | .fault _ => State.reset
  | .refused _ => State.reset

/-- The state a stage leaves, or else the reset state. -/
def doneOr (r : StageResult) : State :=
  match r with
  | .done s => s
  | .error _ _ s => s
  | .fault _ => State.reset

/-- STATUS and ERRINFO. -/
def report (s : State) : Word × Word := (s.status.word, s.errInfo)

/-- The reset state with the command `i` executing at the stage `st`. -/
def executing (i : Instr) (st : Stage) : State :=
  { State.reset with status := { Status.reset with busy := true, stage := st, lastOp := i.opcode } }

/-- The state with samples, taps and equal rates set up for FILTER. -/
def filterState (i : Instr) (samples : List Word) (n : Word) (k : List F64) : State :=
  let s := executing i .filter
  { s with
    cfg := { s.cfg with sampleRate := 11025, numSamples := n, numTaps := BitVec.ofNat 32 k.length }
    mem := memPutWords (memPutF64s [] Ram.kernel.base k) Ram.sample.base samples }

/-- The state with a signal and a window set up for SPECTRUM. -/
def spectrumState (i : Instr) (signal window : List F64) (hop : Word) : State :=
  let s := executing i .spectrum
  { s with
    cfg := { s.cfg with frameSize := BitVec.ofNat 32 window.length, hopSize := hop }
    len := { s.len with sigLen := BitVec.ofNat 32 signal.length }
    mem := memPutF64s (memPutF64s [] Ram.window.base window) Ram.signal.base signal }

/-- The state with a spectrogram set up for PEAKS. -/
def peaksState (i : Instr) (entries : List F64) (frames bins bands : Word) : State :=
  let s := executing i .peaks
  { s with
    cfg := { s.cfg with numBands := bands }
    len := { s.len with numFrames := frames, numBins := bins }
    mem := memPutF64s [] Ram.spec.base entries }

/-- The state with peak records `(FRAME, BIN)`, each of magnitude 1.0, set up for HASH. -/
def hashState (i : Instr) (peaks : List (Word × Word)) (tz : Word) : State :=
  let s := executing i .hash
  { s with
    cfg := { s.cfg with targetZone := tz }
    len := { s.len with numPeaks := BitVec.ofNat 32 peaks.length }
    mem := memPutWords [] Ram.peak.base (peaks.flatMap (fun p => [p.1, p.2, 0, 0x3FF00000])) }

/-! ### Well-formedness: an ill-formed term for each check of R7 -/

theorem test_wf_reference : Config.reference.wf = true := by decide
theorem test_wf_instr : Instr.wf .run = true ∧ Instr.wf .srst = true := by decide
theorem test_wf_samples : Caps.wf { Config.reference with samples := 3 } = false ∧
    Caps.wf { Config.reference with samples := 0x800002 } = false := by decide
theorem test_wf_taps : Caps.wf { Config.reference with taps := 0 } = false ∧
    Caps.wf { Config.reference with taps := 8193 } = false := by decide
theorem test_wf_frame : Caps.wf { Config.reference with frame := 1000 } = false ∧
    Caps.wf { Config.reference with frame := 1 } = false := by decide
theorem test_wf_signal : Caps.wf { Config.reference with signal := 0x200001 } = false := by decide
theorem test_wf_spec : Caps.wf { Config.reference with spec := 0 } = false := by decide
theorem test_wf_peaks : Caps.wf { Config.reference with peaks := 0x100001 } = false := by decide
theorem test_wf_hashes : Caps.wf { Config.reference with hashes := 0x400001 } = false := by decide
theorem test_wf_lanes : Caps.wf { Config.reference with lanes := 256 } = false := by decide

/-! ### Encoding: words written out from R100, R101 and R106 (RSV, then OP) -/

theorem test_decode_nop : decode .cmd (0x000000#24 ++ 0b00000000#8) = .ok .nop := by decide
theorem test_decode_run : decode .cmd (0x000000#24 ++ 0b00000001#8) = .ok .run := by decide
theorem test_decode_filter : decode .cmd (0x000000#24 ++ 0b00000010#8) = .ok .filter := by decide
theorem test_decode_spectrum : decode .cmd (0x000000#24 ++ 0b00000011#8) = .ok .spectrum := by decide
theorem test_decode_peaks : decode .cmd (0x000000#24 ++ 0b00000100#8) = .ok .peaks := by decide
theorem test_decode_hash : decode .cmd (0x000000#24 ++ 0b00000101#8) = .ok .hash := by decide
theorem test_decode_srst : decode .ctrl 0x00000001 = .ok .srst ∧
    decode .ctrl 0xFFFFFFFE = .error .noControl := by decide
theorem test_decode_illegal : decode .cmd 0x00000107 = .error .reservedBits ∧
    decode .cmd 0x00000006 = .error .reservedOpcode := by decide
theorem test_decode_bytes : decodeBytes .cmd [0x03, 0x00, 0x00, 0x00] = .ok (.spectrum, []) ∧
    decodeBytes .cmd [0x00, 0x00, 0x00, 0x03] = .error .reservedBits := by decide
theorem test_table_words : (List.range 6).map (decodeTableWord 32) =
    [some .nop, some .run, some .filter, some .spectrum, some .peaks, some .hash] ∧
    decodeTableWord 8 1 = some .srst ∧ decodeTableWord 32 6 = none := by decide
/-- Each table word runs as the first instruction after reset: STATUS by R120 to R122 and R131. -/
theorem test_first_instruction :
    (List.range 6).map (fun w => after (step (State.reset.withFetchWord 32 w)) (·.status.word)) =
      [some 0x00000002, some 0x00010011, some 0x00020011, some 0x00030021, some 0x00040031,
        some 0x00050041] ∧
    after (step (State.reset.withFetchWord 8 1)) (·.status.word) = some 0 := by decide

/-! ### Commands and the sequencer (95_test_vectors.md section 2) -/

/-- V-C1. -/
theorem test_vc1 : after (memWrite 0x00C 0x00000000 State.reset) report = some (0x00000002, 0) := by
  decide
/-- V-C12: NOP clears ERRINFO (log 18). -/
theorem test_vc12 : after (memWrite 0x00C 0 (nextOr (memWrite 0x00C 0x00000107 State.reset))) report =
    some (0x00000002, 0) := by decide
/-- V-C3. -/
theorem test_vc3 :
    after (memWrite 0x00C 0x00000107 State.reset) report = some (0x00070106, 0x00000107) := by decide
/-- V-C7: the core step after V-C6. -/
theorem test_vc7 :
    after (step (nextOr (memWrite 0x00C 0x00000001 State.reset))) report = some (0x00010216, 0) := by
  decide
/-- V-C8. -/
theorem test_vc8 : after (memWrite 0x00C 0x00000002 (nextOr (memWrite 0x00C 0x00000001 State.reset)))
    (fun s => (s.status.word, s.accAddr)) = some (0x00010019, 0x00C) := by decide
/-- V-C9 and V-C10. -/
theorem test_vc9 : after (memWrite 0x008 0x00000004 (nextOr (memWrite 0x00C 0x00000107 State.reset)))
      report = some (0x00070102, 0x107) ∧
    after (memWrite 0x008 0x0000000E (nextOr (memWrite 0x00C 0x00000107 State.reset)))
      report = some (0x00070100, 0x107) := by decide
/-- The start of V-C11: busy in FILTER, ACCERR set, TARGET_RATE 8000, IRQ_EN 7, and one SIGNAL entry. -/
def abortState : State :=
  let s := executing .run .filter
  { s with
    status := { s.status with accErr := true }
    cfg := { s.cfg with targetRate := 8000 }
    irqEn := ⟨true, true, true⟩
    accAddr := 0x00C
    mem := memPutF64s [] Ram.signal.base [0x3FF0000000000000] }

/-- V-C11: the registers and `irq`. -/
theorem test_vc11 : after (memWrite 0x004 0x00000001 abortState)
    (fun s => (s.status.word, s.cfg.targetRate, s.irqEn.word, s.irq)) =
      some (0, 0x2B11, 0, false) := by decide +kernel
/-- V-C11: the output RAM of stage 1 no longer holds its entry. -/
theorem test_vc11_ram : signalAt abortState.mem 0 = some 0x3FF0000000000000 ∧
    after (memWrite 0x004 0x00000001 abortState) (fun s => signalAt s.mem 0) = some none := by
  decide +kernel

/-! ### FILTER (sections 1 and 3) -/

/-- V-F1. -/
theorem test_vf1 :
    after (exec .filter (filterState .filter [0x00020001, 0x00040003, 0x00000005] 5
        [0x3FD5555555555555, 0x3FD5555555555555, 0x3FD5555555555555]))
      (fun s => ((List.range 5).map (signalAt s.mem), s.len.sigLen, s.len.decim, s.status.word)) =
      some ([some 0x3F00000000000000, some 0x3F10000000000000, some 0x3F18000000000000,
        some 0x3F1FFFFFFFFFFFFF, some 0x3F18000000000000], 5, 1, 0x00020012) := by decide +kernel
/-- V-F5. -/
theorem test_vf5 :
    after (exec .filter (filterState .filter [0xFFFF8000, 0x00010000, 0x00007FFF] 5
        [0, 0x3FF0000000000000, 0])) (fun s => (List.range 5).map (signalAt s.mem)) =
      some [some 0xBFF0000000000000, some 0xBF00000000000000, some 0, some 0x3F00000000000000,
        some 0x3FEFFFC000000000] := by decide +kernel

/-! ### SPECTRUM (sections 1 and 4) -/

/-- V-S1. -/
theorem test_vs1 :
    after (exec .spectrum (spectrumState .spectrum
        (List.replicate 4 0x3FF0000000000000 ++ List.replicate 4 0x4000000000000000)
        (List.replicate 4 0x4000000000000000) 4))
      (fun s => ((List.range 6).map (specAt s.mem), s.len.numFrames, s.len.numBins)) =
      some ([some 0x4020000000000000, some 0, some 0, some 0x4030000000000000, some 0, some 0], 2, 3) := by
  decide +kernel
/-- V-S6. -/
theorem test_vs6 :
    after (exec .spectrum (spectrumState .spectrum
        [0x3FF0000000000000, 0x4000000000000000, 0x4008000000000000, 0x4010000000000000,
          0x4014000000000000, 0x4018000000000000, 0x401C000000000000, 0x4020000000000000]
        (List.replicate 8 0x3FF0000000000000) 8))
      (fun s => (List.range 5).map (specAt s.mem)) =
      some [some 0x4042000000000000, some 0x4024E7AE9144F0FC, some 0x4016A09E667F3BCD,
        some 0x4011517A7BDB3895, some 0x4010000000000000] := by decide +kernel

/-! ### PEAKS (sections 1 and 5) -/

/-- V-P1. -/
theorem test_vp1 :
    after (exec .peaks (peaksState .peaks
        [0x3FF0000000000000, 0x4000000000000000, 0x4008000000000000, 0x4004000000000000] 1 4 2))
      (fun s => (s.len.numPeaks, (List.range 8).map (fun w => memWord s.mem (0x8000000 + 4 * w)))) =
      some (2, [some 0, some 1, some 0x00000000, some 0x40000000, some 0, some 2, some 0x00000000,
        some 0x40080000]) := by decide +kernel
/-- V-P4: a NaN in the first bin of the band is never replaced. -/
theorem test_vp4 :
    after (exec .peaks (peaksState .peaks
        [0x7FF8000000000000, 0x3FF0000000000000, 0x4000000000000000] 1 3 1))
      (fun s => (s.len.numPeaks, peakBinAt s.mem 0, peakMagAt s.mem 0)) =
      some (1, some 0, some 0x7FF8000000000000) := by decide +kernel

/-! ### HASH (sections 1 and 6) -/

/-- V-H2: both clips. -/
theorem test_vh2 :
    after (exec .hash (hashState .hash [(0, 600), (20000, 5)] 30000))
      (fun s => (s.len.numHashes, hashAt s.mem 0)) = some (1, some 0xFF817FFF) := by decide +kernel
/-- V-H10: the hash RAM is full. -/
theorem test_vh10 :
    after (exec .hash { hashState .hash [(0, 1), (0, 2), (0, 3)] 0 with
        caps := { Config.reference with hashes := 2 } })
      (fun s => (s.len.numHashes, hashAt s.mem 0, hashAt s.mem 1, hashAt s.mem 2, report s)) =
      some (2, some 0x00808000, some 0x0080C000, none, (0x00051546, 1)) := by decide +kernel

/-! ### Host access (section 7) -/

/-- V-A1 to V-A5: STATUS and ACCADDR after each. -/
theorem test_va : (memRead 0x000 State.reset).1 = 0x41465031 ∧
    memRead 0x002 State.reset = (0, State.reset.accError 0x002) ∧
    memRead 0x01C State.reset = (0, State.reset.accError 0x01C) ∧
    memRead 0xA000000 State.reset = (0, State.reset.accError 0xA000000) ∧
    (State.reset.accError 0x01C).status.word = 0x00000008 := by decide
/-- `WRF64 KERNEL[1], 1.0` (R110): the two accesses. -/
theorem test_wrf64 : (HostStmt.wrF64Kernel 1 0x3FF0000000000000).expand =
    [.write 0x0010008 0x00000000, .write 0x001000C 0x3FF00000] := by decide
/-- `WRS16 2, -1, 1` (R110): one word, the first sample in the low half. -/
theorem test_wrs16 : (HostStmt.wrS16 2 0xFFFF 1).expand = [.write 0x1000008 0x0001FFFF] := by decide

/-! ### Witnesses: for each statement with hypotheses, a concrete case that meets all of them, and one for
each clause at its boundary -/

theorem wit_DecodeCommandWordIff :
    (0x00000100 : Word).extractLsb' 8 24 ≠ 0 ∧
    ((0x00000006 : Word).extractLsb' 8 24 = 0 ∧ 5 < ((0x00000006 : Word).extractLsb' 0 8).toNat) ∧
    ((0x000000FF : Word).extractLsb' 8 24 = 0 ∧ 5 < ((0x000000FF : Word).extractLsb' 0 8).toNat) := by
  decide
theorem wit_DecodeBytesAgree : ([0x01, 0x00, 0x00] : List Byte).length < 4 ∧
    ([] : List Byte).length < 4 := by decide
theorem wit_ControlWordResets : (0x00000001 : Word).getLsbD 0 = true ∧
    (0xFFFFFFFE : Word).getLsbD 0 = false := by decide
theorem wit_ConstantRegisters : ∃ t, step State.reset = .next t := ⟨_, rfl⟩
theorem wit_ReservedCsrOffsets : ([0x01C, 0x058, 0x05C, 0x080, 0xFFC] : List Offset).all (fun a =>
    decide (a.toNat % 4 = 0 ∧ a.toNat ≤ 0xFFC ∧
      (a = 0x01C ∨ a = 0x058 ∨ a = 0x05C ∨ 0x080 ≤ a.toNat))) = true := by decide +kernel
theorem wit_IdleRegisterWrite : State.reset.status.busy = false ∧
    (0x024 : Offset) ≠ 0x020 ∧ (0x050 : Offset) ≠ 0x020 := by decide
theorem wit_BusyRegisterRule : (executing .run .filter).status.busy = true ∧
    ∃ t, step (executing .run .filter) = .next t := ⟨rfl, _, rfl⟩
/-- The soft reset alternative of BusyRegisterRule. -/
theorem wit_BusyRegisterRule_reset : abortState.status.busy = true ∧
    ∃ t, step { abortState with sched := [.host (.write 0x004 1)] } = .next t := ⟨rfl, _, rfl⟩
theorem wit_AddressMap :
    ([0x0001000, 0x0012000, 0xA000000, 0xFFFFFFC] : List Offset).all (fun a =>
      decide (a.toNat % 4 = 0 ∧ 0xFFF < a.toNat ∧ locate State.reset.caps a.toNat = none)) = true ∧
    ((Ram.kernel, 0x0010000, 0x001FFFF, 8, 1024) ∈ regionTable Config.reference ∧
      0x0010000 ≤ 0x11FFF ∧ 0x11FFF ≤ 0x001FFFF ∧ (0x11FFF - 0x0010000) / 8 < 1024) := by
  decide +kernel
theorem wit_RefusedAccesses : (0x002 : Offset).extractLsb' 0 2 ≠ 0 ∧
    ((executing .run .filter).status.busy = true ∧
      (locate (executing .run .filter).caps (0x1000000 : Offset).toNat).isSome = true) := by decide +kernel
theorem wit_RamReadAfterWrite : ([0x0010000, 0x13FFFFC, 0x9FFFFFC] : List Offset).all (fun a =>
    decide (State.reset.status.busy = false ∧ a.toNat % 4 = 0 ∧
      (locate State.reset.caps a.toNat).isSome = true)) = true := by decide +kernel
/-- An idle state with a SIGNAL entry that is there, and one that is not. -/
theorem wit_RamReadAfterWrite_read :
    let s : State := { State.reset with mem := memPutF64s [] Ram.signal.base [0x3FF0000000000000] }
    s.status.busy = false ∧ (0x2000004 : Offset).toNat % 4 = 0 ∧
      (locate s.caps (0x2000004 : Offset).toNat).isSome = true ∧
      memWord s.mem (0x2000004 : Offset).toNat = some 0x3FF00000 ∧
      (locate s.caps (0x2000008 : Offset).toNat).isSome = true ∧
      memWord s.mem (0x2000008 : Offset).toNat = none := by decide +kernel
theorem wit_AccessesIdempotent : Memory.wf State.reset.mem = true ∧ (0x010 : Offset) ≠ 0x004 ∧
    (0x010 : Offset) ≠ 0x008 ∧ (0x010 : Offset) ≠ 0x00C ∧
    ∃ t, memWrite 0x010 7 State.reset = .next t := ⟨rfl, by decide, by decide, by decide, _, rfl⟩
/-- Idle, an instance of R7, and the first and last entry of each RAM. -/
theorem wit_HostEntryWrites : State.reset.caps.wf = true ∧ State.reset.status.busy = false ∧
    0 < State.reset.caps.taps.toNat ∧ 1023 < State.reset.caps.taps.toNat ∧
    1023 < State.reset.caps.frame.toNat ∧ 2097151 < State.reset.caps.signal.toNat ∧
    8388607 < State.reset.caps.spec.toNat ∧ 2 * 1048575 < State.reset.caps.samples.toNat := by decide
/-- The host's moves: a read, a write, a WAIT that holds and one that does not, and the idle core. -/
theorem wit_StepRunsInstruction_host :
    ({ State.reset with sched := [.host (.read 0x000)] } : State).sched = .host (.read 0x000) :: [] ∧
    ({ State.reset with sched := [.host (.write 0x020 7)] } : State).sched =
      .host (.write 0x020 7) :: [] ∧
    (({ State.reset with sched := [.host (.wait 0x008 3 2)] } : State).sched =
        .host (.wait 0x008 3 2) :: [] ∧ (memRead 0x008 State.reset).1 &&& 3 ≠ 2) ∧
    (memRead 0x008 (State.reset.nopDone 0)).1 &&& 3 = 2 ∧
    (State.reset.sched = [] ∧ State.reset.status.busy = false) := by decide
/-- The four clauses: a CMD write, a CTRL write, a move of the core, a table word. -/
theorem wit_StepRunsInstruction :
    (({ State.reset with sched := [.host (.write 0x00C 2)] } : State).sched =
        .host (.write 0x00C 2) :: [] ∧ State.reset.status.busy = false ∧
      decode .cmd 2 = .ok .filter) ∧
    (({ State.reset with sched := [.host (.write 0x004 1)] } : State).sched =
        .host (.write 0x004 1) :: [] ∧ decode .ctrl 1 = .ok .srst) ∧
    ((executing .hash .hash).sched = [] ∧ (executing .hash .hash).status.busy = true ∧
      decode .cmd ((executing .hash .hash).status.lastOp.setWidth 32) = .ok .hash ∧
      Instr.hash ≠ .nop) ∧
    (decodeTableWord 32 1 = some .run ∧ decodeTableWord 8 1 = some .srst) := by decide
theorem wit_NopCompletes : State.reset.status.busy = false ∧
    ({ State.reset with irqEn := ⟨true, false, false⟩ } : State).irqEn.doneIe = true := by decide
theorem wit_StageCommandAccepted : abortState.softReset.status.busy = false := by decide
theorem wit_IllegalWordRefused : State.reset.status.busy = false ∧
    (0x00000107 : Word).extractLsb' 8 24 ≠ 0 ∧
    0x06 ≤ ((0x00000006 : Word).extractLsb' 0 8).toNat := by decide
theorem wit_BusyCommandDropped : (executing .run .spectrum).status.busy = true := by decide
/-- The last byte of SIGNAL, and the bytes beside the region. -/
theorem wit_SoftResetLeaves : abortState.Aborts 0x2FFFFFF ∧ ¬abortState.Aborts 0x3000000 ∧
    ¬abortState.Aborts 0x1FFFFFF ∧ ¬State.reset.Aborts 0x2000000 := by decide

/-! #### The stages -/

/-- One sample, one tap. -/
def oneSample (i : Instr) : State := filterState i [0x00000064] 1 [0x3FF0000000000000]

/-- Two frames of two entries, window 1.0. -/
def twoFrames (i : Instr) : State :=
  spectrumState i [0x3FF0000000000000, 0x4000000000000000, 0x4008000000000000, 0x4010000000000000]
    [0x3FF0000000000000, 0x3FF0000000000000] 2

/-- A spectrogram of one frame of three bins. -/
def threeBins (i : Instr) : State :=
  peaksState i [0x3FF0000000000000, 0x4000000000000000, 0x4008000000000000] 1 3 2

/-- The peaks of V-H1. -/
def twoPeaks (i : Instr) : State := hashState i [(10, 100), (15, 200)] 10

theorem wit_RunStageEqualsSingle :
    (State.Executing (oneSample .filter) .filter .filter ∧
      (after (exec .filter (oneSample .filter)) (fun _ => ())).isSome = true) ∧
    (State.Executing (twoFrames .spectrum) .spectrum .spectrum ∧
      (after (exec .spectrum (twoFrames .spectrum)) (fun _ => ())).isSome = true) ∧
    (State.Executing (threeBins .peaks) .peaks .peaks ∧
      (after (exec .peaks (threeBins .peaks)) (fun _ => ())).isSome = true) ∧
    (State.Executing (twoPeaks .hash) .hash .hash ∧
      (after (exec .hash (twoPeaks .hash)) (fun _ => ())).isSome = true) := by decide +kernel

/-- A whole RUN: four samples of one tap, frames of two entries. -/
def wholeRun : State :=
  let s := filterState .run [0x40000000, 0xC0002000] 4 [0x3FF0000000000000]
  { s with
    cfg := { s.cfg with frameSize := 2, hopSize := 1, numBands := 1 }
    mem := memPutF64s s.mem Ram.window.base [0x3FF0000000000000, 0x3FF0000000000000] }

/-- `wholeRun` after its FILTER, and so on. -/
def run1 : State := doneOr (filterStage wholeRun.newEpoch)
def run2 : State := doneOr (spectrumStage (run1.enterStage .spectrum).newEpoch)
def run3 : State := doneOr (peaksStage (run2.enterStage .peaks).newEpoch)
def run4 : State := doneOr (hashStage (run3.enterStage .hash).newEpoch)

theorem wit_RunCompletesInFourSteps :
    wholeRun.Executing .run .filter ∧ wholeRun.sched = [] ∧ wholeRun.rsp = none ∧
    filterStage wholeRun.newEpoch = .done run1 ∧
    spectrumStage (run1.enterStage .spectrum).newEpoch = .done run2 ∧
    peaksStage (run2.enterStage .peaks).newEpoch = .done run3 ∧
    hashStage (run3.enterStage .hash).newEpoch = .done run4 := by decide +kernel
/-- R161, R194, R207 by hand: three frames, one peak each, three pairs. -/
theorem test_whole_run : (run4.len.numFrames, run4.len.numPeaks, run4.len.numHashes) = (3, 3, 3) := by
  decide +kernel
theorem wit_CommandsEnd : wholeRun.SequencerOk ∧ wholeRun.status.busy = true ∧ wholeRun.sched = [] := by
  decide +kernel
/-- The faulting end of CommandsEnd: FILTER with a sample never written. -/
theorem wit_CommandsEnd_fault : (filterState .run [] 1 [0x3FF0000000000000]).SequencerOk ∧
    (filterState .run [] 1 [0x3FF0000000000000]).status.busy = true ∧
    (filterState .run [] 1 [0x3FF0000000000000]).sched = [] := by decide +kernel

/-- V-H10's state. -/
def fullHashes (i : Instr) : State :=
  { hashState i [(0, 1), (0, 2), (0, 3)] 0 with caps := { Config.reference with hashes := 2 } }

/-- Both clauses: CFG_TARGET_RATE (V-F14's check) and CAP_HASHES. -/
theorem wit_ErrorsArePrecise :
    ((executing .run .filter).SequencerOk ∧ (executing .run .filter).status.busy = true ∧
      after (exec .run (executing .run .filter)) (fun t => (t.status.err, t.status.errCode)) =
        some (true, .invalidSampleRate)) ∧
    ((fullHashes .run).SequencerOk ∧ (fullHashes .run).status.busy = true ∧
      after (exec .run (fullHashes .run)) (fun t => (t.status.err, t.status.errCode)) =
        some (true, .capHashes)) := by decide +kernel
theorem wit_CoreLeavesHostState :
    (after (coreMove (oneSample .run)) (fun _ => ())).isSome = true := by decide +kernel

/-- The state with other rates, sample and tap counts, on the instance `c`. -/
def filterCfg (c : Caps) (rate target n k : Word) : State :=
  let s := executing .filter .filter
  { s with
    caps := c
    cfg := { s.cfg with sampleRate := rate, targetRate := target, numSamples := n, numTaps := k } }

/-- V-F13 and V-F14. -/
theorem wit_FilterChecksInOrder_rate :
    let s := filterCfg Config.reference 11024 11025 0 0
    let t := filterCfg Config.reference 0 0 0 0
    (s.Executing .filter .filter ∧ s.cfg.sampleRate.toNat < s.cfg.targetRate.toNat) ∧
    (t.Executing .filter .filter ∧ t.cfg.targetRate.toNat ≤ t.cfg.sampleRate.toNat ∧
      t.cfg.targetRate = 0) := by decide
/-- V-F16, V-F17 and V-F18, each at its boundary. -/
theorem wit_FilterChecksInOrder_cap :
    let s := filterCfg Config.reference 1 1 0x200001 0
    let t := filterCfg Config.reference 1 1 0x200000 1025
    let u := filterCfg { Config.reference with signal := 4 } 1 1 5 1024
    (s.Executing .filter .filter ∧ s.cfg.targetRate.toNat ≤ s.cfg.sampleRate.toNat ∧
      s.cfg.targetRate ≠ 0 ∧ s.caps.samples.toNat < s.cfg.numSamples.toNat) ∧
    (t.cfg.targetRate ≠ 0 ∧ t.cfg.numSamples.toNat ≤ t.caps.samples.toNat ∧
      t.caps.taps.toNat < t.cfg.numTaps.toNat) ∧
    (u.cfg.targetRate ≠ 0 ∧ u.cfg.numSamples.toNat ≤ u.caps.samples.toNat ∧
      u.cfg.numTaps.toNat ≤ u.caps.taps.toNat ∧
      u.caps.signal.toNat < (u.cfg.numSamples.toNat + 1 - 1) / 1) := by decide
/-- Every hypothesis of FilterResult, in FILTER and in RUN. -/
theorem wit_FilterResult : ∀ i ∈ [Instr.filter, Instr.run],
    (oneSample i).Executing i .filter ∧
    (oneSample i).cfg.targetRate.toNat ≤ (oneSample i).cfg.sampleRate.toNat ∧
    (oneSample i).cfg.targetRate ≠ 0 ∧
    (oneSample i).cfg.numSamples.toNat ≤ (oneSample i).caps.samples.toNat ∧
    (oneSample i).cfg.numTaps.toNat ≤ (oneSample i).caps.taps.toNat ∧
    (1 + 1 - 1) / 1 ≤ (oneSample i).caps.signal.toNat ∧ (oneSample i).cfg.numSamples.toNat = 1 ∧
    (oneSample i).cfg.numTaps.toNat = 1 ∧ (sampleAt (oneSample i).mem 0).isSome = true ∧
    (kernelAt (oneSample i).mem 0).isSome = true := by decide +kernel

/-- The state with another frame size, hop size and signal length, on the instance `c`. -/
def spectrumCfg (c : Caps) (fs hop len : Word) : State :=
  let s := executing .spectrum .spectrum
  { s with
    caps := c
    cfg := { s.cfg with frameSize := fs, hopSize := hop }
    len := { s.len with sigLen := len } }

/-- V-S18 (too large), V-S17 (too small) and V-S16 (no power of two). -/
theorem wit_SpectrumChecksInOrder_size :
    (spectrumCfg Config.reference 2048 1 0).Executing .spectrum .spectrum ∧
    ¬((spectrumCfg Config.reference 2048 1 0).cfg.frameSize.toNat ≤ Config.reference.frame.toNat) ∧
    ¬(2 ≤ (spectrumCfg Config.reference 1 1 0).cfg.frameSize.toNat) ∧
    isPowerOfTwo (spectrumCfg Config.reference 1000 1 0).cfg.frameSize.toNat = false := by decide
/-- V-S19, V-S21 and V-S22, each at its boundary. -/
theorem wit_SpectrumChecksInOrder_cap :
    let s := spectrumCfg Config.reference 1024 0 0
    let t := spectrumCfg Config.reference 2 1 0x200001
    let u := spectrumCfg { Config.reference with spec := 5 } 4 4 8
    (s.Executing .spectrum .spectrum ∧ s.cfg.frameSize.toNat = 2 ^ 10 ∧
      2 ≤ s.cfg.frameSize.toNat ∧ s.cfg.frameSize.toNat ≤ s.caps.frame.toNat ∧ s.cfg.hopSize = 0) ∧
    (t.cfg.frameSize.toNat = 2 ^ 1 ∧ t.cfg.hopSize ≠ 0 ∧ t.caps.signal.toNat < t.len.sigLen.toNat) ∧
    (u.cfg.frameSize.toNat = 2 ^ 2 ∧ u.cfg.hopSize ≠ 0 ∧ u.len.sigLen.toNat ≤ u.caps.signal.toNat ∧
      u.caps.spec.toNat < spectrumFrames u * spectrumBins u) := by decide
theorem wit_FrameEmittedIffFits : (0 < 1) ∧ (0 : Nat) * 1 + 4 ≤ 4 ∧ ¬((1 : Nat) * 1 + 4 ≤ 4) := by decide
theorem wit_SpectrumResult : ∀ i ∈ [Instr.spectrum, Instr.run],
    (twoFrames i).Executing i .spectrum ∧ (twoFrames i).cfg.frameSize.toNat = 2 ^ 1 ∧ 1 ≤ 1 ∧
    (twoFrames i).cfg.frameSize.toNat ≤ (twoFrames i).caps.frame.toNat ∧
    0 < (twoFrames i).cfg.hopSize.toNat ∧
    (twoFrames i).len.sigLen.toNat ≤ (twoFrames i).caps.signal.toNat ∧
    frameCount 4 2 2 * 2 ≤ (twoFrames i).caps.spec.toNat ∧ frameCount 4 2 2 = 2 ∧
    (∀ g, g < 2 → ∀ n, n < 2 → (signalAt (twoFrames i).mem (g * 2 + n)).isSome = true) ∧
    (∀ n, n < 2 → (windowAt (twoFrames i).mem n).isSome = true) := by decide +kernel
theorem wit_TwiddleTable : (0 < 1) ∧ (0 < 1024) := by decide

/-- The smallest frame size and the largest, each with its last twiddle. -/
theorem wit_TwiddleIsNearest : (1 ≤ 1 ∧ 1 ≤ 13 ∧ 0 < 2 ^ 1 / 2) ∧
    (1 ≤ 13 ∧ 13 ≤ 13 ∧ 4095 < 2 ^ 13 / 2) := by decide
/-- V-P11, V-P13 and V-P12. -/
theorem wit_PeaksChecksInOrder :
    let s := peaksState .peaks [] 2 4 0
    let t := peaksState .peaks [] 0x10000 0x10000 1
    let u : State := { peaksState .peaks [] 2 4 2 with caps := { Config.reference with peaks := 3 } }
    (s.Executing .peaks .peaks ∧ s.cfg.numBands.toNat = 0) ∧
    (t.Executing .peaks .peaks ∧ t.cfg.numBands.toNat ≠ 0 ∧
      t.caps.spec.toNat < t.len.numFrames.toNat * t.len.numBins.toNat) ∧
    (u.Executing .peaks .peaks ∧ u.cfg.numBands.toNat ≠ 0 ∧
      u.len.numFrames.toNat * u.len.numBins.toNat ≤ u.caps.spec.toNat ∧
      u.caps.peaks.toNat < peakCount u) := by decide +kernel
theorem wit_PeaksResult : ∀ i ∈ [Instr.peaks, Instr.run],
    (threeBins i).Executing i .peaks ∧ (threeBins i).cfg.numBands ≠ 0 ∧
    peakEntries (threeBins i) ≤ (threeBins i).caps.spec.toNat ∧
    peakCount (threeBins i) ≤ (threeBins i).caps.peaks.toNat ∧ peakEntries (threeBins i) = 3 ∧
    (∀ e, e < 3 → (specAt (threeBins i).mem e).isSome = true) := by decide +kernel
/-- A band of three bins, and one whose first bin is a NaN. -/
theorem wit_StrongestBin : (0 < 3) ∧ (1 < 2) ∧
    unpack ([0x7FF8000000000000, 0x3FF0000000000000].getD 0 0) = .nan := by decide +kernel
theorem wit_PeaksScanOrder : 0 < 6 := by decide
theorem wit_HashResult : ∀ i ∈ [Instr.hash, Instr.run],
    (twoPeaks i).Executing i .hash ∧ (twoPeaks i).len.numPeaks.toNat ≤ (twoPeaks i).caps.peaks.toNat ∧
    (twoPeaks i).len.numPeaks.toNat = 2 ∧
    (∀ p, p < 2 → (peakFrameAt (twoPeaks i).mem p).isSome = true ∧
      (peakBinAt (twoPeaks i).mem p).isSome = true) ∧
    (unlimitedHashes (twoPeaks i).cfg.targetZone.toNat (peakKeys (twoPeaks i))).length ≤
      (twoPeaks i).caps.hashes.toNat := by decide +kernel
/-- V-H12. -/
theorem wit_HashErrors_peaks :
    let s : State := { executing .hash .hash with len := { Lengths.reset with numPeaks := 0x00100001 } }
    s.Executing .hash .hash ∧ s.caps.peaks.toNat < s.len.numPeaks.toNat := by decide
/-- V-H10. -/
theorem wit_HashErrors_full : ∀ i ∈ [Instr.hash, Instr.run],
    (fullHashes i).Executing i .hash ∧
    (fullHashes i).len.numPeaks.toNat ≤ (fullHashes i).caps.peaks.toNat ∧
    (fullHashes i).len.numPeaks.toNat = 3 ∧
    (∀ p, p < 3 → (peakFrameAt (fullHashes i).mem p).isSome = true ∧
      (peakBinAt (fullHashes i).mem p).isSome = true) ∧
    (fullHashes i).caps.hashes.toNat <
      (unlimitedHashes (fullHashes i).cfg.targetZone.toNat (peakKeys (fullHashes i))).length := by
  decide +kernel
/-- Sorted records, a capacity that their two pairs fit in, and one that they do not. -/
theorem wit_SortedPeaksLoseNoPair :
    let ps : List PeakKey := [⟨7, 10⟩, ⟨9, 11⟩, ⟨10, 12⟩]
    ps.Pairwise (fun p q => p.frame ≤ q.frame) ∧ (allPairsHashes 2 ps).length ≤ 2 ∧
      1 < (allPairsHashes 2 ps).length := by decide +kernel
theorem wit_HashIgnoresMagnitudes : (twoPeaks .hash).Executing .hash .hash ∧
    (Ram.base .peak ≤ 0x8000008 ∧ 0x8000008 < Ram.base .peak + Ram.size .peak ∧
      8 ≤ (0x8000008 - Ram.base .peak) % 16) ∧
    (after (exec .hash (twoPeaks .hash)) (fun _ => ())).isSome = true := by decide +kernel

/-- The FILTER clauses: a sample and a tap never written. -/
theorem wit_UnwrittenWordFaults_filter :
    let s := filterState .filter [] 1 []
    let t := filterCfg Config.reference 1 1 1 1
    (s.Executing .filter .filter ∧ filterChecks s = none ∧ 0 < s.cfg.numSamples.toNat ∧
      sampleAt s.mem 0 = none) ∧
    (t.Executing .filter .filter ∧ filterChecks t = none ∧ t.cfg.numSamples ≠ 0 ∧
      0 < t.cfg.numTaps.toNat ∧ kernelAt t.mem 0 = none) := by decide +kernel
/-- The SPECTRUM clauses: a window entry and a signal entry never written. -/
theorem wit_UnwrittenWordFaults_spectrum :
    let s := spectrumCfg Config.reference 2 1 2
    s.Executing .spectrum .spectrum ∧ spectrumChecks s = none ∧ 0 < spectrumFrames s ∧
      1 < s.cfg.frameSize.toNat ∧ windowAt s.mem 1 = none ∧
      signalAt s.mem (0 * s.cfg.hopSize.toNat + 1) = none := by decide +kernel
/-- The PEAKS clause. -/
theorem wit_UnwrittenWordFaults_peaks :
    let s := peaksState .peaks [] 1 1 1
    s.Executing .peaks .peaks ∧ peaksChecks s = none ∧ 0 < peakEntries s ∧ specAt s.mem 0 = none := by
  decide +kernel
/-- The HASH clause. -/
theorem wit_UnwrittenWordFaults_hash :
    let s : State := { executing .hash .hash with len := { Lengths.reset with numPeaks := 1 } }
    s.Executing .hash .hash ∧ hashChecks s = none ∧ 0 < s.len.numPeaks.toNat ∧
      peakFrameAt s.mem 0 = none ∧ faultOf (exec .hash s) = some .unwrittenWord := by decide +kernel

/-! #### Binary64 and the invariants -/

/-- inf + -inf, inf - inf, 0 * inf, the root of -1, and a NaN operand with a payload. -/
theorem wit_NanIsCanonical :
    unpack (fadd 0x7FF0000000000000 0xFFF0000000000000) = .nan ∧
    unpack (fsub 0x7FF0000000000000 0x7FF0000000000000) = .nan ∧
    unpack (fmul 0 0x7FF0000000000000) = .nan ∧ unpack (fsqrt 0xBFF0000000000000) = .nan ∧
    unpack 0xFFF0000000000001 = .nan := by decide +kernel
/-- An infinity beside a finite value, zero or not; and finite values whose sum, difference or product is
exactly zero: 1 and -1, the two zeros. -/
theorem wit_NanIsCanonical_special :
    (finiteUnits (0xBFF0000000000000 : F64) = some (-(2 ^ 1074)) ∧ -(2 ^ 1074) ≠ (0 : Int)) ∧
    finiteUnits (0x8000000000000000 : F64) = some 0 ∧
    (finiteUnits (0x3FF0000000000000 : F64) = some (2 ^ 1074) ∧
      (2 ^ 1074 : Int) + -(2 ^ 1074) = 0 ∧ (0 : Int) - 0 = 0 ∧ (2 ^ 1074 : Int) * 0 = 0) := by
  decide +kernel
/-- Finite operands of `fgt`, the two zeros among them, and values that are no NaN. -/
theorem wit_NanIsCanonical_fgt : finiteUnits (0x3FF0000000000000 : F64) = some (2 ^ 1074) ∧
    finiteUnits (0x0000000000000000 : F64) = some 0 ∧ finiteUnits (0x8000000000000000 : F64) = some 0 ∧
    unpack 0x7FF0000000000000 ≠ .nan ∧ unpack 0xBFF0000000000000 ≠ .nan := by decide +kernel
/-- Finite operands of either sign, the extremes of a sample, and a rounding that is not finite. -/
theorem wit_RoundingIsNearest : finiteUnits (0x3FF0000000000000 : F64) = some (2 ^ 1074) ∧
    finiteUnits (0xBFF0000000000000 : F64) = some (-(2 ^ 1074)) ∧
    finiteUnits (0x7FEFFFFFFFFFFFFF : F64) = some ((2 ^ 53 - 1) * 2 ^ 2045) ∧
    finiteUnits (roundDyadic true ((2 ^ 54 - 1) * 2 ^ 970) 0) = none ∧
    (-32768 ≤ (-32768 : Int) ∧ (-32768 : Int) ≤ 32767) ∧ (-32768 ≤ (32767 : Int)) := by decide +kernel
/-- Half a unit lies between 0 and the smallest subnormal; and 2^53 + 1 between its two neighbours. -/
theorem wit_TiesGoToEven :
    (finiteUnits (roundDyadic true 1 1075) = some 0 ∧
      finiteUnits (0x8000000000000001 : F64) = some (-1) ∧ (0 : Int) ≠ -1 ∧
      |signedMant true 1 * 2 ^ 1074 - 0 * 2 ^ 1075| =
        |signedMant true 1 * 2 ^ 1074 - -1 * 2 ^ 1075|) ∧
    finiteUnits (0x4340000000000000 : F64) = some (2 ^ 1127) ∧
    finiteUnits (0x3FF0000000000000 : F64) = some (2 ^ 1074) ∧
    finiteUnits (fadd 0x4340000000000000 0x3FF0000000000000) = some (2 ^ 1127) := by decide +kernel
/-- 2.0, -0.0 and -1.0. -/
theorem wit_SquareRootIsNearest : (finiteUnits (0x4000000000000000 : F64) = some (2 ^ 1075) ∧
      (0 : Int) < 2 ^ 1075) ∧ finiteUnits (0x8000000000000000 : F64) = some 0 ∧
    (finiteUnits (0xBFF0000000000000 : F64) = some (-(2 ^ 1074)) ∧ -(2 ^ 1074) < (0 : Int)) := by
  decide +kernel
theorem wit_ResetMeetsInvariant : Caps.wf ⟨2, 1, 2, 1, 1, 1, 1, 1⟩ = true := by decide
theorem wit_StepKeepsCanonicalMemory : Memory.wf (oneSample .run).mem = true ∧
    (after (step (oneSample .run)) (fun _ => ())).isSome = true := by decide +kernel
theorem wit_StepKeepsSequencer : (oneSample .run).SequencerOk ∧
    (after (step (oneSample .run)) (fun _ => ())).isSome = true := by decide +kernel
theorem wit_StepKeepsInvariant : (twoPeaks .hash).Inv ∧
    (after (step (twoPeaks .hash)) (fun _ => ())).isSome = true := by decide +kernel
/-- Both ends of StepAnswers. -/
theorem wit_StepAnswers : State.reset.SequencerOk ∧
    (filterState .filter [] 1 []).SequencerOk ∧
    faultOf (step (filterState .filter [] 1 [])) = some .unwrittenWord := by decide +kernel

end Sys2Proof.Tests
end

section
/-! The moves of the machine, said once: what a core move can do in a consistent state, and the effects a
host move can have. -/

namespace Sys2Proof.Machine

/-! ### The core's move -/

/-- The rule of a stage of the sequencer (R123). -/
def stageRule : Stage → State → StageResult
  | .idle => fun _ => .fault .noStageRunning
  | .filter => filterStage
  | .spectrum => spectrumStage
  | .peaks => peaksStage
  | .hash => hashStage

/-- `stages(op)` of R123 with the rule of each stage. -/
def stageListOf (op : BitVec 8) : StageList := (stagesOf op).map fun st => (st, stageRule st)

/-- An opcode with a stage list is that of one of the five stage commands. -/
theorem stageCommand_of_mem_stagesOf {op : BitVec 8} {st : Stage} (h : st ∈ stagesOf op) :
    ∃ i ∈ [Instr.run, .filter, .spectrum, .peaks, .hash], op = i.opcode := by
  unfold stagesOf at h
  split_ifs at h with h₁ h₂ h₃ h₄ h₅
  · exact ⟨.run, by simp, h₁⟩
  · exact ⟨.filter, by simp, h₂⟩
  · exact ⟨.spectrum, by simp, h₃⟩
  · exact ⟨.peaks, by simp, h₄⟩
  · exact ⟨.hash, by simp, h₅⟩
  · simp at h

/-- A stage command is `runCommand` with its own opcode, first stage and stage list (R121, R123). -/
theorem exec_stageCommand {i : Instr} (h : i ∈ [Instr.run, .filter, .spectrum, .peaks, .hash]) :
    ∃ first ∈ stagesOf i.opcode, ∀ s, exec i s = runCommand i.opcode first (stageListOf i.opcode) s := by
  fin_cases h
  · exact ⟨.filter, by decide, fun _ => rfl⟩
  · exact ⟨.filter, by decide, fun _ => rfl⟩
  · exact ⟨.spectrum, by decide, fun _ => rfl⟩
  · exact ⟨.peaks, by decide, fun _ => rfl⟩
  · exact ⟨.hash, by decide, fun _ => rfl⟩

/-- While a stage command executes, its meaning is the core step of its stage list (R123). -/
theorem exec_executing {i : Instr} (h : i ∈ [Instr.run, .filter, .spectrum, .peaks, .hash]) (s : State)
    (hb : s.status.busy = true) (hop : s.status.lastOp = i.opcode) :
    exec i s = coreStep (stageListOf i.opcode) s.newEpoch := by
  obtain ⟨first, -, he⟩ := exec_stageCommand h
  rw [he, runCommand_executing _ _ _ _ hb hop]

theorem coreMove_idle (s : State) (h : s.status.busy = false) : coreMove s = .next s := by
  simp [coreMove, h]

/-- A core move of an executing stage command is the core step of its stage list. -/
theorem coreMove_executing (s : State) (hb : s.status.busy = true)
    (hst : s.status.stage ∈ stagesOf s.status.lastOp) :
    coreMove s = coreStep (stageListOf s.status.lastOp) s.newEpoch := by
  obtain ⟨i, hi, hop⟩ := stageCommand_of_mem_stagesOf hst
  have hd : decode .cmd (s.status.lastOp.setWidth 32) = .ok i := by
    rw [hop]; fin_cases hi <;> rfl
  have hn : coreMove s = exec i s := by
    simp only [coreMove, hb, if_true, hd]
    fin_cases hi <;> rfl
  rw [hn, exec_executing hi s hb hop, hop]

/-- A stage that stops the machine met a never-written word (R13). -/
theorem stageRule_fault {st : Stage} (hst : st ≠ .idle) {s : State} {r : Fault}
    (h : stageRule st s = .fault r) : r = .unwrittenWord := by
  cases st with
  | idle => exact absurd rfl hst
  | filter =>
    rcases filterStage_cases s with ⟨_, _, -, e⟩ | ⟨-, _, _, -, -, e⟩ | ⟨-, -, e⟩ <;>
      simp_all [stageRule]
  | spectrum =>
    rcases spectrumStage_cases s with ⟨_, _, -, e⟩ | ⟨-, _, _, -, -, e⟩ | ⟨-, -, e⟩ <;>
      simp_all [stageRule]
  | peaks =>
    rcases peaksStage_cases s with ⟨_, _, -, e⟩ | ⟨-, _, -, e⟩ | ⟨-, -, e⟩ <;> simp_all [stageRule]
  | hash =>
    rcases hashStage_cases s with ⟨_, _, -, e⟩ | ⟨-, _, -, ⟨_, -, e⟩ | ⟨_, _, -, e⟩⟩ | ⟨-, -, e⟩ <;>
      simp_all [stageRule]

theorem stageRule_keeps (st : Stage) : StageKeeps (stageRule st) := by
  cases st with
  | idle => intro s t h; simp [stageRule, StageResult.state?] at h
  | filter => exact filterStage_keeps
  | spectrum => exact spectrumStage_keeps
  | peaks => exact peaksStage_keeps
  | hash => exact hashStage_keeps

theorem idle_notMem_stagesOf (op : BitVec 8) : Stage.idle ∉ stagesOf op := by
  unfold stagesOf; split_ifs <;> simp

/-- What the core does in a consistent state while a command executes: the stage STATUS.STAGE runs, and
then the command completes or enters its next stage, or an error ends it, or a never-written word stops
the machine. -/
theorem coreMove_cases (s : State) (hs : s.SequencerOk) (hb : s.status.busy = true) :
    (∃ t, stageRule s.status.stage s.newEpoch = .done t ∧
      (coreMove s = .next t.complete ∨
        ∃ st ∈ stagesOf s.status.lastOp, coreMove s = .next (t.enterStage st))) ∨
    (∃ code info t, stageRule s.status.stage s.newEpoch = .error code info t ∧
      coreMove s = .next (t.errorCompletion code info)) ∨
    (stageRule s.status.stage s.newEpoch = .fault .unwrittenWord ∧
      coreMove s = .fault .unwrittenWord) := by
  obtain ⟨-, -, -, hst⟩ := hs hb
  rw [coreMove_executing s hb hst]
  rcases coreStep_cases (stageListOf s.status.lastOp) s.newEpoch with
    ⟨pre, rule, rest, hl, hc⟩ | ⟨hn, -⟩
  · have hmem : ∀ p ∈ pre ++ (s.status.stage, rule) :: rest,
        p.1 ∈ stagesOf s.status.lastOp ∧ p.2 = stageRule p.1 := by
      intro p hp
      obtain ⟨st, hst, rfl⟩ := List.mem_map.mp (hl ▸ hp : p ∈ stageListOf s.status.lastOp)
      exact ⟨hst, rfl⟩
    obtain rfl : rule = stageRule s.status.stage := (hmem (s.status.stage, rule) (by simp)).2
    rcases hc with ⟨t, hr, hc⟩ | ⟨code, info, t, hr, hc⟩ | ⟨r, hr, hc⟩
    · refine .inl ⟨t, hr, ?_⟩
      cases rest with
      | nil => exact .inl hc
      | cons next rest => exact .inr ⟨next.1, (hmem next (by simp)).1, hc⟩
    · exact .inr (.inl ⟨code, info, t, hr, hc⟩)
    · obtain rfl := stageRule_fault (fun e => idle_notMem_stagesOf _ (e ▸ hst)) hr
      exact .inr (.inr ⟨hr, hc⟩)
  · exact absurd rfl (hn (s.status.stage, stageRule s.status.stage) (List.mem_map_of_mem hst))

/-! ### The host's move -/

/-- What a host access can do to the registers and the RAMs: one constructor per kind of update, with what
the invariants need to know of when it happens (R84, R85, R120). -/
inductive HostEffect (s : State) : State → Prop
  | unchanged : HostEffect s s
  | accError (a : Offset) : HostEffect s (s.accError a)
  | acknowledge (v : Word) : HostEffect s (s.acknowledge v)
  | enable (e : IrqEnable) : HostEffect s { s with irqEn := e }
  | store (v : Word) (r : Csr) : HostEffect s (csrStore s v r)
  | put (a : Offset) (v : Word) (ha : a.toNat % 4 = 0)
      (hl : (locate s.caps a.toNat).isSome = true) :
      HostEffect s { s with mem := memPutWord s.mem a.toNat v }
  | softReset : HostEffect s s.softReset
  | illegal (w : Word) : HostEffect s (s.illegalCommand w)
  | nop (hb : s.status.busy = false) : HostEffect s (s.nopDone 0)
  | accept (op : BitVec 8) (first : Stage) (hf : first ∈ stagesOf op) : HostEffect s (s.accept op first)

theorem memRead_effect (a : Offset) (s : State) : HostEffect s (memRead a s).2 := by
  rcases memRead_cases a s with h | ⟨h, -⟩ <;> rw [h]
  · exact .unchanged
  · exact .accError a

theorem writeCmd_effect (w : Word) (s : State) : ∃ t, writeCmd w s = .next t ∧ HostEffect s t := by
  cases hb : s.status.busy with
  | true => exact ⟨_, by simp [writeCmd, hb], .accError cmdOffset⟩
  | false =>
    cases hd : decode .cmd w with
    | error e => exact ⟨_, by simp [writeCmd, hb, hd], .illegal w⟩
    | ok i =>
      have hw : writeCmd w s = exec i s := by simp [writeCmd, hb, hd]
      have stage (hi : i ∈ [Instr.run, .filter, .spectrum, .peaks, .hash]) :
          ∃ t, writeCmd w s = .next t ∧ HostEffect s t := by
        obtain ⟨first, hf, he⟩ := exec_stageCommand hi
        exact ⟨_, by rw [hw, he, runCommand_idle _ _ _ _ hb], .accept _ first hf⟩
      cases i with
      | nop => exact ⟨_, by rw [hw]; simp [exec, execNop, hb]; rfl, .nop hb⟩
      | srst => exact ⟨_, hw, .softReset⟩
      | run => exact stage (by simp)
      | filter => exact stage (by simp)
      | spectrum => exact stage (by simp)
      | peaks => exact stage (by simp)
      | hash => exact stage (by simp)

theorem csrWrite_effect (r : Csr) (v : Word) (s : State) :
    ∃ t, csrWrite r v s = .next t ∧ HostEffect s t := by
  rcases csrWrite_cases r v s with ⟨-, e⟩ | ⟨-, e⟩ | ⟨-, e⟩ | ⟨-, e⟩ | ⟨-, -, e⟩ | ⟨-, -, e⟩ <;> rw [e]
  · rw [writeCtrl_eq]
    refine ⟨_, rfl, ?_⟩
    split
    · exact .softReset
    · exact .unchanged
  · exact writeCmd_effect v s
  · exact ⟨_, rfl, .acknowledge v⟩
  · exact ⟨_, rfl, .enable _⟩
  · exact ⟨_, rfl, .store v r⟩
  · exact ⟨_, rfl, .accError _⟩

/-- A write always answers (R85). -/
theorem memWrite_effect (a : Offset) (v : Word) (s : State) :
    ∃ t, memWrite a v s = .next t ∧ HostEffect s t := by
  rcases memWrite_cases a v s with e | ⟨r, -, e⟩ | ⟨-, -, ha, hl, e⟩ <;> rw [e]
  · exact ⟨_, rfl, .accError a⟩
  · exact csrWrite_effect r v s
  · exact ⟨_, rfl, .put a v ha hl⟩

/-- A host move always answers: one effect, then the response and the schedule. -/
theorem hostMove_effect (acc : Access) (s : State) :
    ∃ t sched rsp, hostMove acc s = .next { t with sched := sched, rsp := rsp } ∧ HostEffect s t := by
  cases acc with
  | read a => exact ⟨(memRead a s).2, _, _, rfl, memRead_effect a s⟩
  | write a v =>
    obtain ⟨t, ht, he⟩ := memWrite_effect a v s
    exact ⟨t, t.sched, t.rsp, ht, he⟩
  | wait a mask value =>
    simp only [hostMove]
    split
    · exact ⟨(memRead a s).2, _, _, rfl, memRead_effect a s⟩
    · exact ⟨(memRead a s).2, _, _, rfl, memRead_effect a s⟩

/-! ### The sequencer stays consistent -/

theorem HostEffect.sequencerOk {s t : State} (h : HostEffect s t) (hs : s.SequencerOk) :
    t.SequencerOk := by
  cases h with
  | unchanged => exact hs
  | accError a => exact hs
  | acknowledge v =>
    intro hb
    obtain ⟨hd, he, hc, hst⟩ := hs hb
    exact ⟨by simp [Status.clear, hd], by simp [Status.clear, he], hc, hst⟩
  | enable e => exact hs
  | store v r => unfold State.SequencerOk; rwa [csrStore_status]
  | put a v ha hl => exact hs
  | softReset => exact fun hb => absurd hb (by simp [Status.reset])
  | illegal w => exact fun hb => absurd hb (by simp)
  | nop hb => exact fun hb' => absurd hb' (by simp [hb])
  | accept op first hf => exact fun _ => ⟨rfl, rfl, rfl, hf⟩

/-- A stage leaves STATUS. -/
theorem stageRule_status {st : Stage} {s t : State} (h : (stageRule st s).state? = some t) :
    t.status = s.status := by rw [stageRule_keeps st s t h]

/-- In a consistent state the core's move answers a consistent state, or a never-written word stops an
executing command. -/
theorem coreMove_answers (s : State) (hs : s.SequencerOk) :
    (∃ t, coreMove s = .next t ∧ t.SequencerOk) ∨
      (coreMove s = .fault .unwrittenWord ∧ s.status.busy = true) := by
  cases hb : s.status.busy with
  | false => exact .inl ⟨s, coreMove_idle s hb, hs⟩
  | true =>
    rcases coreMove_cases s hs hb with ⟨t, ht, hm | ⟨st, hst, hm⟩⟩ | ⟨_, _, t, -, hm⟩ | ⟨-, hm⟩
    · exact .inl ⟨_, hm, fun hb => absurd hb (by simp)⟩
    · obtain ⟨hd, he, hc, -⟩ := hs hb
      have hstatus : t.status = s.status := stageRule_status (s := s.newEpoch) (by rw [ht]; rfl)
      exact .inl ⟨_, hm, fun _ => by simp [hstatus, hd, he, hc, hst]⟩
    · exact .inl ⟨_, hm, fun hb => absurd hb (by simp)⟩
    · exact .inr ⟨hm, rfl⟩

/-- Settles O59: a core move and a host move each answer as claimed, and a step is one of them. -/
theorem stepAnswers : Obligations.StepAnswers := by
  intro s hs
  rcases step_cases s with ⟨rest, e⟩ | ⟨acc, rest, -, e⟩ <;> rw [e]
  · exact coreMove_answers (s.advance rest) hs
  · obtain ⟨t, sched, rsp, hm, he⟩ := hostMove_effect acc (s.advance rest)
    exact .inl ⟨_, hm, he.sequencerOk (s := s.advance rest) hs⟩

end Sys2Proof.Machine
end

section
/-! The machine's invariant: whole words in valid RAM entries, the error record and the bound of
NUM_HASHES. -/

namespace Sys2Proof.Machine

/-! ### The entries of a RAM are valid offsets -/

/-- R7 and R71: the capacity of every RAM fits in its region. -/
theorem Ram.cap_fits (r : Ram) {c : Caps} (h : c.wf = true) : r.entryBytes * r.cap c ≤ r.size := by
  simp only [Caps.wf, Caps.samplesOk, Caps.tapsOk, Caps.frameOk, Caps.signalOk, Caps.specOk,
    Caps.peaksOk, Caps.hashesOk, Bool.and_eq_true, decide_eq_true_eq] at h
  cases r <;> simp only [Ram.entryBytes, Ram.cap, Ram.size] <;> omega

theorem Ram.holds_of_lt (r : Ram) {c : Caps} (h : c.wf = true) {k : Nat}
    (hk : k < r.entryBytes * r.cap c) : r.holds c (r.base + k) = true := by
  have hf := r.cap_fits h
  have hd : k / r.entryBytes < r.cap c := Nat.div_lt_of_lt_mul hk
  simp only [Ram.holds, Nat.add_sub_cancel_left, Bool.and_eq_true, decide_eq_true_eq]
  exact ⟨⟨by omega, by omega⟩, hd⟩

/-- Every byte of a RAM below its capacity is a valid RAM offset (R71). -/
theorem locate_isSome_of_lt (r : Ram) {c : Caps} (h : c.wf = true) {k : Nat}
    (hk : k < r.entryBytes * r.cap c) : (locate c (r.base + k)).isSome = true :=
  List.find?_isSome.mpr ⟨r, by cases r <;> simp [allRams], r.holds_of_lt h hk⟩

/-! ### Whole words in valid entries -/

/-- `State.RamOk` of a memory, said of the bytes that are read instead of the list. -/
def RamBytesOk (c : Caps) (m : Memory) : Prop :=
  ∀ x, (memByte m x).isSome = true →
    (locate c (x - x % 4)).isSome = true ∧ (memWord m (x - x % 4)).isSome = true

theorem State.ramOk_iff (s : State) : s.RamOk ↔ RamBytesOk s.caps s.mem := by
  refine ⟨fun h x hx => ?_, fun h c hc => h c.1 ((memByte_isSome_iff _ _).mpr ⟨c, hc, rfl⟩)⟩
  obtain ⟨c, hc, rfl⟩ := (memByte_isSome_iff _ _).mp hx
  exact h c hc

theorem RamBytesOk.memPutWord {c : Caps} {m : Memory} (h : RamBytesOk c m) {a : Nat} (w : Word)
    (ha : a % 4 = 0) (hl : (locate c a).isSome = true) : RamBytesOk c (memPutWord m a w) := by
  intro x hx
  by_cases hin : a ≤ x ∧ x < a + 4
  · rw [show x - x % 4 = a by omega, memWord_memPutWord_same]
    exact ⟨hl, rfl⟩
  · rw [memByte_memPutWord, if_neg hin] at hx
    rw [memWord_memPutWord_other _ _ _ _ (by omega)]
    exact h x hx

theorem RamBytesOk.memPutWords {c : Caps} (ws : List Word) {m : Memory} (h : RamBytesOk c m) {a : Nat}
    (ha : a % 4 = 0) (hl : ∀ i < ws.length, (locate c (a + 4 * i)).isSome = true) :
    RamBytesOk c (memPutWords m a ws) := by
  induction ws generalizing m a with
  | nil => exact h
  | cons w ws ih =>
    refine ih (h.memPutWord w ha (hl 0 (by simp))) (by omega) fun i hi => ?_
    have := hl (i + 1) (by simpa using hi)
    rwa [show a + 4 * (i + 1) = a + 4 + 4 * i by ring] at this

/-- Words written from the start of a RAM, no more than its capacity, keep the RAMs valid. -/
theorem RamBytesOk.memPutWords_ram {c : Caps} {m : Memory} (h : RamBytesOk c m) (hc : c.wf = true)
    (r : Ram) (ws : List Word) (hn : 4 * ws.length ≤ r.entryBytes * r.cap c) :
    RamBytesOk c (Machine.memPutWords m r.base ws) :=
  h.memPutWords ws (by cases r <;> rfl) fun i hi => locate_isSome_of_lt r hc (by omega)

theorem RamBytesOk.memPutF64s_ram {c : Caps} {m : Memory} (h : RamBytesOk c m) (hc : c.wf = true)
    (r : Ram) (xs : List F64) (hn : 8 * xs.length ≤ r.entryBytes * r.cap c) :
    RamBytesOk c (memPutF64s m r.base xs) :=
  h.memPutWords_ram hc r _ (by rw [length_flatMap_f64Words]; omega)

theorem RamBytesOk.memErase_ram {c : Caps} {m : Memory} (h : RamBytesOk c m) (r : Ram) :
    RamBytesOk c (memErase m r.base r.size) := by
  have hr : r.base % 4 = 0 ∧ r.size % 4 = 0 := by cases r <;> decide
  intro x hx
  rw [memByte_memErase] at hx
  split at hx
  · simp at hx
  · rw [memWord_memErase_other _ _ _ _ (by omega)]
    exact h x hx

theorem RamBytesOk.softResetMemory {s : State} (h : RamBytesOk s.caps s.mem) :
    RamBytesOk s.caps (softResetMemory s) := by
  unfold Machine.softResetMemory
  split
  · split
    · exact h.memErase_ram _
    · exact h
  · exact h

/-! ### How much each stage writes -/

theorem filterChecks_none_signal {s : State} (h : filterChecks s = none) :
    filterLength s ≤ s.caps.signal.toNat := by
  unfold filterChecks at h
  split_ifs at h with _ _ _ _ h₅
  omega

theorem spectrumChecks_none_spec {s : State} (h : spectrumChecks s = none) :
    spectrumFrames s * spectrumBins s ≤ s.caps.spec.toNat := by
  unfold spectrumChecks at h
  split_ifs at h with _ _ _ h₄
  omega

theorem peaksChecks_none_peaks {s : State} (h : peaksChecks s = none) :
    peakCount s ≤ s.caps.peaks.toNat := by
  unfold peaksChecks at h
  split_ifs at h with _ _ h₃
  omega

theorem length_decimated (x k : List F64) (d l : Nat) : (decimated x k d l).length = l := by
  simp [decimated]

theorem length_spectrumRow_le (fs : Nat) (window frame : List F64) :
    (spectrumRow fs window frame).length ≤ fs / 2 + 1 := by
  simp only [spectrumRow, List.length_map, List.length_take]
  exact Nat.min_le_left _ _

theorem length_flatten_le {α : Type} (rows : List (List α)) (n : Nat)
    (h : ∀ row ∈ rows, row.length ≤ n) : rows.flatten.length ≤ rows.length * n := by
  rw [List.length_flatten]
  simpa using List.sum_le_card_nsmul (rows.map List.length) n (by simpa using h)

/-- A frame gives at most the `ppf` records of R190: with fewer bins than bands only the last band can
hold a bin. -/
theorem length_framePeaks_le (nb f : Nat) (mag : List F64) :
    (framePeaks nb f mag).length ≤ peaksPerFrame mag.length nb := by
  unfold framePeaks peaksPerFrame
  split_ifs with h₁ h₂
  · exact (List.length_filterMap_le _ _).trans_eq (by simp)
  · cases nb with
    | zero => simp
    | succ n =>
      have hz : mag.length / (n + 1) = 0 := Nat.lt_one_iff.mp (Nat.lt_of_not_le h₁)
      rw [List.range_succ, List.filterMap_append, List.filterMap_eq_nil_iff.mpr]
      · exact (List.length_filterMap_le _ _).trans_eq (by simp)
      · intro b hb
        have hb' : b < n := by simpa using hb
        simp [bandLow, bandHigh, hz, hb']
  · have hz : mag.length = 0 := by omega
    simp [bandLow, bandHigh, hz]

theorem length_allPeaks_le (frames bins nb : Nat) (entries : List F64)
    (h : entries.length = frames * bins) :
    (allPeaks frames bins nb entries).length ≤ frames * peaksPerFrame bins nb := by
  unfold allPeaks
  rw [List.flatMap_def]
  refine (length_flatten_le _ (peaksPerFrame bins nb) fun row hrow => ?_).trans_eq (by simp)
  obtain ⟨f, hf, rfl⟩ := List.mem_map.mp hrow
  have hb : ((entries.drop (f * bins)).take bins).length = bins := by
    have : (f + 1) * bins ≤ frames * bins := Nat.mul_le_mul_right _ (List.mem_range.mp hf)
    simp only [List.length_take, List.length_drop, h]
    rw [Nat.add_mul] at this
    omega
  exact (length_framePeaks_le _ _ _).trans_eq (by rw [hb])

theorem length_flatMap_peakWords (ps : List Peak) : (ps.flatMap peakWords).length = 4 * ps.length := by
  induction ps with
  | nil => rfl
  | cons p ps ih =>
    rw [List.flatMap_cons, List.length_append, ih, List.length_cons, mul_add, add_comm]
    rfl

/-- R209: the scan of one anchor never makes more than `cap` hashes. -/
theorem length_scanTargets_le (tz cap : Nat) (anchor : PeakKey) (targets : List PeakKey)
    (out : List Word) (h : out.length ≤ cap) :
    (scanTargets tz cap anchor targets out).2.length ≤ cap := by
  induction targets generalizing out with
  | nil => exact h
  | cons target rest ih =>
    unfold scanTargets
    dsimp only
    split_ifs with h₁ h₂ h₃
    · exact ih out h
    · exact h
    · exact h
    · exact ih _ (by simp; omega)

theorem length_scanAnchors_le (tz cap i : Nat) (ps : List PeakKey) (out : List Word)
    (h : out.length ≤ cap) : (scanAnchors tz cap i ps out).2.length ≤ cap := by
  induction ps generalizing i out with
  | nil => exact h
  | cons anchor rest ih =>
    have hb := length_scanTargets_le tz cap anchor rest out h
    unfold scanAnchors
    split <;> simp_all

theorem length_hashScan_le {tz cap : Nat} {ps : List PeakKey} {o : Option Nat} {hs : List Word}
    (h : hashScan tz cap ps = (o, hs)) : hs.length ≤ cap := by
  have := length_scanAnchors_le tz cap 0 ps [] (by simp)
  rwa [← hashScan, h] at this

/-! ### What the stages keep of the RAMs and NUM_HASHES -/

/-- What a stage may do to the RAMs and the lengths without harm to the invariant. -/
structure RamsKept (s t : State) : Prop where
  wf : Memory.wf s.mem = true → Memory.wf t.mem = true
  bytes : RamBytesOk s.caps s.mem → RamBytesOk s.caps t.mem
  hashes : s.HashesOk → t.len.numHashes.toNat ≤ s.caps.hashes.toNat

theorem RamsKept.refl (s : State) : RamsKept s s := ⟨id, id, id⟩

theorem filterStage_ramsKept {s t : State} (hc : s.caps.wf = true)
    (h : (filterStage s).state? = some t) : RamsKept s t := by
  rcases filterStage_cases s with ⟨_, _, -, e⟩ | ⟨hn, samples, k, -, -, e⟩ | ⟨-, -, e⟩ <;> rw [e] at h
  · cases h; exact .refl s
  · cases h
    refine ⟨memPutF64s_wf _ _ _, fun hb => hb.memPutF64s_ram hc .signal _ ?_, id⟩
    rw [length_decimated]
    exact Nat.mul_le_mul_left 8 (filterChecks_none_signal hn)
  · cases h

theorem spectrumStage_ramsKept {s t : State} (hc : s.caps.wf = true)
    (h : (spectrumStage s).state? = some t) : RamsKept s t := by
  rcases spectrumStage_cases s with ⟨_, _, -, e⟩ | ⟨hn, window, frames, -, hf, e⟩ | ⟨-, -, e⟩ <;>
    rw [e] at h
  · cases h; exact .refl s
  · cases h
    refine ⟨memPutF64s_wf _ _ _, fun hb => hb.memPutF64s_ram hc .spec _ ?_, id⟩
    have hl := length_flatten_le (frames.map (spectrumRow s.cfg.frameSize.toNat window))
      (spectrumBins s) fun row hrow => by
        obtain ⟨frame, -, rfl⟩ := List.mem_map.mp hrow
        exact length_spectrumRow_le _ _ _
    rw [List.length_map, length_of_collectFrom hf] at hl
    exact Nat.mul_le_mul_left 8 (hl.trans (spectrumChecks_none_spec hn))
  · cases h

theorem peaksStage_ramsKept {s t : State} (hc : s.caps.wf = true)
    (h : (peaksStage s).state? = some t) : RamsKept s t := by
  rcases peaksStage_cases s with ⟨_, _, -, e⟩ | ⟨hn, entries, hf, e⟩ | ⟨-, -, e⟩ <;> rw [e] at h
  · cases h; exact .refl s
  · cases h
    refine ⟨memPutWords_wf _ _ _, fun hb => hb.memPutWords_ram hc .peak _ ?_, id⟩
    have hl := length_allPeaks_le s.len.numFrames.toNat s.len.numBins.toNat s.cfg.numBands.toNat
      entries (length_of_collectFrom hf)
    have hp := hl.trans (peaksChecks_none_peaks hn)
    rw [length_flatMap_peakWords]
    simp only [Ram.entryBytes, Ram.cap]
    omega
  · cases h

theorem hashWrite_ramsKept {s : State} (hc : s.caps.wf = true) {hs : List Word}
    (hl : hs.length ≤ s.caps.hashes.toNat) : RamsKept s (hashWrite s hs) where
  wf := memPutWords_wf _ _ _
  bytes hb := hb.memPutWords_ram hc .hash _ (Nat.mul_le_mul_left 4 hl)
  hashes _ := by
    simp only [hashWrite, BitVec.toNat_ofNat]
    exact (Nat.mod_le _ _).trans hl

theorem hashStage_ramsKept {s t : State} (hc : s.caps.wf = true)
    (h : (hashStage s).state? = some t) : RamsKept s t := by
  rcases hashStage_cases s with ⟨_, _, -, e⟩ | ⟨-, ps, -, ⟨hs, hl, e⟩ | ⟨i, hs, hl, e⟩⟩ | ⟨-, -, e⟩ <;>
    rw [e] at h <;> cases h
  · exact .refl s
  · exact hashWrite_ramsKept hc (length_hashScan_le hl)
  · exact hashWrite_ramsKept hc (length_hashScan_le hl)

theorem stageRule_ramsKept {st : Stage} {s t : State} (hc : s.caps.wf = true)
    (h : (stageRule st s).state? = some t) : RamsKept s t := by
  cases st with
  | idle => cases h
  | filter => exact filterStage_ramsKept hc h
  | spectrum => exact spectrumStage_ramsKept hc h
  | peaks => exact peaksStage_ramsKept hc h
  | hash => exact hashStage_ramsKept hc h

/-! ### The error record -/

theorem filterChecks_code_ne_none {s : State} {code : ErrCode} {info : Word}
    (h : filterChecks s = some (code, info)) : code ≠ .none := by
  rintro rfl; unfold filterChecks at h; split_ifs at h <;> simp at h

theorem spectrumChecks_code_ne_none {s : State} {code : ErrCode} {info : Word}
    (h : spectrumChecks s = some (code, info)) : code ≠ .none := by
  rintro rfl; unfold spectrumChecks at h; split_ifs at h <;> simp at h

theorem peaksChecks_code_ne_none {s : State} {code : ErrCode} {info : Word}
    (h : peaksChecks s = some (code, info)) : code ≠ .none := by
  rintro rfl; unfold peaksChecks at h; split_ifs at h <;> simp at h

theorem hashChecks_code_ne_none {s : State} {code : ErrCode} {info : Word}
    (h : hashChecks s = some (code, info)) : code ≠ .none := by
  rintro rfl; unfold hashChecks at h; split_ifs at h; simp at h

/-- A stage that raises an error raises one with a code (R236). -/
theorem stageRule_code_ne_none {st : Stage} {s t : State} {code : ErrCode} {info : Word}
    (h : stageRule st s = .error code info t) : code ≠ .none := by
  cases st with
  | idle => cases h
  | filter =>
    rcases filterStage_cases s with ⟨_, _, hc, e⟩ | ⟨-, _, _, -, -, e⟩ | ⟨-, -, e⟩ <;>
      cases e.symm.trans h
    exact filterChecks_code_ne_none hc
  | spectrum =>
    rcases spectrumStage_cases s with ⟨_, _, hc, e⟩ | ⟨-, _, _, -, -, e⟩ | ⟨-, -, e⟩ <;>
      cases e.symm.trans h
    exact spectrumChecks_code_ne_none hc
  | peaks =>
    rcases peaksStage_cases s with ⟨_, _, hc, e⟩ | ⟨-, _, -, e⟩ | ⟨-, -, e⟩ <;> cases e.symm.trans h
    exact peaksChecks_code_ne_none hc
  | hash =>
    rcases hashStage_cases s with
      ⟨_, _, hc, e⟩ | ⟨-, _, -, ⟨_, -, e⟩ | ⟨_, _, -, e⟩⟩ | ⟨-, -, e⟩ <;> cases e.symm.trans h
    · exact hashChecks_code_ne_none hc
    · exact ErrCode.noConfusion

theorem HostEffect.errorOk {s t : State} (h : HostEffect s t) (hs : s.ErrorOk) : t.ErrorOk := by
  cases h with
  | unchanged => exact hs
  | accError a => exact hs
  | acknowledge v => exact fun he => hs (Bool.and_eq_true_iff.mp he).1
  | enable e => exact hs
  | store v r => unfold State.ErrorOk; rwa [csrStore_status]
  | put a v ha hl => exact hs
  | softReset => exact fun he => absurd he (by simp [Status.reset])
  | illegal w => exact fun _ => by simp
  | nop hb => exact fun he => absurd he (by simp)
  | accept op first hf => exact fun he => absurd he (by simp)

/-! ### The whole invariant -/

theorem csrStore_numHashes (s : State) (v : Word) (r : Csr) :
    (csrStore s v r).len.numHashes = s.len.numHashes := by cases r <;> rfl

theorem HostEffect.caps {s t : State} (h : HostEffect s t) : t.caps = s.caps := by
  cases h with
  | store v r => exact csrStore_caps s v r
  | _ => rfl

theorem HostEffect.ramsKept {s t : State} (h : HostEffect s t) : RamsKept s t := by
  cases h with
  | store v r => exact ⟨by simp, by simp, fun hh => by rwa [csrStore_numHashes]⟩
  | put a v ha hl => exact ⟨memPutWord_wf _ _ _, fun hb => hb.memPutWord v ha hl, id⟩
  | softReset => exact ⟨softResetMemory_wf s, .softResetMemory, fun _ => Nat.zero_le _⟩
  | _ => exact ⟨id, id, id⟩

/-- The invariant from its parts: an update of a state that meets it meets it. -/
theorem State.Inv.of_ramsKept {s t : State} (hs : s.Inv) (hcaps : t.caps = s.caps)
    (hk : RamsKept s t) (hseq : t.SequencerOk) (herr : t.ErrorOk) : t.Inv := by
  obtain ⟨hwf, hmem, hram, -, -, hhash⟩ := hs
  refine ⟨by rwa [hcaps], hk.wf hmem, ?_, hseq, herr, by rw [State.HashesOk, hcaps]; exact hk.hashes hhash⟩
  rw [State.ramOk_iff, hcaps]
  exact hk.bytes ((State.ramOk_iff s).mp hram)

theorem HostEffect.inv {s t : State} (h : HostEffect s t) (hs : s.Inv) : t.Inv := by
  have ⟨_, _, _, hseq, herr, _⟩ := hs
  exact hs.of_ramsKept h.caps h.ramsKept (h.sequencerOk hseq) (h.errorOk herr)

/-- A stage that answers a state leaves the invariant. -/
theorem stageRule_inv {st : Stage} {s t : State} (hs : s.Inv) (h : (stageRule st s).state? = some t) :
    t.Inv := by
  have ⟨hwf, _, _, hseq, herr, _⟩ := hs
  have hcaps : t.caps = s.caps := by rw [stageRule_keeps _ _ _ h]
  have hstatus := stageRule_status h
  exact hs.of_ramsKept hcaps (stageRule_ramsKept hwf h) (by rwa [State.SequencerOk, hstatus])
    (by rwa [State.ErrorOk, hstatus])

/-- Of STATUS the invariant asks only the sequencer's and the error record's part. -/
theorem State.Inv.withStatus {s : State} (hs : s.Inv) (st : Status)
    (hseq : State.SequencerOk { s with status := st }) (herr : State.ErrorOk { s with status := st }) :
    State.Inv { s with status := st } := by
  obtain ⟨hwf, hmem, hram, -, -, hhash⟩ := hs
  exact ⟨hwf, hmem, hram, hseq, herr, hhash⟩

theorem coreMove_inv {s t : State} (hs : s.Inv) (h : coreMove s = .next t) : t.Inv := by
  have ⟨_, _, _, hseq, _, _⟩ := hs
  have htseq : t.SequencerOk := by
    rcases coreMove_answers s hseq with ⟨t', ht', hok⟩ | ⟨hf, -⟩
    · cases h.symm.trans ht'; exact hok
    · cases h.symm.trans hf
  cases hb : s.status.busy with
  | false => cases h.symm.trans (coreMove_idle s hb); exact hs
  | true =>
    have left {u : State} (hu : (stageRule s.status.stage s.newEpoch).state? = some u) :
        u.Inv ∧ u.ErrorOk := by
      have hui := stageRule_inv (s := s.newEpoch) hs hu
      have ⟨_, _, _, _, herr, _⟩ := hui
      exact ⟨hui, herr⟩
    rcases coreMove_cases s hseq hb with ⟨u, hu, hm | ⟨st, -, hm⟩⟩ | ⟨_, _, u, hu, hm⟩ | ⟨-, hm⟩ <;>
      cases h.symm.trans hm
    · obtain ⟨hui, herr⟩ := left (by rw [hu]; rfl)
      exact hui.withStatus _ htseq herr
    · obtain ⟨hui, herr⟩ := left (by rw [hu]; rfl)
      exact hui.withStatus _ htseq herr
    · exact (left (by rw [hu]; rfl)).1.withStatus _ htseq fun _ => stageRule_code_ne_none hu

/-- Settles O58: a core move and the effect of a host move each keep the invariant, which speaks neither
of the schedule nor of the response. -/
theorem stepKeepsInvariant : Obligations.StepKeepsInvariant := by
  intro s t hs h
  rcases step_cases s with ⟨rest, e⟩ | ⟨acc, rest, -, e⟩ <;> rw [e] at h
  · exact coreMove_inv (s := s.advance rest) hs h
  · obtain ⟨u, sched, rsp, hm, he⟩ := hostMove_effect acc (s.advance rest)
    cases h.symm.trans hm
    exact he.inv (s := s.advance rest) hs

theorem resetOf_inv {c : Caps} (h : c.wf = true) : (State.resetOf c).Inv :=
  ⟨h, rfl, by simp [State.RamOk, State.resetOf], by simp [State.SequencerOk, State.resetOf, Status.reset],
    by simp [State.ErrorOk, State.resetOf, Status.reset], Nat.zero_le _⟩

/-- Settles O55: nothing is written, nothing runs and no error is recorded after reset. -/
theorem resetMeetsInvariant : Obligations.ResetMeetsInvariant :=
  ⟨resetOf_inv (by decide), fun _ => resetOf_inv⟩

end Sys2Proof.Machine
end

section
/-! When a stage meets a never-written word (R13). -/

namespace Sys2Proof.Machine

/-- A single-stage command whose stage faults stops the machine with that fault. -/
theorem exec_fault_of_stageRule {i : Instr} {st : Stage}
    (hi : i ∈ [Instr.run, .filter, .spectrum, .peaks, .hash]) (hl : stagesOf i.opcode = [st])
    {s : State} {r : Fault} (hs : s.Executing i st) (h : stageRule st s.newEpoch = .fault r) :
    exec i s = .fault r := by
  obtain ⟨hb, hop, hst⟩ := hs
  rw [exec_executing hi s hb hop]
  simp [stageListOf, hl, coreStep, hst, h]

theorem collectFrom_eq_none {α : Type} {f : Nat → Option α} {start n i : Nat} (hi : i < n)
    (h : f (start + i) = none) : collectFrom f start n = none := by
  by_contra hn
  have := (collectFrom_isSome_iff f n start).mp (Option.isSome_iff_ne_none.mpr hn) i hi
  simp [h] at this

theorem filterStage_fault {s : State} (hc : filterChecks s = none)
    (h : filterSamples s = none ∨ filterKernel s = none) : filterStage s = .fault .unwrittenWord := by
  rcases filterStage_cases s with ⟨_, _, e, -⟩ | ⟨-, _, _, hs, hk, -⟩ | ⟨-, -, e⟩
  · simp [hc] at e
  · simp [hs, hk] at h
  · exact e

theorem spectrumStage_fault {s : State} (hc : spectrumChecks s = none)
    (h : spectrumWindow s = none ∨ collectFrom (frameAt s) 0 (spectrumFrames s) = none) :
    spectrumStage s = .fault .unwrittenWord := by
  rcases spectrumStage_cases s with ⟨_, _, e, -⟩ | ⟨-, _, _, hs, hk, -⟩ | ⟨-, -, e⟩
  · simp [hc] at e
  · simp [hs, hk] at h
  · exact e

theorem peaksStage_fault {s : State} (hc : peaksChecks s = none)
    (h : collectFrom (specAt s.mem) 0 (peakEntries s) = none) :
    peaksStage s = .fault .unwrittenWord := by
  rcases peaksStage_cases s with ⟨_, _, e, -⟩ | ⟨-, _, hs, -⟩ | ⟨-, -, e⟩
  · simp [hc] at e
  · simp [hs] at h
  · exact e

theorem hashStage_fault {s : State} (hc : hashChecks s = none)
    (h : collectFrom (peakKeyAt s.mem) 0 s.len.numPeaks.toNat = none) :
    hashStage s = .fault .unwrittenWord := by
  rcases hashStage_cases s with ⟨_, _, e, -⟩ | ⟨-, _, hs, -⟩ | ⟨-, -, e⟩
  · simp [hc] at e
  · simp [hs] at h
  · exact e

theorem peakKeyAt_eq_none {m : Memory} {p : Nat} (h : peakFrameAt m p = none ∨ peakBinAt m p = none) :
    peakKeyAt m p = none := by
  unfold peakKeyAt
  rcases h with h | h
  · rw [h]
  · rw [h]; cases peakFrameAt m p <;> rfl

/-- Settles O50: the missing word makes the collection of the stage's operands fail. The stage runs in a
new epoch, which neither its checks nor its reads see. -/
theorem unwrittenWordFaults : Obligations.UnwrittenWordFaults := by
  intro s
  refine ⟨fun hs hc ⟨n, hn, h⟩ => ?_, fun hs hc hne ⟨j, hj, h⟩ => ?_, fun hs hc hf ⟨n, hn, h⟩ => ?_,
    fun hs hc ⟨g, n, hg, hn, h⟩ => ?_, fun hs hc ⟨e, he, h⟩ => ?_, fun hs hc ⟨p, hp, h⟩ => ?_⟩
  · refine exec_fault_of_stageRule (by simp) rfl hs (filterStage_fault (s := s.newEpoch) hc (.inl ?_))
    exact collectFrom_eq_none (i := n) hn (by simpa using h)
  · refine exec_fault_of_stageRule (by simp) rfl hs (filterStage_fault (s := s.newEpoch) hc (.inr ?_))
    have h0 : s.cfg.numSamples.toNat ≠ 0 := fun e => hne (BitVec.eq_of_toNat_eq e)
    exact collectFrom_eq_none (i := j) (by simpa [h0] using hj) (by simpa using h)
  · refine exec_fault_of_stageRule (by simp) rfl hs (spectrumStage_fault (s := s.newEpoch) hc (.inl ?_))
    have h0 : spectrumFrames s.newEpoch ≠ 0 := hf.ne'
    exact collectFrom_eq_none (i := n) (by simpa [h0] using hn) (by simpa using h)
  · refine exec_fault_of_stageRule (by simp) rfl hs (spectrumStage_fault (s := s.newEpoch) hc (.inr ?_))
    exact collectFrom_eq_none (i := g) hg (by rw [zero_add]; exact collectFrom_eq_none (i := n) hn h)
  · refine exec_fault_of_stageRule (by simp) rfl hs (peaksStage_fault (s := s.newEpoch) hc ?_)
    exact collectFrom_eq_none (i := e) he (by simpa using h)
  · refine exec_fault_of_stageRule (by simp) rfl hs (hashStage_fault (s := s.newEpoch) hc ?_)
    exact collectFrom_eq_none (i := p) hp (by simpa using peakKeyAt_eq_none h)

end Sys2Proof.Machine
end

section
/-! What a binary64 pattern stands for (R10): its sign and its magnitude bits, and the value of the bits in
units of 2^-1074. -/

namespace Sys2Proof.Machine

/-! ### Sign and magnitude bits -/

/-- The exponent and fraction bits of a pattern, as a number; those of the infinities are `2047 * 2^52`. -/
def magBits (x : F64) : Nat := (x.setWidth 63).toNat

/-- The value in units of 2^-1074 of the magnitude bits `b`; past the largest finite value the pattern of
the binades goes on. -/
def bitsUnits (b : Nat) : Nat := if b < 2 ^ 52 then b else (2 ^ 52 + b % 2 ^ 52) * 2 ^ (b / 2 ^ 52 - 1)

theorem magBits_eq_mod (x : F64) : magBits x = x.toNat % 2 ^ 63 := by
  simp [magBits, BitVec.toNat_setWidth]

theorem sign_eq_decide (x : F64) : x.getLsbD 63 = decide (2 ^ 63 ≤ x.toNat) := by
  simpa [BitVec.msb_eq_getLsbD_last] using BitVec.msb_eq_decide x

theorem toNat_eq_sign_add_magBits (x : F64) :
    x.toNat = (if x.getLsbD 63 then 2 ^ 63 else 0) + magBits x := by
  rw [magBits_eq_mod, sign_eq_decide]
  have := x.isLt
  simp only [decide_eq_true_eq]
  split <;> omega

/-- Sign and magnitude bits determine the pattern. -/
theorem eq_of_sign_magBits {x y : F64} (hs : x.getLsbD 63 = y.getLsbD 63) (hm : magBits x = magBits y) :
    x = y :=
  BitVec.eq_of_toNat_eq (by rw [toNat_eq_sign_add_magBits x, toNat_eq_sign_add_magBits y, hs, hm])

theorem magBits_ofNat {neg : Bool} {b : Nat} (hb : b < 2 ^ 63) :
    magBits (BitVec.ofNat 64 ((if neg then 2 ^ 63 else 0) + b)) = b := by
  rw [magBits_eq_mod, BitVec.toNat_ofNat]
  cases neg <;> simp <;> omega

theorem sign_ofNat {neg : Bool} {b : Nat} (hb : b < 2 ^ 63) :
    (BitVec.ofNat 64 ((if neg then 2 ^ 63 else 0) + b)).getLsbD 63 = neg := by
  rw [sign_eq_decide, BitVec.toNat_ofNat]
  cases neg <;> simp <;> omega

@[simp] theorem magBits_infinity (s : Bool) : magBits (infinity s) = 2047 * 2 ^ 52 := by cases s <;> rfl
theorem sign_infinity (s : Bool) : (infinity s).getLsbD 63 = s := by cases s <;> rfl
@[simp] theorem magBits_zeroOf (s : Bool) : magBits (zeroOf s) = 0 := by cases s <;> rfl
theorem sign_zeroOf (s : Bool) : (zeroOf s).getLsbD 63 = s := by cases s <;> rfl

@[simp] theorem magBits_fneg (x : F64) : magBits (fneg x) = magBits x := by
  simp [magBits, fneg, BitVec.setWidth_xor]

theorem sign_fneg (x : F64) : (fneg x).getLsbD 63 = !x.getLsbD 63 := by
  simp [fneg]

/-! ### The three classes -/

theorem unpack_exponent (x : F64) : (x.extractLsb' 52 11).toNat = magBits x / 2 ^ 52 := by
  rw [magBits_eq_mod, BitVec.extractLsb'_toNat, Nat.shiftRight_eq_div_pow]
  omega

theorem unpack_fraction (x : F64) : (x.extractLsb' 0 52).toNat = magBits x % 2 ^ 52 := by
  rw [magBits_eq_mod, BitVec.extractLsb'_toNat, Nat.shiftRight_eq_div_pow]
  omega

/-- Below the magnitude bits of infinity a pattern is finite, with the value of its bits. -/
theorem unpack_of_lt {x : F64} (h : magBits x < 2047 * 2 ^ 52) :
    ∃ m e, unpack x = .fin (x.getLsbD 63) m e ∧ m * 2 ^ e = bitsUnits (magBits x) ∧
      m < 2 ^ 53 ∧ e ≤ 2045 := by
  have h₁ : magBits x / 2 ^ 52 < 2047 := Nat.div_lt_of_lt_mul (by rwa [mul_comm])
  have h₂ : magBits x % 2 ^ 52 < 2 ^ 52 := Nat.mod_lt _ (by norm_num)
  simp only [unpack, unpack_exponent, unpack_fraction, if_neg h₁.ne, bitsUnits]
  by_cases h₀ : magBits x / 2 ^ 52 = 0
  · have h₃ : magBits x < 2 ^ 52 := by omega
    refine ⟨_, _, if_pos h₀, ?_, by omega, by omega⟩
    rw [if_pos h₃, Nat.mod_eq_of_lt h₃, pow_zero, mul_one]
  · have h₃ : ¬magBits x < 2 ^ 52 := by omega
    exact ⟨_, _, if_neg h₀, by rw [if_neg h₃], by omega, by omega⟩

theorem unpack_of_eq {x : F64} (h : magBits x = 2047 * 2 ^ 52) : unpack x = .inf (x.getLsbD 63) := by
  simp only [unpack, unpack_exponent, unpack_fraction, h]
  rfl

theorem unpack_of_gt {x : F64} (h : 2047 * 2 ^ 52 < magBits x) : unpack x = .nan := by
  have hb : magBits x < 2 ^ 63 := (x.setWidth 63).isLt
  have h₁ : magBits x / 2 ^ 52 = 2047 := by omega
  have h₂ : magBits x % 2 ^ 52 ≠ 0 := by omega
  simp only [unpack, unpack_exponent, unpack_fraction, if_pos h₁, if_neg h₂]

@[simp] theorem unpack_infinity (s : Bool) : unpack (infinity s) = .inf s := by
  rw [unpack_of_eq (magBits_infinity s), sign_infinity]

/-- The only patterns of an infinity. -/
theorem eq_infinity_of_unpack {x : F64} {s : Bool} (h : unpack x = .inf s) : x = infinity s := by
  rcases lt_trichotomy (magBits x) (2047 * 2 ^ 52) with hlt | heq | hgt
  · obtain ⟨m, e, hu, -⟩ := unpack_of_lt hlt
    cases hu.symm.trans h
  · cases (unpack_of_eq heq).symm.trans h
    exact eq_of_sign_magBits (sign_infinity _).symm (heq.trans (magBits_infinity _).symm)
  · cases (unpack_of_gt hgt).symm.trans h

theorem magBits_lt_of_unpack_fin {x : F64} {s : Bool} {m e : Nat} (h : unpack x = .fin s m e) :
    magBits x < 2047 * 2 ^ 52 := by
  by_contra hn
  rcases (not_lt.mp hn).eq_or_lt with heq | hgt
  · cases (unpack_of_eq heq.symm).symm.trans h
  · cases (unpack_of_gt hgt).symm.trans h

/-- The parts of a finite pattern. -/
theorem unpack_fin_parts {x : F64} {s : Bool} {m e : Nat} (h : unpack x = .fin s m e) :
    s = x.getLsbD 63 ∧ m * 2 ^ e = bitsUnits (magBits x) ∧ m < 2 ^ 53 ∧ e ≤ 2045 := by
  obtain ⟨m', e', hu, hparts⟩ := unpack_of_lt (magBits_lt_of_unpack_fin h)
  cases hu.symm.trans h
  exact ⟨rfl, hparts⟩

/-! ### Units -/

theorem unitsOf_eq_signedMant (s : Bool) (m e : Nat) : unitsOf s m e = signedMant s (m * 2 ^ e) := rfl

@[simp] theorem natAbs_signedMant (s : Bool) (m : Nat) : (signedMant s m).natAbs = m := by
  cases s <;> simp [signedMant]

theorem signedMant_eq_zero_iff {s : Bool} {m : Nat} : signedMant s m = 0 ↔ m = 0 := by
  rw [← Int.natAbs_eq_zero, natAbs_signedMant]

theorem signedMant_neg_iff {s : Bool} {m : Nat} (h : m ≠ 0) : signedMant s m < 0 ↔ s = true := by
  cases s <;> simp [signedMant]; omega

theorem signedMant_decide (n : Int) : signedMant (decide (n < 0)) n.natAbs = n := by
  by_cases h : n < 0
  · simp only [signedMant, h, decide_true, if_true]; omega
  · simp only [signedMant, h, decide_false, Bool.false_eq_true, if_false]; omega

theorem neg_signedMant (s : Bool) (m : Nat) : -signedMant s m = signedMant (!s) m := by
  cases s <;> simp [signedMant]

theorem signedMant_mul (s t : Bool) (m n : Nat) :
    signedMant s m * signedMant t n = signedMant (s ^^ t) (m * n) := by
  cases s <;> cases t <;> simp [signedMant]

theorem finiteUnits_of_fin {x : F64} {s : Bool} {m e : Nat} (h : unpack x = .fin s m e) :
    finiteUnits x = some (unitsOf s m e) := by simp [finiteUnits, h]

/-- A value with units is finite, and they are those of its mantissa. -/
theorem exists_fin_of_finiteUnits {x : F64} {u : Int} (h : finiteUnits x = some u) :
    ∃ m e, unpack x = .fin (x.getLsbD 63) m e ∧ u = unitsOf (x.getLsbD 63) m e := by
  cases hx : unpack x with
  | nan => simp [finiteUnits, hx] at h
  | inf s => simp [finiteUnits, hx] at h
  | fin s m e =>
    obtain rfl := (unpack_fin_parts hx).1
    rw [finiteUnits_of_fin hx, Option.some.injEq] at h
    exact ⟨m, e, rfl, h.symm⟩

/-- The units of a finite pattern are its sign and the value of its magnitude bits. -/
theorem finiteUnits_eq_some_iff {x : F64} {u : Int} :
    finiteUnits x = some u ↔
      magBits x < 2047 * 2 ^ 52 ∧ u = signedMant (x.getLsbD 63) (bitsUnits (magBits x)) := by
  constructor
  · intro h
    obtain ⟨m, e, hx, rfl⟩ := exists_fin_of_finiteUnits h
    rw [← (unpack_fin_parts hx).2.1]
    exact ⟨magBits_lt_of_unpack_fin hx, rfl⟩
  · rintro ⟨hlt, rfl⟩
    obtain ⟨m, e, hx, hm, -⟩ := unpack_of_lt hlt
    rw [finiteUnits_of_fin hx, unitsOf_eq_signedMant, hm]

theorem finiteUnits_eq_none_iff {x : F64} : finiteUnits x = none ↔ 2047 * 2 ^ 52 ≤ magBits x := by
  rw [← not_iff_not, ← ne_eq, Option.ne_none_iff_exists', not_le]
  simp [finiteUnits_eq_some_iff]

theorem finiteUnits_fneg {x : F64} {u : Int} (h : finiteUnits x = some u) :
    finiteUnits (fneg x) = some (-u) := by
  rw [finiteUnits_eq_some_iff] at h ⊢
  rw [magBits_fneg, sign_fneg, h.2, neg_signedMant]
  exact ⟨h.1, rfl⟩

theorem bitsUnits_eq_zero_iff {b : Nat} : bitsUnits b = 0 ↔ b = 0 := by
  unfold bitsUnits
  split_ifs with h
  · rfl
  · have h₁ : (2 ^ 52 + b % 2 ^ 52) * 2 ^ (b / 2 ^ 52 - 1) ≠ 0 := by positivity
    exact iff_of_false h₁ (by omega)

/-- A value of no units is a zero. -/
theorem eq_zeroOf_of_finiteUnits {x : F64} (h : finiteUnits x = some 0) : x = zeroOf (x.getLsbD 63) := by
  obtain ⟨-, hu⟩ := finiteUnits_eq_some_iff.mp h
  refine eq_of_sign_magBits (sign_zeroOf _).symm ?_
  rw [magBits_zeroOf, ← bitsUnits_eq_zero_iff, ← signedMant_eq_zero_iff (s := x.getLsbD 63), ← hu]

end Sys2Proof.Machine
end

section
/-! The binary64 operations on each class of operands (R10, R11). -/

namespace Sys2Proof.Machine

/-! ### Rounded values -/

theorem roundBits_le (m k : Nat) : roundBits m k ≤ 2047 * 2 ^ 52 := Nat.min_le_right _ _

theorem roundBits_zero (k : Nat) : roundBits 0 k = 0 := by simp [roundBits]

@[simp] theorem magBits_roundDyadic (neg : Bool) (m k : Nat) :
    magBits (roundDyadic neg m k) = roundBits (m * 2 ^ (1074 - k)) (max k 1074) :=
  magBits_ofNat ((roundBits_le _ _).trans_lt (by norm_num))

theorem sign_roundDyadic (neg : Bool) (m k : Nat) : (roundDyadic neg m k).getLsbD 63 = neg :=
  sign_ofNat ((roundBits_le _ _).trans_lt (by norm_num))

/-- Zero rounds to the zero of its sign. -/
theorem roundDyadic_zero (neg : Bool) (k : Nat) : roundDyadic neg 0 k = zeroOf neg :=
  eq_of_sign_magBits (by rw [sign_roundDyadic, sign_zeroOf]) (by simp [roundBits_zero])

theorem unpack_ne_nan_of_le {x : F64} (h : magBits x ≤ 2047 * 2 ^ 52) : unpack x ≠ .nan := by
  intro hn
  rcases h.lt_or_eq with hlt | heq
  · obtain ⟨m, e, hu, -⟩ := unpack_of_lt hlt
    cases hu.symm.trans hn
  · cases (unpack_of_eq heq).symm.trans hn

theorem unpack_roundDyadic_ne_nan (neg : Bool) (m k : Nat) : unpack (roundDyadic neg m k) ≠ .nan :=
  unpack_ne_nan_of_le ((magBits_roundDyadic _ _ _).trans_le (roundBits_le _ _))

theorem unpack_infinity_ne_nan (s : Bool) : unpack (infinity s) ≠ .nan := by simp

theorem unpack_zeroOf_ne_nan (s : Bool) : unpack (zeroOf s) ≠ .nan :=
  unpack_ne_nan_of_le (by simp)

/-! ### Negation -/

theorem unpack_fneg_nan {x : F64} (h : unpack x = .nan) : unpack (fneg x) = .nan := by
  refine unpack_of_gt ?_
  rw [magBits_fneg]
  rcases lt_trichotomy (magBits x) (2047 * 2 ^ 52) with hlt | heq | hgt
  · exact absurd h (unpack_ne_nan_of_le hlt.le)
  · exact absurd h (unpack_ne_nan_of_le heq.le)
  · exact hgt

@[simp] theorem fneg_infinity (s : Bool) : fneg (infinity s) = infinity (!s) :=
  eq_of_sign_magBits (by simp only [sign_fneg, sign_infinity]) (by simp)

/-! ### A NaN operand -/

theorem fadd_nan_left {a : F64} (h : unpack a = .nan) (b : F64) : fadd a b = canonicalNaN := by
  simp [fadd, h]

theorem fadd_nan_right {b : F64} (h : unpack b = .nan) (a : F64) : fadd a b = canonicalNaN := by
  unfold fadd; rw [h]; cases unpack a <;> rfl

theorem fmul_nan_left {a : F64} (h : unpack a = .nan) (b : F64) : fmul a b = canonicalNaN := by
  simp [fmul, h]

theorem fmul_nan_right {b : F64} (h : unpack b = .nan) (a : F64) : fmul a b = canonicalNaN := by
  unfold fmul; rw [h]; cases unpack a <;> rfl

theorem fsqrt_nan {a : F64} (h : unpack a = .nan) : fsqrt a = canonicalNaN := by simp [fsqrt, h]

theorem fgt_nan_left {a : F64} (h : unpack a = .nan) (b : F64) : fgt a b = false := by simp [fgt, h]

theorem fgt_nan_right {b : F64} (h : unpack b = .nan) (a : F64) : fgt a b = false := by
  unfold fgt; rw [h]; cases unpack a <;> rfl

/-! ### Results that are a NaN -/

theorem fadd_canonical (a b : F64) : unpack (fadd a b) = .nan → fadd a b = canonicalNaN := by
  unfold fadd
  split
  · exact fun _ => rfl
  · exact fun _ => rfl
  · split_ifs
    · exact (absurd · (unpack_infinity_ne_nan _))
    · exact fun _ => rfl
  · exact (absurd · (unpack_infinity_ne_nan _))
  · exact (absurd · (unpack_infinity_ne_nan _))
  · dsimp only
    split_ifs
    · exact (absurd · (unpack_zeroOf_ne_nan _))
    · exact (absurd · (unpack_roundDyadic_ne_nan _ _ _))

theorem fmul_canonical (a b : F64) : unpack (fmul a b) = .nan → fmul a b = canonicalNaN := by
  unfold fmul
  split
  · exact fun _ => rfl
  · exact fun _ => rfl
  · exact (absurd · (unpack_infinity_ne_nan _))
  · split_ifs
    · exact fun _ => rfl
    · exact (absurd · (unpack_infinity_ne_nan _))
  · split_ifs
    · exact fun _ => rfl
    · exact (absurd · (unpack_infinity_ne_nan _))
  · exact (absurd · (unpack_roundDyadic_ne_nan _ _ _))

theorem fsqrt_canonical (a : F64) : unpack (fsqrt a) = .nan → fsqrt a = canonicalNaN := by
  unfold fsqrt
  split
  · exact fun _ => rfl
  · split_ifs
    · exact fun _ => rfl
    · exact (absurd · (unpack_infinity_ne_nan _))
  · split_ifs
    · exact (absurd · (unpack_zeroOf_ne_nan _))
    · exact fun _ => rfl
    · exact (absurd · (unpack_roundDyadic_ne_nan _ _ _))

/-! ### Finite operands -/

section
variable {a b : F64} {u v : Int} (ha : finiteUnits a = some u) (hb : finiteUnits b = some v)
include ha hb

/-- A sum of finite values is a zero, or the exact sum rounded. -/
theorem fadd_finite : fadd a b =
    if u + v = 0 then zeroOf (a.getLsbD 63 && b.getLsbD 63)
    else roundDyadic (decide (u + v < 0)) (u + v).natAbs 1074 := by
  obtain ⟨m, e, hx, rfl⟩ := exists_fin_of_finiteUnits ha
  obtain ⟨n, f, hy, rfl⟩ := exists_fin_of_finiteUnits hb
  simp [fadd, hx, hy]

/-- A difference of finite values is a zero, or the exact difference rounded. -/
theorem fsub_finite : fsub a b =
    if u - v = 0 then zeroOf (a.getLsbD 63 && !b.getLsbD 63)
    else roundDyadic (decide (u - v < 0)) (u - v).natAbs 1074 := by
  rw [fsub, fadd_finite ha (finiteUnits_fneg hb), sign_fneg, ← sub_eq_add_neg]

/-- A product of finite values is the exact product rounded, with the exclusive or of the signs. -/
theorem fmul_finite :
    fmul a b = roundDyadic (a.getLsbD 63 ^^ b.getLsbD 63) (u * v).natAbs 2148 := by
  obtain ⟨m, e, hx, rfl⟩ := exists_fin_of_finiteUnits ha
  obtain ⟨n, f, hy, rfl⟩ := exists_fin_of_finiteUnits hb
  simp only [fmul, hx, hy, unitsOf_eq_signedMant, Int.natAbs_mul, natAbs_signedMant]
  congr 1
  ring

/-- Finite values compare by their units. -/
theorem fgt_finite : fgt a b = decide (v < u) := by
  obtain ⟨m, e, hx, rfl⟩ := exists_fin_of_finiteUnits ha
  obtain ⟨n, f, hy, rfl⟩ := exists_fin_of_finiteUnits hb
  simp [fgt, hx, hy]

end

/-! ### An infinite operand -/

section
variable (s : Bool) {b : F64} {v : Int} (hb : finiteUnits b = some v)
include hb

theorem fadd_infinity_finite : fadd (infinity s) b = infinity s := by
  obtain ⟨n, f, hy, -⟩ := exists_fin_of_finiteUnits hb
  simp [fadd, hy]

theorem fadd_finite_infinity : fadd b (infinity s) = infinity s := by
  obtain ⟨n, f, hy, -⟩ := exists_fin_of_finiteUnits hb
  simp [fadd, hy]

theorem fsub_infinity_finite : fsub (infinity s) b = infinity s :=
  fadd_infinity_finite s (finiteUnits_fneg hb)

theorem fsub_finite_infinity : fsub b (infinity s) = infinity (!s) := by
  rw [fsub, fneg_infinity, fadd_finite_infinity _ hb]

/-- An infinity times a finite value: no number if that is a zero. -/
theorem fmul_infinity_finite :
    fmul (infinity s) b = if v = 0 then canonicalNaN else infinity (s ^^ b.getLsbD 63) := by
  obtain ⟨n, f, hy, rfl⟩ := exists_fin_of_finiteUnits hb
  simp [fmul, hy, unitsOf_eq_signedMant, signedMant_eq_zero_iff]

theorem fmul_finite_infinity :
    fmul b (infinity s) = if v = 0 then canonicalNaN else infinity (s ^^ b.getLsbD 63) := by
  obtain ⟨n, f, hy, rfl⟩ := exists_fin_of_finiteUnits hb
  simp [fmul, hy, unitsOf_eq_signedMant, signedMant_eq_zero_iff, Bool.xor_comm]

end

theorem fadd_infinity_infinity (s t : Bool) :
    fadd (infinity s) (infinity t) = if s = t then infinity s else canonicalNaN := by simp [fadd]

theorem fsub_infinity_infinity (s t : Bool) :
    fsub (infinity s) (infinity t) = if s = t then canonicalNaN else infinity s := by
  rw [fsub, fneg_infinity, fadd_infinity_infinity]
  cases s <;> cases t <;> rfl

theorem fmul_infinity_infinity (s t : Bool) :
    fmul (infinity s) (infinity t) = infinity (s ^^ t) := by simp [fmul]

/-! ### Comparing with an infinity -/

theorem eq_infinity_iff (a : F64) (s : Bool) : a = infinity s ↔ unpack a = .inf s :=
  ⟨fun h => h ▸ unpack_infinity s, eq_infinity_of_unpack⟩

/-- +inf is above everything but itself and the NaNs. -/
theorem fgt_posInfinity_iff {a : F64} (h : unpack a ≠ .nan) :
    fgt (infinity false) a = true ↔ a ≠ infinity false := by
  rw [ne_eq, eq_infinity_iff]
  unfold fgt
  rw [unpack_infinity]
  cases hx : unpack a with
  | nan => exact absurd hx h
  | inf s => cases s <;> simp
  | fin s m e => simp

/-- -inf is below everything but itself and the NaNs. -/
theorem fgt_negInfinity_iff {a : F64} (h : unpack a ≠ .nan) :
    fgt a (infinity true) = true ↔ a ≠ infinity true := by
  rw [ne_eq, eq_infinity_iff]
  unfold fgt
  rw [unpack_infinity]
  cases hx : unpack a with
  | nan => exact absurd hx h
  | inf s => cases s <;> simp
  | fin s m e => simp

theorem fgt_posInfinity_right (a : F64) : fgt a (infinity false) = false := by
  unfold fgt
  rw [unpack_infinity]
  cases unpack a <;> simp

theorem fgt_negInfinity_left (a : F64) : fgt (infinity true) a = false := by
  unfold fgt
  rw [unpack_infinity]
  cases unpack a <;> simp

/-- Settles O51: each clause is the rule of one operation on one class of operands. -/
theorem nanIsCanonical : Obligations.NanIsCanonical := by
  refine ⟨fun a b => ⟨fadd_canonical a b, fadd_canonical a _, fmul_canonical a b, fsqrt_canonical a,
    fun h => ?_⟩, fun a b u v ha hb => ?_, fun a h => ?_, ⟨rfl, rfl⟩,
    fun s b v hb => ?_, fun s t => ?_, fun a b u v ha hb => ⟨fun h => ?_, fun h => ?_, fun h => ?_⟩⟩
  · exact ⟨fadd_nan_left h b, fadd_nan_right h b, fadd_nan_left h _, fadd_nan_right (unpack_fneg_nan h) b,
      fmul_nan_left h b, fmul_nan_right h b, fsqrt_nan h, fgt_nan_left h b, fgt_nan_right h b⟩
  · rw [fgt_finite ha hb, decide_eq_true_eq]
  · exact ⟨fgt_posInfinity_iff h, fgt_negInfinity_iff h, fgt_posInfinity_right a, fgt_negInfinity_left a⟩
  · refine ⟨fadd_infinity_finite s hb, fadd_finite_infinity s hb, fsub_infinity_finite s hb,
      fsub_finite_infinity s hb, fun hv => ?_, fun hv => ?_⟩
    · rw [fmul_infinity_finite s hb, fmul_finite_infinity s hb, if_neg hv]
      exact ⟨rfl, rfl⟩
    · rw [fmul_infinity_finite s hb, fmul_finite_infinity s hb, if_pos hv]
      exact ⟨rfl, rfl⟩
  · exact ⟨fadd_infinity_infinity s t, fsub_infinity_infinity s t, fmul_infinity_infinity s t⟩
  · rw [fadd_finite ha hb, if_pos h]; rfl
  · rw [fsub_finite ha hb, if_pos h]; rfl
  · rw [fmul_finite ha hb, h, Int.natAbs_zero, roundDyadic_zero]; rfl

end Sys2Proof.Machine
end

section
/-! Rounding to nearest, ties to even (R10): the kept significand is the nearest whole number of its last
place, and no binary64 value off that grid is as near. -/

namespace Sys2Proof.Machine

/-! ### The rounding of a number to a multiple of `2^d` -/

/-- `m / 2^d` rounded to the nearest whole number, ties to even. -/
def roundHalfEven (m d : Nat) : Nat :=
  m / 2 ^ d + if 2 ^ d < 2 * (m % 2 ^ d) ∨ (2 * (m % 2 ^ d) = 2 ^ d ∧ m / 2 ^ d % 2 = 1) then 1 else 0

/-- The low bits dropped from `m`: to 53 bits, and no fewer than the `e` bits below one unit. -/
def droppedBits (m e : Nat) : Nat := max (m.log2 + 1 - 53) e

theorem roundBits_eq (m k : Nat) : roundBits m k =
    min ((droppedBits m (k - 1074) - (k - 1074)) * 2 ^ 52 + roundHalfEven m (droppedBits m (k - 1074)))
      (2047 * 2 ^ 52) := rfl

theorem le_droppedBits (m e : Nat) : e ≤ droppedBits m e := Nat.le_max_right _ _

/-- The number split at its last kept place: rounded down over at most half of it, or up over at least half,
and on a tie to the even one. -/
theorem roundHalfEven_cases (m d : Nat) : ∃ q r, m = q * 2 ^ d + r ∧ r < 2 ^ d ∧ q = m / 2 ^ d ∧
    ((roundHalfEven m d = q ∧ (2 * r < 2 ^ d ∨ 2 * r = 2 ^ d ∧ q % 2 = 0)) ∨
      (roundHalfEven m d = q + 1 ∧ (2 ^ d < 2 * r ∨ 2 * r = 2 ^ d ∧ q % 2 = 1))) := by
  refine ⟨m / 2 ^ d, m % 2 ^ d, (Nat.div_add_mod' _ _).symm, Nat.mod_lt _ (by positivity), rfl, ?_⟩
  unfold roundHalfEven
  split_ifs with h
  · exact .inr ⟨rfl, h⟩
  · exact .inl ⟨rfl, by omega⟩

/-- No multiple of `2^d` is nearer to `m` than the rounded one, and another as near makes it even. -/
theorem roundHalfEven_nearest (m d : Nat) (j : Int) :
    |(m : Int) - roundHalfEven m d * 2 ^ d| ≤ |(m : Int) - j * 2 ^ d| ∧
    (|(m : Int) - roundHalfEven m d * 2 ^ d| = |(m : Int) - j * 2 ^ d| → j ≠ roundHalfEven m d →
      roundHalfEven m d % 2 = 0) := by
  obtain ⟨q, r, hm, hr, -, h⟩ := roundHalfEven_cases m d
  have hD : (0 : Int) < 2 ^ d := by positivity
  obtain ⟨i, rfl⟩ : ∃ i, j = q + i := ⟨j - q, by ring⟩
  have hj : (m : Int) - (q + i) * 2 ^ d = r - i * 2 ^ d := by rw [hm]; push_cast; ring
  have hlow (hi : i ≤ 0) : i * 2 ^ d ≤ 0 := mul_nonpos_of_nonpos_of_nonneg hi hD.le
  have hlow' (hi : i ≤ -1) : i * 2 ^ d ≤ -1 * 2 ^ d := mul_le_mul_of_nonneg_right hi hD.le
  have hhigh (hi : 1 ≤ i) : 1 * 2 ^ d ≤ i * 2 ^ d := mul_le_mul_of_nonneg_right hi hD.le
  have hhigh' (hi : 2 ≤ i) : 2 * 2 ^ d ≤ i * 2 ^ d := mul_le_mul_of_nonneg_right hi hD.le
  have hr' : (r : Int) < 2 ^ d := by exact_mod_cast hr
  rw [hj, abs_eq_max_neg, abs_eq_max_neg]
  rcases h with ⟨hs, h⟩ | ⟨hs, h⟩ <;> rw [hs]
  · have h2 : 2 * (r : Int) < 2 ^ d ∨ 2 * (r : Int) = 2 ^ d ∧ q % 2 = 0 := by exact_mod_cast h
    rw [show (m : Int) - q * 2 ^ d = r by rw [hm]; push_cast; ring]
    generalize (2 : Int) ^ d = D at *
    generalize i * D = x at *
    omega
  · have h2 : 2 ^ d < 2 * (r : Int) ∨ 2 * (r : Int) = 2 ^ d ∧ q % 2 = 1 := by exact_mod_cast h
    rw [show (m : Int) - (q + 1 : Nat) * 2 ^ d = r - 2 ^ d by rw [hm]; push_cast; ring]
    generalize (2 : Int) ^ d = D at *
    generalize i * D = x at *
    omega

/-! ### The significand fits, and fills its binade -/

theorem lt_pow_droppedBits (m e : Nat) : m < 2 ^ 53 * 2 ^ droppedBits m e := by
  rw [← pow_add]
  refine Nat.lt_log2_self.trans_le (Nat.pow_le_pow_right (by norm_num) ?_)
  have : m.log2 + 1 - 53 ≤ droppedBits m e := Nat.le_max_left _ _
  omega

/-- When more bits are dropped than lie below one unit, the significand is full. -/
theorem pow_le_of_lt_droppedBits {m e : Nat} (h : e < droppedBits m e) :
    2 ^ 52 * 2 ^ droppedBits m e ≤ m := by
  have hd : droppedBits m e = m.log2 + 1 - 53 := by unfold droppedBits at h ⊢; omega
  have hm : m ≠ 0 := by rintro rfl; simp [droppedBits] at h
  rw [← pow_add]
  exact (Nat.pow_le_pow_right (by norm_num) (by omega)).trans (Nat.log2_self_le hm)

theorem roundHalfEven_le (m e : Nat) : roundHalfEven m (droppedBits m e) ≤ 2 ^ 53 := by
  have hq : m / 2 ^ droppedBits m e < 2 ^ 53 :=
    Nat.div_lt_of_lt_mul (by rw [mul_comm]; exact lt_pow_droppedBits m e)
  obtain ⟨q, r, -, -, rfl, ⟨hs, -⟩ | ⟨hs, -⟩⟩ := roundHalfEven_cases m (droppedBits m e) <;> omega

theorem le_roundHalfEven {m e : Nat} (h : e < droppedBits m e) :
    2 ^ 52 ≤ roundHalfEven m (droppedBits m e) := by
  have hq : 2 ^ 52 ≤ m / 2 ^ droppedBits m e :=
    (Nat.le_div_iff_mul_le (by positivity)).mpr (pow_le_of_lt_droppedBits h)
  obtain ⟨q, r, -, -, rfl, ⟨hs, -⟩ | ⟨hs, -⟩⟩ := roundHalfEven_cases m (droppedBits m e) <;> omega

/-- The magnitude bits of a significand in its binade, also when rounding carried into the next one. -/
theorem bitsUnits_binade {p s : Nat} (hs : s ≤ 2 ^ 53) (hp : p = 0 ∨ 2 ^ 52 ≤ s) :
    bitsUnits (p * 2 ^ 52 + s) = s * 2 ^ p := by
  unfold bitsUnits
  by_cases h₁ : s < 2 ^ 52
  · obtain rfl : p = 0 := by omega
    rw [if_pos (by omega)]; simp
  rw [if_neg (by omega)]
  by_cases h₂ : s = 2 ^ 53
  · subst h₂
    rw [show (p * 2 ^ 52 + 2 ^ 53) % 2 ^ 52 = 0 by omega,
      show (p * 2 ^ 52 + 2 ^ 53) / 2 ^ 52 - 1 = p + 1 by omega]
    ring
  · rw [show (p * 2 ^ 52 + s) % 2 ^ 52 = s - 2 ^ 52 by omega,
      show (p * 2 ^ 52 + s) / 2 ^ 52 - 1 = p by omega, show 2 ^ 52 + (s - 2 ^ 52) = s by omega]

/-- Below the infinity the rounding's magnitude bits are those of the significand it kept. -/
theorem roundBits_of_lt {m k : Nat} (h : roundBits m k < 2047 * 2 ^ 52) : roundBits m k =
    (droppedBits m (k - 1074) - (k - 1074)) * 2 ^ 52 + roundHalfEven m (droppedBits m (k - 1074)) := by
  rw [roundBits_eq] at h ⊢
  omega

theorem bitsUnits_roundBits {m k : Nat} (h : roundBits m k < 2047 * 2 ^ 52) :
    bitsUnits (roundBits m k) = roundHalfEven m (droppedBits m (k - 1074)) *
      2 ^ (droppedBits m (k - 1074) - (k - 1074)) := by
  rw [roundBits_of_lt h]
  refine bitsUnits_binade (roundHalfEven_le _ _) ?_
  rcases (le_droppedBits m (k - 1074)).eq_or_lt with he | hlt
  · exact .inl (by omega)
  · exact .inr (le_roundHalfEven hlt)

/-! ### Every binary64 value lies on the grid or below the binade -/

/-- A binary64 magnitude is a multiple of `2^p` or lies below the binade whose last place is `2^p`. -/
theorem bitsUnits_dvd_or_lt (b p : Nat) : 2 ^ p ∣ bitsUnits b ∨ bitsUnits b < 2 ^ 52 * 2 ^ p := by
  unfold bitsUnits
  split_ifs with h
  · exact .inr (h.trans_le (Nat.le_mul_of_pos_right _ (by positivity)))
  · have hf : b % 2 ^ 52 < 2 ^ 52 := Nat.mod_lt _ (by norm_num)
    rcases le_or_gt p (b / 2 ^ 52 - 1) with hp | hp
    · exact .inl (Dvd.dvd.mul_left (pow_dvd_pow 2 hp) _)
    · right
      calc (2 ^ 52 + b % 2 ^ 52) * 2 ^ (b / 2 ^ 52 - 1)
          < 2 ^ 53 * 2 ^ (b / 2 ^ 52 - 1) := Nat.mul_lt_mul_of_pos_right (by omega) (by positivity)
        _ = 2 ^ 52 * 2 ^ (b / 2 ^ 52 - 1 + 1) := by ring
        _ ≤ 2 ^ 52 * 2 ^ p := Nat.mul_le_mul_left _ (Nat.pow_le_pow_right (by norm_num) hp)

theorem finiteUnits_dvd_or_lt {z : F64} {v : Int} (h : finiteUnits z = some v) (p : Nat) :
    (2 : Int) ^ p ∣ v ∨ v < 2 ^ 52 * 2 ^ p := by
  obtain ⟨-, rfl⟩ := finiteUnits_eq_some_iff.mp h
  rcases bitsUnits_dvd_or_lt (magBits z) p with hd | hl
  · left
    have hd' : (2 : Int) ^ p ∣ bitsUnits (magBits z) := by exact_mod_cast hd
    unfold signedMant
    split
    · exact hd'.neg_right
    · exact hd'
  · right
    have hl' : (bitsUnits (magBits z) : Int) < 2 ^ 52 * 2 ^ p := by exact_mod_cast hl
    unfold signedMant
    split
    · have : (0 : Int) ≤ bitsUnits (magBits z) := Int.natCast_nonneg _
      omega
    · exact hl'

/-- No finite binary64 value is nearer to `m * 2^-e` units than the rounded one; another as near makes the
kept significand even. -/
theorem roundHalfEven_nearest_finite (m e : Nat) {z : F64} {v : Int} (hz : finiteUnits z = some v) :
    |(m : Int) - roundHalfEven m (droppedBits m e) * 2 ^ droppedBits m e| ≤ |(m : Int) - v * 2 ^ e| ∧
    (|(m : Int) - roundHalfEven m (droppedBits m e) * 2 ^ droppedBits m e| = |(m : Int) - v * 2 ^ e| →
      v ≠ roundHalfEven m (droppedBits m e) * 2 ^ (droppedBits m e - e) →
      roundHalfEven m (droppedBits m e) % 2 = 0) := by
  have hpow : (2 : Int) ^ (droppedBits m e - e) * 2 ^ e = 2 ^ droppedBits m e := by
    rw [← pow_add, Nat.sub_add_cancel (le_droppedBits m e)]
  by_cases hdvd : (2 : Int) ^ (droppedBits m e - e) ∣ v
  · obtain ⟨j, rfl⟩ := hdvd
    obtain ⟨hle, heven⟩ := roundHalfEven_nearest m (droppedBits m e) j
    rw [show 2 ^ (droppedBits m e - e) * j * 2 ^ e = j * (2 : Int) ^ droppedBits m e by rw [← hpow]; ring]
    exact ⟨hle, fun heq hne => heven heq fun hj => hne (by rw [hj]; ring)⟩
  · have hlt : e < droppedBits m e := by
      rcases (le_droppedBits m e).eq_or_lt with he | hlt
      · rw [← he, Nat.sub_self, pow_zero] at hdvd
        exact absurd (one_dvd v) hdvd
      · exact hlt
    have hv : v * 2 ^ e < 2 ^ 52 * 2 ^ droppedBits m e := by
      rw [← hpow, ← mul_assoc]
      exact mul_lt_mul_of_pos_right ((finiteUnits_dvd_or_lt hz _).resolve_left hdvd) (by positivity)
    have hm : (2 : Int) ^ 52 * 2 ^ droppedBits m e ≤ m := by
      exact_mod_cast pow_le_of_lt_droppedBits hlt
    have hs := (roundHalfEven_nearest m (droppedBits m e) (2 ^ 52)).1
    have hstrict : |(m : Int) - 2 ^ 52 * 2 ^ droppedBits m e| < |(m : Int) - v * 2 ^ e| := by
      rw [abs_of_nonneg (by omega), abs_of_nonneg (by omega)]
      omega
    exact ⟨(hs.trans_lt hstrict).le, fun heq => absurd heq (hs.trans_lt hstrict).ne⟩

/-! ### The midpoint above the largest finite value -/

/-- The rounding is the infinity exactly from the midpoint above the largest finite value on. -/
theorem infinity_le_roundBits_iff (m k : Nat) :
    2047 * 2 ^ 52 ≤ roundBits m k ↔ (2 ^ 54 - 1) * 2 ^ (2044 + (k - 1074)) ≤ m := by
  rw [roundBits_eq, le_min_iff, and_iff_left le_rfl]
  generalize k - 1074 = e
  obtain ⟨p, hp⟩ := Nat.exists_eq_add_of_le (le_droppedBits m e)
  have hlt := lt_pow_droppedBits m e
  have hs := roundHalfEven_le m e
  rw [show droppedBits m e - e = p by omega]
  rcases lt_trichotomy p 2045 with hlow | rfl | hhigh
  · have : 2 ^ droppedBits m e ≤ 2 ^ (2044 + e) := Nat.pow_le_pow_right (by norm_num) (by omega)
    generalize 2 ^ (2044 + e) = Y at *
    omega
  · have hD : 2 ^ droppedBits m e = 2 * 2 ^ (2044 + e) := by rw [hp, ← pow_succ']; congr 1; omega
    obtain ⟨q, r, hm, hr, -, hcase⟩ := roundHalfEven_cases m (droppedBits m e)
    rw [hD] at hm hr hlt hcase
    generalize roundHalfEven m (droppedBits m e) = s at *
    generalize 2 ^ (2044 + e) = Y at *
    have hq : q ≤ 2 ^ 53 - 1 := by
      by_contra hn
      have := Nat.mul_le_mul_right (2 * Y) (show 2 ^ 53 ≤ q by omega)
      omega
    constructor
    · intro h
      obtain rfl : q = 2 ^ 53 - 1 := by omega
      omega
    · intro h
      obtain rfl : q = 2 ^ 53 - 1 := by
        by_contra hn
        have := Nat.mul_le_mul_right (2 * Y) (show q ≤ 2 ^ 53 - 2 by omega)
        omega
      omega
  · have hfull := le_roundHalfEven (show e < droppedBits m e by omega)
    have hm := pow_le_of_lt_droppedBits (show e < droppedBits m e by omega)
    have hD : 2 ^ (2046 + e) ≤ 2 ^ droppedBits m e := Nat.pow_le_pow_right (by norm_num) (by omega)
    rw [show 2046 + e = 2044 + e + 2 by omega, pow_add] at hD
    refine iff_of_true ?_ ?_
    · have : 2046 * 2 ^ 52 ≤ p * 2 ^ 52 := Nat.mul_le_mul_right _ hhigh
      omega
    · generalize 2 ^ (2044 + e) = Y at *
      omega

end Sys2Proof.Machine
end

section
/-! The rounding of a signed number, and the operations on finite values as roundings of their exact
results (R10). -/

namespace Sys2Proof.Machine

/-- `r` is the rounding of the number `n * 2^-k`. -/
def IsRounding (n : Int) (k : Nat) (r : F64) : Prop :=
  ∃ neg m, r = roundDyadic neg m k ∧ signedMant neg m = n

theorem decide_signedMant_neg {neg : Bool} {m : Nat} (h : m ≠ 0) :
    decide (signedMant neg m < 0) = neg := by
  cases neg <;> simp [signedMant]
  omega

theorem signedMant_mul_pow (neg : Bool) (m a : Nat) :
    signedMant neg m * 2 ^ a = signedMant neg (m * 2 ^ a) := by
  cases neg <;> simp [signedMant]

/-- A distance at scale `k` is one in units of the coarser of `2^-k` and `2^-1074`. -/
theorem abs_scaled (n u : Int) (k : Nat) : |n * 2 ^ 1074 - u * 2 ^ k| =
    2 ^ min k 1074 * |n * 2 ^ (1074 - k) - u * 2 ^ (k - 1074)| := by
  have h₁ : (2 : Int) ^ 1074 = 2 ^ min k 1074 * 2 ^ (1074 - k) := by
    rw [← pow_add, show min k 1074 + (1074 - k) = 1074 by omega]
  have h₂ : (2 : Int) ^ k = 2 ^ min k 1074 * 2 ^ (k - 1074) := by
    rw [← pow_add, show min k 1074 + (k - 1074) = k by omega]
  rw [h₁, h₂, ← abs_of_nonneg (show (0 : Int) ≤ 2 ^ min k 1074 by positivity), ← abs_mul,
    abs_of_nonneg (show (0 : Int) ≤ 2 ^ min k 1074 by positivity)]
  congr 1
  ring

theorem abs_signedMant_sub (neg : Bool) (m s : Nat) (e : Nat) :
    |signedMant neg m - signedMant neg s * 2 ^ e| = |(m : Int) - s * 2 ^ e| := by
  cases neg
  · rfl
  · rw [← abs_neg]; congr 1; simp [signedMant]; ring

theorem getLsbD_zero_eq (x : F64) : x.getLsbD 0 = decide (magBits x % 2 = 1) := by
  rw [magBits_eq_mod, BitVec.getLsbD, Nat.testBit_zero]
  congr 2
  omega

theorem max_1074_sub_1074 (k : Nat) : max k 1074 - 1074 = k - 1074 := by omega

/-! ### Nearest, ties to even -/

section
variable {neg : Bool} {m k : Nat} {u : Int} (hu : finiteUnits (roundDyadic neg m k) = some u)
include hu

/-- The units of a finite rounding: the significand it kept, in its binade. -/
theorem finiteUnits_roundDyadic : u = signedMant neg
    (roundHalfEven (m * 2 ^ (1074 - k)) (droppedBits (m * 2 ^ (1074 - k)) (k - 1074)) *
      2 ^ (droppedBits (m * 2 ^ (1074 - k)) (k - 1074) - (k - 1074))) := by
  obtain ⟨hlt, rfl⟩ := finiteUnits_eq_some_iff.mp hu
  rw [magBits_roundDyadic] at hlt
  rw [magBits_roundDyadic, sign_roundDyadic, bitsUnits_roundBits hlt, max_1074_sub_1074]

/-- The last fraction bit of a finite rounding is that of the significand it kept. -/
theorem lastBit_roundDyadic : (roundDyadic neg m k).getLsbD 0 =
    decide (roundHalfEven (m * 2 ^ (1074 - k)) (droppedBits (m * 2 ^ (1074 - k)) (k - 1074)) % 2 = 1) := by
  have hlt := (finiteUnits_eq_some_iff.mp hu).1
  rw [magBits_roundDyadic] at hlt
  rw [getLsbD_zero_eq, magBits_roundDyadic, roundBits_of_lt hlt, max_1074_sub_1074]
  exact decide_eq_decide.mpr (by rw [Nat.add_mod, Nat.mul_mod]; simp)

/-- No finite value is nearer than a finite rounding, and another as near makes its last bit 0. -/
theorem roundDyadic_nearest {z : F64} {v : Int} (hz : finiteUnits z = some v) :
    |signedMant neg m * 2 ^ 1074 - u * 2 ^ k| ≤ |signedMant neg m * 2 ^ 1074 - v * 2 ^ k| ∧
    (|signedMant neg m * 2 ^ 1074 - u * 2 ^ k| = |signedMant neg m * 2 ^ 1074 - v * 2 ^ k| → u ≠ v →
      (roundDyadic neg m k).getLsbD 0 = false) := by
  obtain ⟨z', v', hz', rfl⟩ : ∃ z' v', finiteUnits z' = some v' ∧ v = if neg then -v' else v' := by
    cases neg
    · exact ⟨z, v, hz, rfl⟩
    · exact ⟨fneg z, -v, finiteUnits_fneg hz, by simp⟩
  rw [lastBit_roundDyadic hu]
  obtain rfl := finiteUnits_roundDyadic hu
  rw [abs_scaled, abs_scaled, signedMant_mul_pow, abs_signedMant_sub]
  generalize m * 2 ^ (1074 - k) = M
  generalize k - 1074 = e
  obtain ⟨hle, heven⟩ := roundHalfEven_nearest_finite M e hz'
  have hs : ((roundHalfEven M (droppedBits M e) * 2 ^ (droppedBits M e - e) : Nat) : Int) * 2 ^ e =
      roundHalfEven M (droppedBits M e) * 2 ^ droppedBits M e := by
    push_cast
    rw [mul_assoc, ← pow_add, Nat.sub_add_cancel (le_droppedBits M e)]
  have hv : |signedMant neg M - (if neg then -v' else v') * 2 ^ e| = |(M : Int) - v' * 2 ^ e| := by
    cases neg
    · rfl
    · rw [← abs_neg]; congr 1; simp [signedMant]; ring
  have hpos : (0 : Int) < 2 ^ min k 1074 := by positivity
  rw [hs, hv]
  refine ⟨mul_le_mul_of_nonneg_left hle hpos.le, fun heq hne => ?_⟩
  have hodd := heven (mul_left_cancel₀ hpos.ne' heq) fun he => hne (by
    rw [he]; cases neg <;> simp [signedMant])
  simp [hodd]

end

/-- The rounding is no finite value exactly from the midpoint above the largest finite value on. -/
theorem finiteUnits_roundDyadic_eq_none_iff (neg : Bool) (m k : Nat) :
    finiteUnits (roundDyadic neg m k) = none ↔ (2 ^ 54 - 1) * 2 ^ 970 * 2 ^ k ≤ m := by
  rw [finiteUnits_eq_none_iff, magBits_roundDyadic, infinity_le_roundBits_iff, max_1074_sub_1074]
  have h : (2 ^ 54 - 1) * 2 ^ (2044 + (k - 1074)) = (2 ^ 54 - 1) * 2 ^ 970 * 2 ^ k * 2 ^ (1074 - k) := by
    rw [mul_assoc, mul_assoc, ← pow_add, ← pow_add,
      show 970 + (k + (1074 - k)) = 2044 + (k - 1074) by omega]
  rw [h, Nat.mul_le_mul_right_iff (by positivity)]

theorem IsRounding.nearestTo {n : Int} {k : Nat} {r : F64} (h : IsRounding n k r) : NearestTo n k r := by
  obtain ⟨neg, m, rfl, rfl⟩ := h
  have hnone := finiteUnits_roundDyadic_eq_none_iff neg m k
  have hsign (hm : m ≠ 0) : (roundDyadic neg m k).getLsbD 63 = decide (signedMant neg m < 0) := by
    rw [sign_roundDyadic, decide_signedMant_neg hm]
  refine ⟨fun u hu z v hz => (roundDyadic_nearest hu hz).1, by rwa [natAbs_signedMant], fun hn => ?_,
    fun h0 => hsign (mt signedMant_eq_zero_iff.mpr h0)⟩
  have hm : m ≠ 0 := by
    rintro rfl
    exact absurd (hnone.mp hn) (not_le.mpr (by positivity))
  refine eq_of_sign_magBits (by rw [hsign hm, sign_infinity]) ?_
  rw [magBits_infinity]
  refine le_antisymm ?_ (finiteUnits_eq_none_iff.mp hn)
  rw [magBits_roundDyadic]
  exact roundBits_le _ _

theorem IsRounding.evenOnTie {n : Int} {k : Nat} {r : F64} (h : IsRounding n k r) : EvenOnTie n k r := by
  obtain ⟨neg, m, rfl, rfl⟩ := h
  exact fun u z v hu hz hne heq => (roundDyadic_nearest hu hz).2 heq hne

/-! ### The operations -/

theorem isRounding_roundDyadic (neg : Bool) (m k : Nat) :
    IsRounding (signedMant neg m) k (roundDyadic neg m k) := ⟨neg, m, rfl, rfl⟩

theorem isRounding_zeroOf (neg : Bool) (k : Nat) : IsRounding 0 k (zeroOf neg) :=
  ⟨neg, 0, (roundDyadic_zero neg k).symm, signedMant_eq_zero_iff.mpr rfl⟩

theorem isRounding_natAbs (n : Int) (k : Nat) :
    IsRounding n k (roundDyadic (decide (n < 0)) n.natAbs k) := ⟨_, _, rfl, signedMant_decide n⟩

section
variable {a b : F64} {u v : Int} (ha : finiteUnits a = some u) (hb : finiteUnits b = some v)
include ha hb

theorem isRounding_fadd : IsRounding (u + v) 1074 (fadd a b) := by
  rw [fadd_finite ha hb]
  split_ifs with h
  · rw [h]; exact isRounding_zeroOf _ _
  · exact isRounding_natAbs _ _

theorem isRounding_fsub : IsRounding (u - v) 1074 (fsub a b) := by
  rw [fsub_finite ha hb]
  split_ifs with h
  · rw [h]; exact isRounding_zeroOf _ _
  · exact isRounding_natAbs _ _

theorem isRounding_fmul : IsRounding (u * v) 2148 (fmul a b) := by
  refine ⟨_, _, fmul_finite ha hb, ?_⟩
  rw [(finiteUnits_eq_some_iff.mp ha).2, (finiteUnits_eq_some_iff.mp hb).2, signedMant_mul,
    natAbs_signedMant]

end

/-! ### Exact roundings -/

theorem roundHalfEven_of_dvd {m d : Nat} (h : 2 ^ d ∣ m) : roundHalfEven m d * 2 ^ d = m := by
  have hpos : 0 < 2 ^ d := by positivity
  rw [roundHalfEven, Nat.mod_eq_zero_of_dvd h, if_neg (by omega), add_zero, Nat.div_mul_cancel h]

theorem droppedBits_le {m e c : Nat} (hm : m < 2 ^ 53 * 2 ^ c) (he : e ≤ c) : droppedBits m e ≤ c := by
  refine max_le ?_ he
  rcases eq_or_ne m 0 with rfl | h0
  · simp
  · have := (Nat.log2_lt h0).mpr (by rwa [← pow_add] at hm)
    omega

/-- A number with a significand of 53 bits that fits the exponent range is rounded to itself. -/
theorem finiteUnits_roundDyadic_exact (neg : Bool) {m k t p : Nat}
    (hm : m * 2 ^ (1074 - k) = t * 2 ^ (p + (k - 1074))) (ht : t < 2 ^ 53) (hp : p ≤ 2045) :
    finiteUnits (roundDyadic neg m k) = some (signedMant neg (t * 2 ^ p)) := by
  have hlt : magBits (roundDyadic neg m k) < 2047 * 2 ^ 52 := by
    rw [magBits_roundDyadic, ← not_le, infinity_le_roundBits_iff, max_1074_sub_1074, hm, not_le]
    have hpow : 2 ^ (p + (k - 1074)) ≤ 2 * 2 ^ (2044 + (k - 1074)) := by
      rw [← pow_succ']
      exact Nat.pow_le_pow_right (by norm_num) (by omega)
    have h₁ := Nat.mul_le_mul (show t ≤ 2 ^ 53 - 1 by omega) hpow
    have h₂ : 0 < 2 ^ (2044 + (k - 1074)) := by positivity
    generalize 2 ^ (2044 + (k - 1074)) = Y at *
    omega
  have hfin := finiteUnits_eq_some_iff.mpr ⟨hlt, rfl⟩
  rw [hfin, finiteUnits_roundDyadic hfin, hm]
  refine congrArg (fun w => some (signedMant neg w)) ?_
  have hd : droppedBits (t * 2 ^ (p + (k - 1074))) (k - 1074) ≤ p + (k - 1074) := by
    refine droppedBits_le ?_ (by omega)
    rw [pow_add]
    exact Nat.mul_lt_mul_of_pos_right ht (by positivity)
  have hexact := roundHalfEven_of_dvd (Dvd.dvd.mul_left (pow_dvd_pow 2 hd) t)
  refine Nat.eq_of_mul_eq_mul_right (show 0 < 2 ^ (k - 1074) by positivity) ?_
  rw [mul_assoc, ← pow_add, Nat.sub_add_cancel (le_droppedBits _ _), hexact, mul_assoc, ← pow_add]

/-- R10: the conversion of an integer of at most 53 bits is exact. -/
theorem finiteUnits_i16ToF64 {n : Int} (h : n.natAbs < 2 ^ 53) :
    finiteUnits (i16ToF64 n) = some (n * 2 ^ 1074) := by
  rw [i16ToF64, finiteUnits_roundDyadic_exact (t := n.natAbs) (p := 1074) _
      (by rw [Nat.sub_zero, Nat.zero_sub, Nat.add_zero]) h (by norm_num),
    ← signedMant_mul_pow, signedMant_decide]

/-- Settles O52: each result is a rounding, and a rounding is nearest. -/
theorem roundingIsNearest : Obligations.RoundingIsNearest :=
  ⟨fun neg m k => (isRounding_roundDyadic neg m k).nearestTo,
    fun _ _ _ _ ha hb => ⟨(isRounding_fadd ha hb).nearestTo, (isRounding_fsub ha hb).nearestTo,
      (isRounding_fmul ha hb).nearestTo⟩,
    fun _ h₁ h₂ => finiteUnits_i16ToF64 (by omega)⟩

/-- Settles O53: each result is a rounding, and a rounding is even on a tie. -/
theorem tiesGoToEven : Obligations.TiesGoToEven :=
  ⟨fun neg m k => (isRounding_roundDyadic neg m k).evenOnTie,
    fun _ _ _ _ ha hb => ⟨(isRounding_fadd ha hb).evenOnTie, (isRounding_fsub ha hb).evenOnTie,
      (isRounding_fmul ha hb).evenOnTie⟩⟩

end Sys2Proof.Machine
end

section
/-! The square root (R10): the integer root with its sticky bit lies on the same side of every rounding
boundary as the real root. -/

namespace Sys2Proof.Machine

/-! ### The integer root -/

theorem isqrtFrom_spec (n bits acc : Nat) (hlo : acc * acc ≤ n)
    (hhi : n < (acc + 2 ^ bits) * (acc + 2 ^ bits)) :
    isqrtFrom n bits acc * isqrtFrom n bits acc ≤ n ∧
      n < (isqrtFrom n bits acc + 1) * (isqrtFrom n bits acc + 1) := by
  induction bits generalizing acc with
  | zero => exact ⟨hlo, hhi⟩
  | succ bits ih =>
    unfold isqrtFrom
    split_ifs with h
    · exact ih _ h (by rwa [add_assoc, ← two_mul, ← pow_succ'])
    · exact ih _ hlo (by omega)

theorem isqrt_spec {n : Nat} (h : n < 2 ^ 172) :
    isqrt n * isqrt n ≤ n ∧ n < (isqrt n + 1) * (isqrt n + 1) :=
  isqrtFrom_spec n 86 0 (Nat.zero_le _) (by omega)

/-! ### Rounding a real number through a nearby whole one -/

section
variable {α : Type} [CommRing α] [LinearOrder α] [IsStrictOrderedRing α] {x a b : α}

/-- Of two numbers the greater is as near exactly when the midpoint is not passed. -/
theorem abs_sub_le_iff_of_gt (h : b < a) : |x - a| ≤ |x - b| ↔ a + b ≤ 2 * x := by
  have key : (x - b) ^ 2 - (x - a) ^ 2 = (a - b) * (2 * x - (a + b)) := by ring
  rw [← sq_le_sq, ← sub_nonneg, key, mul_nonneg_iff_of_pos_left (sub_pos.mpr h), sub_nonneg]

theorem abs_sub_le_iff_of_lt (h : a < b) : |x - a| ≤ |x - b| ↔ 2 * x ≤ a + b := by
  have key : (x - b) ^ 2 - (x - a) ^ 2 = (b - a) * (a + b - 2 * x) := by ring
  rw [← sq_le_sq, ← sub_nonneg, key, mul_nonneg_iff_of_pos_left (sub_pos.mpr h), sub_nonneg]

end

/-- `M` and `T` lie on the same side of every multiple of `g`. -/
def SameSide (M : Int) (T : ℝ) (g : Int) : Prop :=
  ∀ i : Int, (i * g ≤ M → (i * g : ℝ) ≤ T) ∧ (M ≤ i * g → T ≤ (i * g : ℝ))

/-- Of two multiples of `2 * g` the one nearer to `M` is the one nearer to `T`. -/
theorem SameSide.nearer {M g : Int} {T : ℝ} (h : SameSide M T g) (hg : 0 < g) {i j : Int}
    (hij : |M - i * (2 * g)| ≤ |M - j * (2 * g)|) :
    |T - i * (2 * g)| ≤ |T - j * (2 * g)| := by
  have hg' : (0 : ℝ) < g := by exact_mod_cast hg
  obtain ⟨hlow, hhigh⟩ := h (i + j)
  push_cast at hlow hhigh
  rcases lt_trichotomy i j with hlt | rfl | hgt
  · have hlt' : (i : ℝ) < j := by exact_mod_cast hlt
    rw [abs_sub_le_iff_of_lt (by nlinarith)] at hij ⊢
    have := hhigh (by linarith)
    linarith
  · exact le_rfl
  · have hgt' : (j : ℝ) < i := by exact_mod_cast hgt
    rw [abs_sub_le_iff_of_gt (by nlinarith)] at hij ⊢
    have := hlow (by linarith)
    linarith

/-- If the real number `T` of units lies on the same side of every rounding boundary as the whole number
`M`, of which bits are dropped, the rounding of `M` is nearest to `T`. -/
theorem SameSide.roundHalfEven_nearest {M d : Nat} {T : ℝ} (hd : droppedBits M 0 = d + 1)
    (h : SameSide M T (2 ^ d)) {z : F64} {v : Int} (hz : finiteUnits z = some v) :
    |T - (roundHalfEven M (d + 1) * 2 ^ (d + 1) : Nat)| ≤ |T - v| := by
  have grid (j : Int) : |T - (roundHalfEven M (d + 1) * 2 ^ (d + 1) : Nat)| ≤ |T - j * 2 ^ (d + 1)| := by
    have hn := (Machine.roundHalfEven_nearest M (d + 1) j).1
    have := h.nearer (by positivity) (i := roundHalfEven M (d + 1)) (j := j) (by simpa [pow_succ'] using hn)
    simpa [pow_succ'] using this
  rcases finiteUnits_dvd_or_lt hz (d + 1) with ⟨j, rfl⟩ | hlt
  · simpa [mul_comm] using grid j
  · have hM : (2 : Int) ^ 53 * 2 ^ d ≤ M := by
      have := pow_le_of_lt_droppedBits (m := M) (e := 0) (by omega)
      rw [hd, pow_succ' 2 d, ← mul_assoc, ← pow_succ] at this
      exact_mod_cast this
    have hT : (2 : ℝ) ^ 52 * 2 ^ (d + 1) ≤ T := by
      have := (h (2 ^ 53)).1 (by exact_mod_cast hM)
      calc (2 : ℝ) ^ 52 * 2 ^ (d + 1) = 2 ^ 53 * 2 ^ d := by ring
        _ ≤ T := by exact_mod_cast this
    have hv : (v : ℝ) < 2 ^ 52 * 2 ^ (d + 1) := by exact_mod_cast hlt
    refine (grid (2 ^ 52)).trans ?_
    push_cast
    rw [abs_of_nonneg (by linarith), abs_of_nonneg (by linarith)]
    linarith

/-! ### The root of a finite value -/

/-- The root to 58 more bits, doubled, with the sticky bit that says whether it is exact. -/
def stickyRoot (n : Nat) : Nat := 2 * isqrt n + if isqrt n * isqrt n = n then 0 else 1

/-- The sticky root compares with an even number as twice the real root does. -/
theorem stickyRoot_sameSide {n : Nat} (h : n < 2 ^ 172) (i : Int) :
    (2 * i ≤ stickyRoot n → (i : ℝ) ≤ √n) ∧ ((stickyRoot n : Int) ≤ 2 * i → √n ≤ (i : ℝ)) := by
  obtain ⟨hlo, hhi⟩ := isqrt_spec h
  have hlo' : (isqrt n : ℝ) ≤ √n := Real.le_sqrt_of_sq_le (by rw [sq]; exact_mod_cast hlo)
  have hhi' : √n ≤ isqrt n + 1 :=
    Real.sqrt_le_iff.mpr ⟨by positivity, by rw [sq]; exact_mod_cast hhi.le⟩
  constructor
  · intro hi
    have hr : i ≤ isqrt n := by unfold stickyRoot at hi; split_ifs at hi <;> omega
    exact le_trans (by exact_mod_cast hr) hlo'
  · intro hi
    by_cases hexact : isqrt n * isqrt n = n
    · have hr : (isqrt n : Int) ≤ i := by
        rw [stickyRoot, if_pos hexact] at hi; omega
      have hs : √(n : ℝ) = isqrt n := by
        rw [Real.sqrt_eq_iff_mul_self_eq (by positivity) (by positivity)]
        exact_mod_cast hexact.symm
      rw [hs]
      exact_mod_cast hr
    · have hr : (isqrt n + 1 : Int) ≤ i := by
        rw [stickyRoot, if_neg hexact] at hi; omega
      exact hhi'.trans (by exact_mod_cast hr)

/-- The operand of the integer root for the mantissa `m` and exponent `e`. -/
def rootOperand (m e : Nat) : Nat := m * 2 ^ (e % 2) * 2 ^ 116

/-- The scale of the sticky root in units of 2^-1074. -/
def rootScale (e : Nat) : Nat := e / 2 + 478

theorem fsqrt_of_pos {x : F64} {m e : Nat} (hx : unpack x = .fin false m e) (hm : m ≠ 0) :
    fsqrt x = roundDyadic false (stickyRoot (rootOperand m e) * 2 ^ (e / 2)) 596 := by
  simp only [fsqrt, hx, if_neg hm, Bool.false_eq_true, if_false]
  rfl

theorem fsqrt_of_neg {x : F64} {m e : Nat} (hx : unpack x = .fin true m e) (hm : m ≠ 0) :
    fsqrt x = canonicalNaN := by simp [fsqrt, hx, hm]

theorem fsqrt_of_zero {x : F64} {s : Bool} {e : Nat} (hx : unpack x = .fin s 0 e) :
    fsqrt x = zeroOf s := by simp [fsqrt, hx]

theorem rootOperand_lt {m : Nat} (e : Nat) (hm : m < 2 ^ 53) : rootOperand m e < 2 ^ 170 := by
  unfold rootOperand
  have := Nat.mod_lt e (show 2 > 0 by norm_num)
  interval_cases e % 2 <;> omega

theorem le_rootOperand {m : Nat} (e : Nat) (hm : m ≠ 0) : 2 ^ 116 ≤ rootOperand m e := by
  unfold rootOperand
  exact Nat.le_mul_of_pos_left _ (by positivity)

theorem stickyRoot_bounds {m e : Nat} (hm : m < 2 ^ 53) (h0 : m ≠ 0) :
    2 ^ 59 ≤ stickyRoot (rootOperand m e) ∧ stickyRoot (rootOperand m e) < 2 ^ 87 := by
  have hlt := rootOperand_lt e hm
  have hle := le_rootOperand e h0
  obtain ⟨hlo, hhi⟩ := isqrt_spec (hlt.trans (by norm_num))
  have h₁ : 2 ^ 58 ≤ isqrt (rootOperand m e) := by
    by_contra hn
    have := Nat.mul_le_mul (show isqrt (rootOperand m e) + 1 ≤ 2 ^ 58 by omega)
      (show isqrt (rootOperand m e) + 1 ≤ 2 ^ 58 by omega)
    omega
  have h₂ : isqrt (rootOperand m e) < 2 ^ 85 := by
    by_contra hn
    have := Nat.mul_le_mul (not_lt.mp hn) (not_lt.mp hn)
    omega
  unfold stickyRoot
  split_ifs <;> omega

/-- In units of 2^-1074 the real root is twice the root of the operand, scaled. -/
theorem sqrt_units (m e : Nat) :
    √((m * 2 ^ e : Nat) * 2 ^ 1074 : ℝ) = √(rootOperand m e) * (2 * 2 ^ rootScale e) := by
  have hsq : ((m * 2 ^ e : Nat) * 2 ^ 1074 : ℝ) =
      rootOperand m e * (2 * 2 ^ rootScale e) ^ 2 := by
    have he : e % 2 + 116 + 2 + rootScale e * 2 = e + 1074 := by unfold rootScale; omega
    unfold rootOperand
    push_cast
    have hpow : (2 : ℝ) ^ e * 2 ^ 1074 = 2 ^ (e % 2 + 116 + 2 + rootScale e * 2) := by
      rw [← pow_add, he]
    rw [mul_assoc, hpow]
    ring
  rw [hsq, Real.sqrt_mul (by positivity), Real.sqrt_sq (by positivity)]

/-- The sticky root and the real root lie on the same side of every rounding boundary. -/
theorem sqrt_sameSide {m e d : Nat} (hm : m < 2 ^ 53) (hd : rootScale e + 1 ≤ d) :
    SameSide (stickyRoot (rootOperand m e) * 2 ^ rootScale e : Nat)
      √((m * 2 ^ e : Nat) * 2 ^ 1074 : ℝ) (2 ^ d) := by
  intro i
  obtain ⟨c, rfl⟩ := Nat.exists_eq_add_of_le hd
  obtain ⟨hlow, hhigh⟩ := stickyRoot_sameSide ((rootOperand_lt e hm).trans (by norm_num)) (i * 2 ^ c)
  rw [sqrt_units]
  generalize rootScale e = k
  have hp : (0 : Int) < 2 ^ k := by positivity
  have hp' : (0 : ℝ) < 2 * 2 ^ k := by positivity
  have hi : i * 2 ^ (k + 1 + c) = 2 * (i * 2 ^ c) * (2 : Int) ^ k := by ring
  have hi' : (i : ℝ) * 2 ^ (k + 1 + c) = i * 2 ^ c * (2 * 2 ^ k) := by ring
  rw [hi]
  push_cast at hlow hhigh ⊢
  rw [hi']
  exact ⟨fun h => mul_le_mul_of_nonneg_right (hlow (le_of_mul_le_mul_right h hp)) hp'.le,
    fun h => mul_le_mul_of_nonneg_right (hhigh (le_of_mul_le_mul_right h hp)) hp'.le⟩

theorem two_pow_le_mul {a b c : Nat} (h : a ≤ b + c) : 2 ^ a ≤ 2 ^ b * 2 ^ c :=
  (Nat.pow_le_pow_right (by norm_num) h).trans_eq (pow_add _ _ _)

/-- The root of a positive finite value is finite: it lies far below the largest one. -/
theorem finiteUnits_stickyRoot_ne_none {m e : Nat} (hm : m < 2 ^ 53) (h0 : m ≠ 0) (he : e ≤ 2045) :
    finiteUnits (roundDyadic false (stickyRoot (rootOperand m e) * 2 ^ (e / 2)) 596) ≠ none := by
  rw [ne_eq, finiteUnits_roundDyadic_eq_none_iff, not_le]
  calc stickyRoot (rootOperand m e) * 2 ^ (e / 2)
      < 2 ^ 87 * 2 ^ (e / 2) :=
        Nat.mul_lt_mul_of_lt_of_le (stickyRoot_bounds hm h0).2 le_rfl (by positivity)
    _ = 2 ^ (87 + e / 2) := (pow_add _ _ _).symm
    _ ≤ 2 ^ 970 * 2 ^ 596 := two_pow_le_mul (by omega)
    _ ≤ (2 ^ 54 - 1) * 2 ^ 970 * 2 ^ 596 :=
      Nat.mul_le_mul_right _ (Nat.le_mul_of_pos_left _ (by norm_num))

theorem le_log2_mul_pow {n k : Nat} (c : Nat) (h : 2 ^ k ≤ n) : k + c ≤ (n * 2 ^ c).log2 := by
  have hpow : 2 ^ (k + c) ≤ n * 2 ^ c := by rw [pow_add]; exact Nat.mul_le_mul h le_rfl
  exact (Nat.le_log2 ((show 0 < 2 ^ (k + c) by positivity).trans_le hpow).ne').mpr hpow

/-- The root of a positive finite value is nearest to the real root. -/
theorem fsqrt_nearest {x : F64} {m e : Nat} (hx : unpack x = .fin false m e) (h0 : m ≠ 0) :
    ∃ u : Int, finiteUnits (fsqrt x) = some u ∧ ∀ z v, finiteUnits z = some v →
      |√((m * 2 ^ e : Nat) * 2 ^ 1074 : ℝ) - u| ≤ |√((m * 2 ^ e : Nat) * 2 ^ 1074 : ℝ) - v| := by
  obtain ⟨-, -, hm, he⟩ := unpack_fin_parts hx
  rw [fsqrt_of_pos hx h0]
  obtain ⟨u, hu⟩ := Option.ne_none_iff_exists'.mp (finiteUnits_stickyRoot_ne_none hm h0 he)
  refine ⟨u, hu, fun z v hz => ?_⟩
  have hM : stickyRoot (rootOperand m e) * 2 ^ (e / 2) * 2 ^ (1074 - 596) =
      stickyRoot (rootOperand m e) * 2 ^ rootScale e := by
    rw [mul_assoc, ← pow_add]; rfl
  have hu' := finiteUnits_roundDyadic hu
  rw [hM, show 596 - 1074 = 0 from rfl, Nat.sub_zero] at hu'
  have hdrop : rootScale e + 2 ≤
      droppedBits (stickyRoot (rootOperand m e) * 2 ^ rootScale e) 0 := by
    have hlog := le_log2_mul_pow (rootScale e) (stickyRoot_bounds (e := e) hm h0).1
    exact (show rootScale e + 2 ≤ 59 + rootScale e + 1 - 53 by omega).trans
      ((Nat.sub_le_sub_right (Nat.succ_le_succ hlog) 53).trans (Nat.le_max_left _ _))
  obtain ⟨d, hd⟩ : ∃ d, droppedBits (stickyRoot (rootOperand m e) * 2 ^ rootScale e) 0 = d + 1 :=
    ⟨_, (Nat.sub_add_cancel (by omega)).symm⟩
  rw [hd] at hu'
  subst hu'
  exact (sqrt_sameSide hm (by omega)).roundHalfEven_nearest hd hz

/-- Settles O54: a finite value is positive, a zero or negative by its sign and mantissa. -/
theorem squareRootIsNearest : Obligations.SquareRootIsNearest := by
  refine ⟨fun x n hn hpos => ?_, fun x h => ?_, fun x n hn hneg => ?_, ?_, ?_⟩
  · obtain ⟨m, e, hx, rfl⟩ := exists_fin_of_finiteUnits hn
    rw [unitsOf_eq_signedMant] at hpos ⊢
    have h0 : m ≠ 0 := by rintro rfl; simp [signedMant] at hpos
    have hs : x.getLsbD 63 = false := by
      by_contra hs
      have := (signedMant_neg_iff (s := x.getLsbD 63) (m := m * 2 ^ e) (by positivity)).mpr
        (by simpa using hs)
      omega
    rw [hs] at hx ⊢
    obtain ⟨u, hu, hnear⟩ := fsqrt_nearest hx h0
    exact ⟨by rw [fsqrt_of_pos hx h0, sign_roundDyadic], u, hu, hnear⟩
  · have hz := eq_zeroOf_of_finiteUnits h
    obtain ⟨m, e, hx, hu⟩ := exists_fin_of_finiteUnits h
    have hm : m * 2 ^ e = 0 := signedMant_eq_zero_iff.mp hu.symm
    obtain rfl : m = 0 := (Nat.mul_eq_zero.mp hm).resolve_right (by positivity)
    rw [fsqrt_of_zero hx, ← hz]
  · obtain ⟨m, e, hx, rfl⟩ := exists_fin_of_finiteUnits hn
    rw [unitsOf_eq_signedMant] at hneg
    have h0 : m ≠ 0 := by rintro rfl; simp [signedMant] at hneg
    have hs := (signedMant_neg_iff (by positivity)).mp hneg
    rw [hs] at hx
    exact fsqrt_of_neg hx h0
  · show fsqrt (infinity false) = infinity false
    simp [fsqrt]
  · show fsqrt (infinity true) = canonicalNaN
    simp [fsqrt]

end Sys2Proof.Machine
end

section
/-! What a step can do, from every state: no consistency of the sequencer is asked. -/

namespace Sys2Proof.Machine

/-! ### The core's move -/

/-- The opcode from which the core reads its command is that command's own (R55, R101). -/
theorem opcode_of_decode {op : BitVec 8} {i : Instr}
    (h : decode .cmd (op.setWidth 32) = .ok i) : op = i.opcode ∧ i ≠ .srst := by
  have hop : (op.setWidth 32).extractLsb' 0 8 = op := by
    ext i hi
    simp [show i < 32 by omega, BitVec.getLsbD_eq_getElem hi]
  simp only [decode, decodeCmd, hop] at h
  split_ifs at h
  split at h <;> cases h <;> exact ⟨BitVec.eq_of_toNat_eq ‹_›, by decide⟩

/-- The stage STATUS.STAGE ran in `s`, and `t` is what it left up to STATUS and ERRINFO, which completion,
the next stage and an error change (R123, R127, R238). -/
def StageRan (s t : State) : Prop :=
  ∃ u st info, (stageRule s.status.stage s).state? = some u ∧ t = { u with status := st, errInfo := info }

/-- A core step that answers ran the stage STATUS.STAGE. -/
theorem coreStep_next {op : BitVec 8} {s t : State} (h : coreStep (stageListOf op) s = .next t) :
    StageRan s t := by
  rcases coreStep_cases (stageListOf op) s with ⟨pre, rule, rest, hl, hc⟩ | ⟨-, e⟩
  · have hmem : (s.status.stage, rule) ∈ stageListOf op := by rw [hl]; simp
    obtain ⟨st, -, hst⟩ := List.mem_map.mp hmem
    cases hst
    rcases hc with ⟨u, hr, e⟩ | ⟨code, info, u, hr, e⟩ | ⟨r, -, e⟩ <;> cases e.symm.trans h
    · refine ⟨u, (afterStage rest u).status, u.errInfo, by rw [hr]; rfl, ?_⟩
      cases rest <;> rfl
    · exact ⟨u, _, info, by rw [hr]; rfl, rfl⟩
  · cases e.symm.trans h

/-- A core move that answers while BUSY = 1 ran the stage STATUS.STAGE. -/
theorem coreMove_next {s t : State} (hb : s.status.busy = true) (h : coreMove s = .next t) :
    StageRan s.newEpoch t := by
  rw [coreMove, if_pos hb] at h
  cases hd : decode .cmd (s.status.lastOp.setWidth 32) with
  | error e => rw [hd] at h; cases h
  | ok i =>
    obtain ⟨hop, hsrst⟩ := opcode_of_decode hd
    have stage (hi : i ∈ [Instr.run, .filter, .spectrum, .peaks, .hash]) (he : exec i s = .next t) :
        StageRan s.newEpoch t :=
      coreStep_next ((exec_executing hi s hb hop).symm.trans he)
    rw [hd] at h
    cases i with
    | nop => cases h
    | srst => exact absurd rfl hsrst
    | run => exact stage (by simp) h
    | filter => exact stage (by simp) h
    | spectrum => exact stage (by simp) h
    | peaks => exact stage (by simp) h
    | hash => exact stage (by simp) h

/-! ### The step -/

/-- A step is a host's effect, then the schedule and the response, or it ran a stage. -/
theorem step_next {s t : State} (h : step s = .next t) :
    (∃ r u sched rsp, HostEffect (s.advance r) u ∧ t = { u with sched := sched, rsp := rsp }) ∨
    (∃ r, StageRan (s.advance r).newEpoch t) := by
  rcases step_cases s with ⟨r, e⟩ | ⟨acc, r, -, e⟩ <;> rw [e] at h
  · cases hb : s.status.busy with
    | false =>
      cases h.symm.trans (coreMove_idle (s.advance r) hb)
      exact .inl ⟨r, s.advance r, r, none, .unchanged, rfl⟩
    | true => exact .inr ⟨r, coreMove_next (s := s.advance r) hb h⟩
  · obtain ⟨u, sched, rsp, hm, he⟩ := hostMove_effect acc (s.advance r)
    cases h.symm.trans hm
    exact .inl ⟨r, u, sched, rsp, he, rfl⟩

theorem step_caps {s t : State} (h : step s = .next t) : t.caps = s.caps := by
  rcases step_next h with ⟨r, u, _, _, he, rfl⟩ | ⟨r, u, _, _, hu, rfl⟩
  · exact he.caps
  · show u.caps = s.caps
    rw [stageRule_keeps _ _ _ hu]
    rfl

/-! ### The canonical memory -/

/-- A stage changes the RAMs by word writes only, which keep the canonical form (R146, R169, R193, R208). -/
theorem stageRule_mem_wf {st : Stage} {s t : State} (h : (stageRule st s).state? = some t)
    (hm : Memory.wf s.mem = true) : Memory.wf t.mem = true := by
  cases st with
  | idle => cases h
  | filter =>
    rcases filterStage_cases s with ⟨_, _, -, e⟩ | ⟨-, _, _, -, -, e⟩ | ⟨-, -, e⟩ <;>
      rw [stageRule, e] at h <;> cases h
    · exact hm
    · exact memPutF64s_wf _ _ _ hm
  | spectrum =>
    rcases spectrumStage_cases s with ⟨_, _, -, e⟩ | ⟨-, _, _, -, -, e⟩ | ⟨-, -, e⟩ <;>
      rw [stageRule, e] at h <;> cases h
    · exact hm
    · exact memPutF64s_wf _ _ _ hm
  | peaks =>
    rcases peaksStage_cases s with ⟨_, _, -, e⟩ | ⟨-, _, -, e⟩ | ⟨-, -, e⟩ <;>
      rw [stageRule, e] at h <;> cases h
    · exact hm
    · exact memPutWords_wf _ _ _ hm
  | hash =>
    rcases hashStage_cases s with ⟨_, _, -, e⟩ | ⟨-, _, -, ⟨_, -, e⟩ | ⟨_, _, -, e⟩⟩ | ⟨-, -, e⟩ <;>
      rw [stageRule, e] at h <;> cases h
    · exact hm
    · exact memPutWords_wf _ _ _ hm
    · exact memPutWords_wf _ _ _ hm

/-- Settles O56: a host's effect and a stage each keep the canonical form, and a step is one of them. -/
theorem stepKeepsCanonicalMemory : Obligations.StepKeepsCanonicalMemory := by
  intro s t hm h
  rcases step_next h with ⟨r, u, _, _, he, rfl⟩ | ⟨r, u, _, _, hu, rfl⟩
  · exact he.ramsKept.wf hm
  · exact stageRule_mem_wf (t := u) hu hm

/-! ### The sequencer -/

/-- Settles O57: from a consistent state the one next state is the consistent one of O59. -/
theorem stepKeepsSequencer : Obligations.StepKeepsSequencer := by
  intro s t hs h
  rcases stepAnswers s hs with ⟨u, hu, hok⟩ | ⟨hf, -⟩
  · cases h.symm.trans hu; exact hok
  · cases h.symm.trans hf

/-! ### The configuration while a command executes -/

/-- The configuration stays, or the whole CSR file is reset (R54, R131). -/
def ConfigKept (s t : State) : Prop :=
  t.cfg = s.cfg ∨ (t.cfg = Settings.reset ∧ t.status = Status.reset)

theorem memRead_cfg (a : Offset) (s : State) : (memRead a s).2.cfg = s.cfg := by
  rcases memRead_cases a s with h | ⟨h, -⟩ <;> rw [h]
  rfl

/-- While BUSY = 1 a write of the host changes the configuration by a soft reset alone (R54, R86, R130). -/
theorem memWrite_busy_configKept {a : Offset} {v : Word} {s t : State} (hb : s.status.busy = true)
    (h : memWrite a v s = .next t) : ConfigKept s t := by
  rcases memWrite_cases a v s with e | ⟨r, -, e⟩ | ⟨hb', -⟩
  · cases h.symm.trans e; exact .inl rfl
  · rw [e] at h
    rcases csrWrite_cases r v s with ⟨-, e⟩ | ⟨-, e⟩ | ⟨-, e⟩ | ⟨-, e⟩ | ⟨-, hb', -⟩ | ⟨-, -, e⟩
    · rw [e, writeCtrl_eq] at h
      cases h
      split
      · exact .inr ⟨rfl, rfl⟩
      · exact .inl rfl
    · rw [e, writeCmd, if_pos hb] at h; cases h; exact .inl rfl
    · cases h.symm.trans e; exact .inl rfl
    · cases h.symm.trans e; exact .inl rfl
    · simp [hb] at hb'
    · cases h.symm.trans e; exact .inl rfl
  · simp [hb] at hb'

theorem hostMove_busy_configKept {acc : Access} {s t : State} (hb : s.status.busy = true)
    (h : hostMove acc s = .next t) : ConfigKept s t := by
  cases acc with
  | read a => cases h; exact .inl (memRead_cfg a s)
  | write a v => exact memWrite_busy_configKept hb h
  | wait a mask value =>
    rw [hostMove] at h
    split at h <;> cases h <;> exact .inl (memRead_cfg a s)

theorem step_busy_configKept {s t : State} (hb : s.status.busy = true) (h : step s = .next t) :
    ConfigKept s t := by
  rcases step_cases s with ⟨r, e⟩ | ⟨acc, r, -, e⟩ <;> rw [e] at h
  · obtain ⟨u, st, info, hu, rfl⟩ := coreMove_next (s := s.advance r) hb h
    rw [stageRule_keeps _ _ _ hu]
    exact .inl rfl
  · exact hostMove_busy_configKept (s := s.advance r) hb h

end Sys2Proof.Machine
end

section
/-! The CSR file at the host port (10_state.md): what a read and a write at a register's offset, and at a
reserved offset, do. -/

namespace Sys2Proof.Machine

/-! ### Offsets -/

theorem Csr.offset_mod (r : Csr) : r.offset.toNat % 4 = 0 := by cases r <;> rfl

theorem Csr.offset_lt (r : Csr) : r.offset.toNat < 0x080 := by cases r <;> decide

theorem csrAt_offset (r : Csr) : csrAt r.offset = some r := by cases r <;> rfl

theorem offset_of_csrAt {a : Offset} {r : Csr} (h : csrAt a = some r) : r.offset = a := by
  simpa using List.find?_some h

theorem csrAt_eq_none {a : Offset} (h : ∀ r : Csr, a ≠ r.offset) : csrAt a = none := by
  cases hr : csrAt a with
  | none => rfl
  | some r => exact absurd (offset_of_csrAt hr).symm (h r)

/-! ### Reads and writes at a register -/

theorem memRead_csr (r : Csr) (s : State) : memRead r.offset s = (csrValue s r, s) := by
  have ha := r.offset_mod
  have hl := r.offset_lt
  rw [memRead, if_neg (by omega), if_pos (by omega), csrRead, csrAt_offset]

theorem memWrite_csr (r : Csr) (v : Word) (s : State) : memWrite r.offset v s = csrWrite r v s := by
  have ha := r.offset_mod
  have hl := r.offset_lt
  rw [memWrite, if_neg (by omega), if_pos (by omega), csrAt_offset]

/-- A register that has no rule of its own and that the busy rule does not open refuses the write (R54,
R244). -/
theorem csrWrite_refused {r : Csr} {s : State} (v : Word) (hr : r ∉ [Csr.ctrl, .cmd, .status, .irqEn])
    (h : r.busyRefused = false ∨ s.status.busy = true) :
    csrWrite r v s = .next (s.accError r.offset) := by
  rcases csrWrite_cases r v s with
    ⟨rfl, -⟩ | ⟨rfl, -⟩ | ⟨rfl, -⟩ | ⟨rfl, -⟩ | ⟨hr', hb, -⟩ | ⟨-, -, e⟩
  · simp at hr
  · simp at hr
  · simp at hr
  · simp at hr
  · simp [hr', hb] at h
  · exact e

theorem csrWrite_store {r : Csr} {s : State} (v : Word) (hr : r.busyRefused = true)
    (hb : s.status.busy = false) : csrWrite r v s = .next (csrStore s v r) := by
  rcases csrWrite_cases r v s with
    ⟨rfl, -⟩ | ⟨rfl, -⟩ | ⟨rfl, -⟩ | ⟨rfl, -⟩ | ⟨-, -, e⟩ | ⟨h, -, -⟩
  · cases hr
  · cases hr
  · cases hr
  · cases hr
  · exact e
  · simp [hr, hb] at h

/-! ### Reserved offsets -/

theorem memRead_reserved {a : Offset} (ha : a.toNat % 4 = 0) (hl : a.toNat ≤ 0xFFF)
    (hr : csrAt a = none) (s : State) : memRead a s = (0, s.accError a) := by
  rw [memRead, if_neg (by omega), if_pos hl, csrRead, hr]

theorem memWrite_reserved {a : Offset} (ha : a.toNat % 4 = 0) (hl : a.toNat ≤ 0xFFF)
    (hr : csrAt a = none) (v : Word) (s : State) : memWrite a v s = .next (s.accError a) := by
  rw [memWrite, if_neg (by omega), if_pos hl, hr]

/-! ### The configuration and length registers -/

/-- The registers of the busy rule (R54), in the order of their offsets. -/
def busyRefusedCsrs : List Csr := allCsrs.filter Csr.busyRefused

theorem busyRefused_of_mem {r : Csr} (h : r ∈ busyRefusedCsrs) : r.busyRefused = true :=
  (List.mem_filter.mp h).2

/-- What each register reads after a store: the stored one its new value, every other its old one. -/
theorem csrValue_csrStore (s : State) (v : Word) (r q : Csr) : csrValue (csrStore s v r) q =
    if q = r ∧ r.busyRefused = true then v else csrValue s q := by
  cases r <;> cases q <;> rfl

/-- A store reaches nothing but the configuration and the lengths. -/
theorem csrStore_frame (s : State) (v : Word) (r : Csr) :
    csrStore s v r = { s with cfg := (csrStore s v r).cfg, len := (csrStore s v r).len } := by
  cases r <;> rfl

/-- After a store every other offset reads as before: another register, and a RAM word of the same memory. -/
theorem memRead_csrStore_other {r : Csr} {b : Offset} (hb : b ≠ r.offset) (s : State) (v : Word) :
    (memRead b (csrStore s v r)).1 = (memRead b s).1 := by
  by_cases h₁ : b.toNat % 4 ≠ 0
  · simp only [memRead, if_pos h₁]
  by_cases h₂ : b.toNat ≤ 0xFFF
  · simp only [memRead, if_neg h₁, if_pos h₂, csrRead]
    cases hq : csrAt b with
    | none => rfl
    | some q =>
      have hne : q ≠ r := fun e => hb (by rw [← e, offset_of_csrAt hq])
      exact (csrValue_csrStore s v r q).trans (if_neg fun h => hne h.1)
  · simp only [memRead, if_neg h₁, if_neg h₂, csrStore_caps, csrStore_status, ramValue, csrStore_mem,
      csrStore_epoch]
    cases locate s.caps b.toNat with
    | none => rfl
    | some q => cases s.status.busy <;> rfl

/-! ### The read-only registers -/

/-- The registers no host write changes (R31, R37, R46, R51, R52). -/
def readOnlyCsrs : List Csr :=
  [.id, .capSamples, .capTaps, .capFrame, .capSignal, .capSpec, .capPeaks, .capHashes, .capLanes,
    .errInfo, .accAddr, .decim, .numHashes]

theorem csrWrite_readOnly {r : Csr} (h : r ∈ readOnlyCsrs) (v : Word) (s : State) :
    csrWrite r v s = .next (s.accError r.offset) := by
  have hr : ∀ q ∈ readOnlyCsrs, q ∉ [Csr.ctrl, .cmd, .status, .irqEn] ∧ q.busyRefused = false := by decide
  exact csrWrite_refused v (hr r h).1 (.inl (hr r h).2)

end Sys2Proof.Machine
end


section
/-! STATUS and IRQ_EN as words (R33, R36, R56, R236). -/

namespace Sys2Proof.Machine

/-! ### STATUS -/

theorem Stage.code_inj {a b : Stage} : a.code = b.code ↔ a = b := by
  cases a <;> cases b <;> decide

theorem ErrCode.code_inj {a b : ErrCode} : a.code = b.code ↔ a = b := by
  cases a <;> cases b <;> decide

/-- STATUS bit by bit, each field counted from its lowest bit (R33). -/
theorem Status.getLsbD_word (st : Status) (i : Nat) : st.word.getLsbD i =
    if i < 1 then (BitVec.ofBool st.busy).getLsbD i
    else if i - 1 < 1 then (BitVec.ofBool st.done).getLsbD (i - 1)
    else if i - 2 < 1 then (BitVec.ofBool st.err).getLsbD (i - 2)
    else if i - 3 < 1 then (BitVec.ofBool st.accErr).getLsbD (i - 3)
    else if i - 4 < 4 then st.stage.code.getLsbD (i - 4)
    else if i - 8 < 8 then st.errCode.code.getLsbD (i - 8)
    else if i - 16 < 8 then st.lastOp.getLsbD (i - 16)
    else (0#8).getLsbD (i - 24) := by
  have h : st.word.getLsbD i = BitVec.getLsbD (0#8 ++ st.lastOp ++ st.errCode.code ++ st.stage.code
      ++ BitVec.ofBool st.accErr ++ BitVec.ofBool st.err ++ BitVec.ofBool st.done
      ++ BitVec.ofBool st.busy) i := rfl
  simp only [h, BitVec.getLsbD_append]
  simp only [Nat.sub_sub, Nat.reduceAdd]

section
variable (st : Status)

theorem Status.word_busy : st.word.getLsbD 0 = st.busy := by rw [getLsbD_word]; simp

theorem Status.word_done : st.word.getLsbD 1 = st.done := by rw [getLsbD_word]; simp

theorem Status.word_err : st.word.getLsbD 2 = st.err := by rw [getLsbD_word]; simp

theorem Status.word_accErr : st.word.getLsbD 3 = st.accErr := by rw [getLsbD_word]; simp

theorem Status.word_stage : st.word.extractLsb' 4 4 = st.stage.code :=
  BitVec.eq_of_getLsbD_eq fun i hi => by
    simp (disch := omega) only [BitVec.getLsbD_extractLsb', getLsbD_word, if_true, if_neg,
      Nat.add_sub_cancel_left, hi, decide_true, Bool.true_and]

theorem Status.word_errCode : st.word.extractLsb' 8 8 = st.errCode.code :=
  BitVec.eq_of_getLsbD_eq fun i hi => by
    simp (disch := omega) only [BitVec.getLsbD_extractLsb', getLsbD_word, if_true, if_neg,
      Nat.add_sub_cancel_left, hi, decide_true, Bool.true_and]

theorem Status.word_lastOp : st.word.extractLsb' 16 8 = st.lastOp :=
  BitVec.eq_of_getLsbD_eq fun i hi => by
    simp (disch := omega) only [BitVec.getLsbD_extractLsb', getLsbD_word, if_true, if_neg,
      Nat.add_sub_cancel_left, hi, decide_true, Bool.true_and]

theorem Status.word_reserved : st.word.extractLsb' 24 8 = 0#8 :=
  BitVec.eq_of_getLsbD_eq fun i hi => by
    simp (disch := omega) only [BitVec.getLsbD_extractLsb', getLsbD_word, if_neg,
      Nat.add_sub_cancel_left, hi, decide_true, Bool.true_and]

end

/-! ### IRQ_EN -/

theorem IrqEnable.getLsbD_word (e : IrqEnable) (i : Nat) : e.word.getLsbD i =
    if i < 1 then (BitVec.ofBool e.doneIe).getLsbD i
    else if i - 1 < 1 then (BitVec.ofBool e.errIe).getLsbD (i - 1)
    else if i - 2 < 1 then (BitVec.ofBool e.accErrIe).getLsbD (i - 2)
    else (0#29).getLsbD (i - 3) := by
  have h : e.word.getLsbD i = BitVec.getLsbD (0#29 ++ BitVec.ofBool e.accErrIe
      ++ BitVec.ofBool e.errIe ++ BitVec.ofBool e.doneIe) i := rfl
  simp only [h, BitVec.getLsbD_append]
  simp only [Nat.sub_sub, Nat.reduceAdd]

theorem IrqEnable.getLsbD_word_high (e : IrqEnable) {i : Nat} (hi : 3 ≤ i) :
    e.word.getLsbD i = false := by
  simp (disch := omega) only [getLsbD_word, if_neg, BitVec.getLsbD_zero]

/-- A word with the three bits of an IRQ_EN and no other is that IRQ_EN's word. -/
theorem IrqEnable.eq_word {x : Word} {e : IrqEnable} (h₀ : x.getLsbD 0 = e.doneIe)
    (h₁ : x.getLsbD 1 = e.errIe) (h₂ : x.getLsbD 2 = e.accErrIe)
    (h : ∀ i, 3 ≤ i → i < 32 → x.getLsbD i = false) : x = e.word :=
  BitVec.eq_of_getLsbD_eq fun i hi => by
    obtain rfl | rfl | rfl | hi' : i = 0 ∨ i = 1 ∨ i = 2 ∨ 3 ≤ i := by omega
    · rw [h₀, getLsbD_word]; simp
    · rw [h₁, getLsbD_word]; simp
    · rw [h₂, getLsbD_word]; simp
    · rw [h i hi' hi, e.getLsbD_word_high hi']

theorem IrqEnable.and_seven_eq_word (v : Word) : v &&& 7 = (IrqEnable.ofWord v).word := by
  have h7 : ∀ i < 32, 3 ≤ i → (7 : Word).getLsbD i = false := by decide
  refine eq_word ?_ ?_ ?_ fun i hi hlt => by rw [BitVec.getLsbD_and, h7 i hlt hi, Bool.and_false]
  · simp [ofWord]
  · simp [ofWord]
  · simp [ofWord]

theorem IrqEnable.word_ne_zero_iff (e : IrqEnable) :
    e.word ≠ 0 ↔ (e.doneIe || e.errIe || e.accErrIe) = true := by
  obtain ⟨d, r, a⟩ := e
  cases d <;> cases r <;> cases a <;> decide

/-- The interrupt line's causes: DONE, ERR and ACCERR, each with its enable (R56). -/
def State.irqCauses (s : State) : IrqEnable where
  doneIe := s.status.done && s.irqEn.doneIe
  errIe := s.status.err && s.irqEn.errIe
  accErrIe := s.status.accErr && s.irqEn.accErrIe

theorem State.irqCauses_word (s : State) :
    (s.status.word >>> 1) &&& s.irqEn.word = s.irqCauses.word := by
  refine IrqEnable.eq_word ?_ ?_ ?_ fun i hi _ => by
    rw [BitVec.getLsbD_and, s.irqEn.getLsbD_word_high hi, Bool.and_false]
  · rw [BitVec.getLsbD_and, BitVec.getLsbD_ushiftRight, s.status.word_done, IrqEnable.getLsbD_word]
    simp [irqCauses]
  · rw [BitVec.getLsbD_and, BitVec.getLsbD_ushiftRight, s.status.word_err, IrqEnable.getLsbD_word]
    simp [irqCauses]
  · rw [BitVec.getLsbD_and, BitVec.getLsbD_ushiftRight, s.status.word_accErr, IrqEnable.getLsbD_word]
    simp [irqCauses]

end Sys2Proof.Machine
end

section
/-! The statements about the CSR file (10_state.md): each is one rule of a register, read at its offset. -/

namespace Sys2Proof.Machine

theorem decode_ctrl_ok_iff (w : Word) (i : Instr) :
    decode .ctrl w = .ok i ↔ i = .srst ∧ w.getLsbD 0 = true := by
  simp only [decode, decodeCtrl]
  cases w.getLsbD 0 with
  | false => simp
  | true => simp [eq_comm]

/-- Settles O5: CTRL and CMD are registers that read 0, and CTRL's write rule is the soft reset's. -/
theorem controlWordResets : Obligations.ControlWordResets := by
  intro s w
  refine ⟨memRead_csr .ctrl s, memRead_csr .cmd s, decode_ctrl_ok_iff w, ?_⟩
  calc memWrite 0x004 w s = csrWrite .ctrl w s := memWrite_csr .ctrl w s
    _ = .next (if w.getLsbD 0 then s.softReset else s) := writeCtrl_eq w s
    _ = if w.getLsbD 0 then exec .srst s else .next s := by split_ifs <;> rfl

/-- Settles O6: the fields of the word, and the numbers of stages and codes are distinct. -/
theorem statusFields : Obligations.StatusFields := by
  intro s
  have hw : (memRead 0x008 s).1 = s.status.word := congrArg Prod.fst (memRead_csr .status s)
  simp only [hw]
  refine ⟨s.status.word_busy, s.status.word_done, s.status.word_err, s.status.word_accErr,
    s.status.word_lastOp, s.status.word_reserved, fun p hp => ?_, fun p hp => ?_⟩
  · obtain ⟨st, -, rfl⟩ := List.mem_map.mp
      (show p ∈ [Stage.idle, .filter, .spectrum, .peaks, .hash].map (fun st => (st, st.code)) from hp)
    rw [s.status.word_stage, Stage.code_inj]
  · obtain ⟨code, -, rfl⟩ := List.mem_map.mp
      (show p ∈ [ErrCode.none, .illegalCmd, .invalidSampleRate, .cfgTargetRate, .cfgFrameSize, .cfgHop,
        .cfgBands, .capSamples, .capTaps, .capSignal, .capSpec, .capPeaks, .capHashes].map
          (fun code => (code, code.code)) from hp)
    rw [s.status.word_errCode, ErrCode.code_inj]

theorem and_not_eq_ite (a b : Bool) : (a && !b) = if b then false else a := by cases a <;> cases b <;> rfl

/-- Settles O7: the write at STATUS's offset is the W1C rule. -/
theorem statusWriteClears : Obligations.StatusWriteClears := fun s v =>
  ⟨s.status.clear v, memWrite_csr .status v s, and_not_eq_ite _ _, and_not_eq_ite _ _, and_not_eq_ite _ _,
    rfl, rfl, rfl, rfl⟩

/-- Settles O8: IRQ_EN keeps the three low bits of what is written, and the gated STATUS bits are the
causes of the interrupt. -/
theorem interruptLine : Obligations.InterruptLine := by
  refine ⟨fun c => ?_, fun s v => ?_, fun s => ?_⟩
  · calc (memRead 0x010 (State.resetOf c)).1
      _ = IrqEnable.reset.word := congrArg Prod.fst (memRead_csr .irqEn (State.resetOf c))
      _ = 0 := by decide
  · refine ⟨IrqEnable.ofWord v, memWrite_csr .irqEn v s, rfl, rfl, rfl, ?_⟩
    rw [IrqEnable.and_seven_eq_word]
    exact memRead_csr .irqEn { s with irqEn := IrqEnable.ofWord v }
  · have hst : (memRead 0x008 s).1 = s.status.word := congrArg Prod.fst (memRead_csr .status s)
    have hie : (memRead 0x010 s).1 = s.irqEn.word := congrArg Prod.fst (memRead_csr .irqEn s)
    rw [hst, hie, s.irqCauses_word, IrqEnable.word_ne_zero_iff]
    rfl

/-- Settles O9: each offset is a read-only register's, and a step keeps the parameters. -/
theorem constantRegisters : Obligations.ConstantRegisters := by
  refine ⟨fun s v p hp => ?_, fun _ _ => step_caps⟩
  rw [show 0#4 ++ s.accAddr = s.accAddr.setWidth 32 from (BitVec.setWidth_eq_append (by decide)).symm] at hp
  obtain ⟨r, hr, rfl⟩ := List.mem_map.mp
    (show p ∈ readOnlyCsrs.map (fun r => (r.offset, csrValue s r)) from hp)
  exact ⟨memRead_csr r s, (memWrite_csr r v s).trans (csrWrite_readOnly hr v s)⟩

/-- Settles O10: no register has one of these offsets. -/
theorem reservedCsrOffsets : Obligations.ReservedCsrOffsets := by
  intro s v a ha hl hres
  have hr : csrAt a = none := by
    rcases hres with rfl | rfl | rfl | h
    · rfl
    · rfl
    · rfl
    · exact csrAt_eq_none fun r e => by have := r.offset_lt; rw [← e] at this; omega
  exact ⟨memRead_reserved ha (by omega) hr s, memWrite_reserved ha (by omega) hr v s⟩

/-- Settles O11: each offset is a register's of the busy rule, and the next state is its store. -/
theorem idleRegisterWrite : Obligations.IdleRegisterWrite := by
  intro s v hb p hp
  obtain ⟨r, hr, rfl⟩ := List.mem_map.mp
    (show p ∈ busyRefusedCsrs.map (fun r => (r.offset, fun t => csrValue t r)) from hp)
  have hr := busyRefused_of_mem hr
  have hv := (csrValue_csrStore s v r r).trans (if_pos ⟨rfl, hr⟩)
  refine ⟨csrStore s v r, (memWrite_csr r v s).trans (csrWrite_store v hr hb), hv, ?_,
    fun b hne => memRead_csrStore_other hne s v, csrStore_frame s v r⟩
  rw [memRead_csr, hv]

/-- Settles O12: a register of the busy rule refuses the write, and a busy step keeps the configuration
or resets it. -/
theorem busyRegisterRule : Obligations.BusyRegisterRule := by
  refine ⟨fun s v hb a ha => ?_, fun s r => memRead_csr r s, fun s t => step_busy_configKept⟩
  obtain ⟨r, hr, rfl⟩ := List.mem_map.mp (show a ∈ busyRefusedCsrs.map Csr.offset from ha)
  have hn : ∀ q ∈ busyRefusedCsrs, q ∉ [Csr.ctrl, .cmd, .status, .irqEn] := by decide
  exact (memWrite_csr r v s).trans (csrWrite_refused v (hn r hr) (.inr hb))

end Sys2Proof.Machine
end

section
/-! The address map (20_memory.md R71) and the host port (R83 to R88): which accesses are refused, and what
the others do. -/

namespace Sys2Proof.Machine

/-! ### The address map -/

theorem mem_allRams (r : Ram) : r ∈ allRams := by cases r <;> decide

/-- R71's regions share no offset. -/
theorem Ram.regions_disjoint {r q : Ram} (h : r ≠ q) :
    r.base + r.size ≤ q.base ∨ q.base + q.size ≤ r.base := by
  have hall : ∀ r ∈ allRams, ∀ q ∈ allRams, r ≠ q →
      r.base + r.size ≤ q.base ∨ q.base + q.size ≤ r.base := by decide
  exact hall r (mem_allRams r) q (mem_allRams q) h

theorem Ram.holds_iff (r : Ram) (c : Caps) (a : Nat) : r.holds c a = true ↔
    r.base ≤ a ∧ a < r.base + r.size ∧ (a - r.base) / r.entryBytes < r.cap c := by
  simp only [Ram.holds, Bool.and_eq_true, decide_eq_true_eq, and_assoc]

theorem locate_eq_some_iff {c : Caps} {a : Nat} {r : Ram} : locate c a = some r ↔ r.holds c a = true := by
  refine ⟨fun h => List.find?_some (p := fun r : Ram => r.holds c a) h, fun h => ?_⟩
  obtain ⟨q, hq⟩ := Option.isSome_iff_exists.mp
    (List.find?_isSome (p := fun r : Ram => r.holds c a).mpr ⟨r, mem_allRams r, h⟩)
  have hq' : q.holds c a = true := List.find?_some (p := fun r : Ram => r.holds c a) hq
  obtain rfl : q = r := by
    by_contra hne
    rw [Ram.holds_iff] at h hq'
    have := Ram.regions_disjoint hne
    omega
  exact hq

/-- No RAM reaches into the CSR window (R71). -/
theorem lt_of_locate_isSome {c : Caps} {a : Nat} (h : (locate c a).isSome = true) : 0xFFF < a := by
  obtain ⟨r, hr⟩ := Option.isSome_iff_exists.mp h
  rw [locate_eq_some_iff, Ram.holds_iff] at hr
  have hb : 0xFFF < r.base := by cases r <;> decide
  omega

theorem regionTable_eq_map (c : Caps) : regionTable c =
    allRams.map (fun r => (r, r.base, r.base + r.size - 1, r.entryBytes, r.cap c)) := rfl

/-- The rows of R71 are the RAMs' own constants. -/
theorem mem_regionTable_iff {c : Caps} {r : Ram} {lo hi bytes entries : Nat} :
    (r, lo, hi, bytes, entries) ∈ regionTable c ↔
      lo = r.base ∧ hi = r.base + r.size - 1 ∧ bytes = r.entryBytes ∧ entries = r.cap c := by
  rw [regionTable_eq_map]
  constructor
  · intro h
    obtain ⟨q, -, e⟩ := List.mem_map.mp h
    cases e
    exact ⟨rfl, rfl, rfl, rfl⟩
  · rintro ⟨rfl, rfl, rfl, rfl⟩
    exact List.mem_map_of_mem (mem_allRams r)

/-! ### The three kinds of access -/

/-- The port refuses a read and a write at `a`: a misaligned or reserved offset, or a RAM while a command
runs (R53, R83, R85, R86). -/
def State.Refuses (s : State) (a : Offset) : Prop :=
  a.toNat % 4 ≠ 0 ∨ (a.toNat ≤ 0xFFF ∧ csrAt a = none) ∨
    (0xFFF < a.toNat ∧ (locate s.caps a.toNat = none ∨ s.status.busy = true))

/-- The port opens the RAM word at `a`: the machine is idle and the offset an aligned valid one (R84, R85). -/
def State.OpensRam (s : State) (a : Offset) : Prop :=
  s.status.busy = false ∧ a.toNat % 4 = 0 ∧ (locate s.caps a.toNat).isSome = true

/-- An access is refused, or reaches a register, or reaches a RAM word. -/
theorem State.access_cases (s : State) (a : Offset) :
    s.Refuses a ∨ (∃ r : Csr, a = r.offset) ∨ s.OpensRam a := by
  by_cases ha : a.toNat % 4 = 0
  · by_cases hl : a.toNat ≤ 0xFFF
    · cases hr : csrAt a with
      | none => exact .inl (.inr (.inl ⟨hl, hr⟩))
      | some r => exact .inr (.inl ⟨r, (offset_of_csrAt hr).symm⟩)
    · cases hb : s.status.busy with
      | true => exact .inl (.inr (.inr ⟨by omega, .inr hb⟩))
      | false =>
        cases hr : locate s.caps a.toNat with
        | none => exact .inl (.inr (.inr ⟨by omega, .inl hr⟩))
        | some r => exact .inr (.inr ⟨hb, ha, by rw [hr]; rfl⟩)
  · exact .inl (.inl ha)

section
variable {s : State} {a : Offset}

theorem memRead_refused (h : s.Refuses a) : memRead a s = (0, s.accError a) := by
  by_cases ha : a.toNat % 4 = 0
  · rcases h with h | ⟨hl, hr⟩ | ⟨hl, h⟩
    · exact absurd ha h
    · exact memRead_reserved ha hl hr s
    · rw [memRead, if_neg (by omega), if_neg (by omega)]
      cases hr : locate s.caps a.toNat with
      | none => rfl
      | some r => exact if_pos (h.resolve_left (by simp [hr]))
  · rw [memRead, if_pos ha]

theorem memWrite_refused (h : s.Refuses a) (v : Word) : memWrite a v s = .next (s.accError a) := by
  by_cases ha : a.toNat % 4 = 0
  · rcases h with h | ⟨hl, hr⟩ | ⟨hl, h⟩
    · exact absurd ha h
    · exact memWrite_reserved ha hl hr v s
    · rw [memWrite, if_neg (by omega), if_neg (by omega)]
      cases hr : locate s.caps a.toNat with
      | none => rfl
      | some r => exact if_pos (h.resolve_left (by simp [hr]))
  · rw [memWrite, if_pos ha]

theorem memRead_ram (h : s.OpensRam a) : memRead a s = (ramValue s a.toNat, s) := by
  obtain ⟨hb, ha, hr⟩ := h
  have hl := lt_of_locate_isSome hr
  obtain ⟨r, hr⟩ := Option.isSome_iff_exists.mp hr
  rw [memRead, if_neg (by omega), if_neg (by omega), hr]
  simp [hb]

theorem memWrite_ram (h : s.OpensRam a) (v : Word) :
    memWrite a v s = .next { s with mem := memPutWord s.mem a.toNat v } := by
  obtain ⟨hb, ha, hr⟩ := h
  have hl := lt_of_locate_isSome hr
  obtain ⟨r, hr⟩ := Option.isSome_iff_exists.mp hr
  rw [memWrite, if_neg (by omega), if_neg (by omega), hr]
  simp [hb]

end

theorem ramValue_of_some {s : State} {a : Nat} {w : Word} (h : memWord s.mem a = some w) :
    ramValue s a = w := by rw [ramValue, h]

theorem ramValue_of_none {s : State} {a : Nat} (h : memWord s.mem a = none) :
    ramValue s a = Config.freeWord s.epoch a := by rw [ramValue, h]

/-! ### Repeated accesses -/

/-- Reading again answers the same: a refused read only records the access error. -/
theorem memRead_again (a : Offset) (s : State) : (memRead a (memRead a s).2).1 = (memRead a s).1 := by
  rcases s.access_cases a with h | ⟨r, rfl⟩ | h
  · have h' : (s.accError a).Refuses a := h
    rw [memRead_refused h, memRead_refused h']
  · rw [memRead_csr, memRead_csr]
  · rw [memRead_ram h, memRead_ram h]

/-- In canonical form, writing a word again leaves the same memory. -/
theorem memPutWord_again {m : Memory} (hm : Memory.wf m = true) (a : Nat) (w : Word) :
    memPutWord (memPutWord m a w) a w = memPutWord m a w := by
  have hw := memPutWord_wf m a w hm
  refine memory_ext (memPutWord_wf _ a w hw) hw fun x => ?_
  simp only [memByte_memPutWord]
  split_ifs <;> rfl

theorem csrStore_again (s : State) (v : Word) (r : Csr) :
    csrStore (csrStore s v r) v r = csrStore s v r := by cases r <;> rfl

/-- A register that is neither CTRL, STATUS nor CMD takes the same value again without effect. -/
theorem csrWrite_again {r : Csr} (hr : r ∉ [Csr.ctrl, .status, .cmd]) {v : Word} {s t : State}
    (h : csrWrite r v s = .next t) : csrWrite r v t = .next t := by
  rcases csrWrite_cases r v s with
    ⟨rfl, -⟩ | ⟨rfl, -⟩ | ⟨rfl, -⟩ | ⟨rfl, e⟩ | ⟨hbr, hb, e⟩ | ⟨hbr, hr', e⟩
  · simp at hr
  · simp at hr
  · simp at hr
  · cases h.symm.trans e; rfl
  · cases h.symm.trans e
    rw [csrWrite_store v hbr (by rwa [csrStore_status]), csrStore_again]
  · cases h.symm.trans e
    exact csrWrite_refused v hr' hbr

theorem memWrite_again {a : Offset} (hctrl : a ≠ Csr.ctrl.offset) (hstatus : a ≠ Csr.status.offset)
    (hcmd : a ≠ Csr.cmd.offset) {v : Word} {s t : State} (hm : Memory.wf s.mem = true)
    (h : memWrite a v s = .next t) : memWrite a v t = .next t := by
  rcases s.access_cases a with hr | ⟨r, rfl⟩ | hr
  · cases h.symm.trans (memWrite_refused hr v)
    have hr' : (s.accError a).Refuses a := hr
    exact memWrite_refused hr' v
  · rw [memWrite_csr] at h ⊢
    refine csrWrite_again (fun hmem => ?_) h
    simp only [List.mem_cons, List.not_mem_nil, or_false] at hmem
    rcases hmem with rfl | rfl | rfl
    · exact hctrl rfl
    · exact hstatus rfl
    · exact hcmd rfl
  · cases h.symm.trans (memWrite_ram hr v)
    have hr' : State.OpensRam { s with mem := memPutWord s.mem a.toNat v } a := hr
    rw [memWrite_ram hr']
    simp only [memPutWord_again hm]

/-! ### The statements about single accesses -/

/-- Settles O13: R71's rows are the RAMs' constants, and an aligned offset above the CSR window in no RAM
is a refused one. -/
theorem addressMap : Obligations.AddressMap := by
  refine ⟨fun c a r => ?_, fun s v a ha hl hn => ?_⟩
  · rw [locate_eq_some_iff, Ram.holds_iff]
    have hsize : 0 < r.size := by cases r <;> decide
    constructor
    · rintro ⟨hlo, hhi, hcap⟩
      exact ⟨_, _, _, _, mem_regionTable_iff.mpr ⟨rfl, rfl, rfl, rfl⟩, hlo, by omega, hcap⟩
    · rintro ⟨lo, hi, bytes, entries, hrow, hlo, hhi, hcap⟩
      obtain ⟨rfl, rfl, rfl, rfl⟩ := mem_regionTable_iff.mp hrow
      exact ⟨hlo, by omega, hcap⟩
  · have hr : s.Refuses a := .inr (.inr ⟨hl, .inl hn⟩)
    exact ⟨memRead_refused hr, memWrite_refused hr v⟩

/-- Settles O14: bits 1:0 are the remainder by 4, and a valid RAM offset lies above the CSR window. -/
theorem refusedAccesses : Obligations.RefusedAccesses := by
  intro s v a h
  have hr : s.Refuses a := by
    rcases h with h | ⟨hb, hr⟩
    · refine .inl fun h0 => h (BitVec.eq_of_toNat_eq ?_)
      simpa using h0
    · exact .inr (.inr ⟨lt_of_locate_isSome hr, .inr hb⟩)
  exact ⟨memRead_refused hr, memWrite_refused hr v⟩

/-- Settles O15: the RAM word that the port opens is the one `memPutWord` writes. -/
theorem ramReadAfterWrite : Obligations.RamReadAfterWrite := by
  refine ⟨fun s v a hb ha hr => ?_, fun s a hb ha hr => ?_⟩
  · have ho : s.OpensRam a := ⟨hb, ha, hr⟩
    have ho' : State.OpensRam { s with mem := memPutWord s.mem a.toNat v } a := ho
    refine ⟨_, memWrite_ram ho v, ?_, fun i hi => ?_, fun x hx => ?_,
      ⟨rfl, rfl, rfl, rfl, rfl, rfl, rfl⟩, rfl, rfl⟩
    · rw [memRead_ram ho', ramValue_of_some (memWord_memPutWord_same _ _ _)]
    · rw [memByte_memPutWord, if_pos (by omega), Nat.add_sub_cancel_left, byteOf]
    · rw [memByte_memPutWord, if_neg (by omega)]
  · rw [memRead_ram ⟨hb, ha, hr⟩]
    exact ⟨fun w hw => by rw [ramValue_of_some hw], fun hn => by rw [ramValue_of_none hn]⟩

/-- Settles O16: a read keeps the state or records the access error, and each kind of write may be
repeated. -/
theorem accessesIdempotent : Obligations.AccessesIdempotent :=
  ⟨fun s a => ⟨(memRead_cases a s).imp_right And.left, memRead_again a s⟩,
    fun _ _ _ _ hm hctrl hstatus hcmd h => memWrite_again hctrl hstatus hcmd hm h⟩

end Sys2Proof.Machine
end

section
/-! The accesses of WRF64 and WRS16 (30_encoding.md R110), run by the machine, and the entries they leave. -/

namespace Sys2Proof.Machine

/-! ### The memory laws -/

/-- Two words written one after the other are the binary64 entry they are the halves of (R73). -/
theorem memF64_memPutWord_pair (m : Memory) (a : Nat) (x : F64) :
    memF64 (memPutWord (memPutWord m a (x.extractLsb' 0 32)) (a + 4) (x.extractLsb' 32 32)) a = some x := by
  rw [memF64, memWord_memPutWord_other _ _ _ _ (.inl le_rfl), memWord_memPutWord_same,
    memWord_memPutWord_same]
  exact congrArg some (f64Words_join x)

/-- A word of the sample RAM holds its two samples, the even one in the low half (R74). -/
theorem sampleAt_memPutWord (m : Memory) (w : Nat) (lo hi : BitVec 16) :
    sampleAt (memPutWord m (Ram.sample.base + 4 * w) (hi ++ lo)) (2 * w) = some lo ∧
      sampleAt (memPutWord m (Ram.sample.base + 4 * w) (hi ++ lo)) (2 * w + 1) = some hi := by
  have hlo : BitVec.extractLsb' 0 16 (hi ++ lo) = lo := by
    rw [BitVec.extractLsb'_append_eq_of_add_le (by decide), BitVec.extractLsb'_eq_self]
  have hhi : BitVec.extractLsb' 16 16 (hi ++ lo) = hi := by
    rw [BitVec.extractLsb'_append_eq_of_le le_rfl, BitVec.extractLsb'_eq_self]
  constructor
  · rw [sampleAt, show 2 * w / 2 = w by omega, show 2 * w % 2 = 0 by omega, memWord_memPutWord_same]
    exact congrArg some hlo
  · rw [sampleAt, show (2 * w + 1) / 2 = w by omega, show (2 * w + 1) % 2 = 1 by omega,
      memWord_memPutWord_same]
    exact congrArg some hhi

/-! ### The accesses as steps -/

/-- The host's write of a RAM word that the port opens is one step (R85, R89). -/
theorem step_write_ram {s : State} {a : Offset} {v : Word} {rest : List Move}
    (hsched : s.sched = .host (.write a v) :: rest) (h : s.OpensRam a) :
    step s = .next { s with mem := memPutWord s.mem a.toNat v, sched := rest, rsp := none } := by
  have h' : (s.advance rest).OpensRam a := h
  rw [step_host s _ rest hsched, hostMove, memWrite_ram h']
  rfl

theorem coreRun_succ (M : Host.Core) {s t : M.State} (h : M.step s = .next t) (k : Nat) :
    M.run (k + 1) s = M.run k t := by rw [Host.Core.run, h]

theorem run_succ {s t : State} (h : step s = .next t) (k : Nat) :
    Host.Core.run Sys2Proof.core (k + 1) s = Host.Core.run Sys2Proof.core k t :=
  coreRun_succ Sys2Proof.core (s := s) (t := t) h k

/-- With parameters that R7 allows, an aligned offset below a RAM's capacity fits the window and is opened
while idle (R71, R83). -/
theorem State.opensRam_ram {s : State} (hc : s.caps.wf = true) (hb : s.status.busy = false) (r : Ram)
    {k : Nat} (hk : k < r.entryBytes * r.cap s.caps) (hk4 : k % 4 = 0) :
    (BitVec.ofNat 28 (r.base + k)).toNat = r.base + k ∧ s.OpensRam (BitVec.ofNat 28 (r.base + k)) := by
  have hfit := r.cap_fits hc
  have htop : r.base + r.size ≤ 2 ^ 28 ∧ r.base % 4 = 0 := by cases r <;> decide
  have ha : (BitVec.ofNat 28 (r.base + k)).toNat = r.base + k := by
    rw [BitVec.toNat_ofNat, Nat.mod_eq_of_lt (by omega)]
  exact ⟨ha, hb, by omega, by rw [ha]; exact locate_isSome_of_lt r hc hk⟩

/-! ### WRF64 and WRS16 -/

/-- The host's writes of words at consecutive offsets from `a` on. -/
def wordWrites (a : Nat) : List Word → List Access
  | [] => []
  | w :: ws => .write (BitVec.ofNat 28 a) w :: wordWrites (a + 4) ws

theorem length_wordWrites (a : Nat) (ws : List Word) : (wordWrites a ws).length = ws.length := by
  induction ws generalizing a with
  | nil => rfl
  | cons w ws ih => simp [wordWrites, ih]

theorem hostMoves_singleton (p : HostStmt) : hostMoves [p] = p.expand.map Move.host := by
  simp [hostMoves]

/-- Writes of words inside a RAM, as the next moves of the host, write those words; each takes the last
response away (log 11). -/
theorem run_wordWrites {s : State} (hc : s.caps.wf = true) (hb : s.status.busy = false) (r : Ram)
    (rest : List Move) (ws : List Word) {k : Nat} (hk4 : k % 4 = 0)
    (hk : k + 4 * ws.length ≤ r.entryBytes * r.cap s.caps) :
    Host.Core.run Sys2Proof.core ws.length
        { s with sched := (wordWrites (r.base + k) ws).map Move.host ++ rest } =
      .next { s with
        mem := memPutWords s.mem (r.base + k) ws
        sched := rest
        rsp := if ws = [] then s.rsp else none } := by
  induction ws generalizing s k with
  | nil => rfl
  | cons w ws ih =>
    rw [List.length_cons] at hk
    obtain ⟨ha, ho⟩ := State.opensRam_ram hc hb r (k := k) (by omega) hk4
    have hstep := step_write_ram
      (s := { s with sched := (wordWrites (r.base + k) (w :: ws)).map Move.host ++ rest }) rfl ho
    have hrest := ih (s := { s with mem := memPutWord s.mem (r.base + k) w, rsp := none }) hc hb
      (k := k + 4) (by omega) (show k + 4 + 4 * ws.length ≤ r.entryBytes * r.cap s.caps by omega)
    rw [ha] at hstep
    exact (run_succ hstep ws.length).trans (hrest.trans (by simp [memPutWords, Nat.add_assoc]))

/-- A host statement that writes words inside a RAM of an idle machine changes nothing else (R110). -/
theorem State.hostWrites_of_wordWrites {s : State} (hc : s.caps.wf = true) (hb : s.status.busy = false)
    (r : Ram) {k : Nat} (hk4 : k % 4 = 0) {ws : List Word} (hws : ws ≠ [])
    (hk : k + 4 * ws.length ≤ r.entryBytes * r.cap s.caps) {p : HostStmt}
    (hp : p.expand = wordWrites (r.base + k) ws) {held : Memory → Prop}
    (hheld : held (memPutWords s.mem (r.base + k) ws)) :
    s.HostWrites p (r.base + k) (4 * ws.length) held := by
  intro rest
  have hrun := run_wordWrites hc hb r rest ws hk4 hk
  rw [if_neg hws] at hrun
  rw [← length_wordWrites (r.base + k), ← hp, ← hostMoves_singleton] at hrun
  exact ⟨_, hrun, rfl, hheld, fun x hx => memByte_memPutWords_outside ws s.mem _ x hx⟩

/-- WRF64, to a RAM of 8-byte entries, is the writes of an entry's two words (R73, R110). -/
theorem State.hostWrites_f64 {s : State} (hc : s.caps.wf = true) (hb : s.status.busy = false) {r : Ram}
    (hr : r.entryBytes = 8) {i : Nat} (hi : i < r.cap s.caps) {x : F64} {p : HostStmt}
    (hp : p.expand = wordWrites (r.base + 8 * i) (f64Words x)) :
    s.HostWrites p (r.base + 8 * i) 8 (fun m => memF64 m (r.base + 8 * i) = some x) := by
  have hk : 8 * i + 4 * (f64Words x).length ≤ r.entryBytes * r.cap s.caps := by
    rw [hr, show (f64Words x).length = 2 from rfl]; omega
  exact State.hostWrites_of_wordWrites hc hb r (by omega) (by simp [f64Words]) hk hp
    (memF64_memPutWord_pair s.mem _ x)

/-- Settles O17: WRF64 writes the two words of its entry, WRS16 the word of its two samples; the other
expansions are computed. -/
theorem hostEntryWrites : Obligations.HostEntryWrites := by
  refine ⟨fun s hc hb => ⟨fun t x ht => ?_, fun n x hn => ?_, fun i x hi => ?_, fun e x he => ?_,
    fun w a b hw => ?_⟩, memF64_memPutWord_pair, sampleAt_memPutWord, by decide, rfl, rfl, rfl⟩
  · exact State.hostWrites_f64 hc hb (r := .kernel) rfl ht rfl
  · exact State.hostWrites_f64 hc hb (r := .window) rfl hn rfl
  · exact State.hostWrites_f64 hc hb (r := .signal) rfl hi rfl
  · exact State.hostWrites_f64 hc hb (r := .spec) rfl he rfl
  · have hk : 4 * w + 4 ≤ Ram.sample.entryBytes * Ram.sample.cap s.caps := by
      simp only [Caps.wf, Caps.samplesOk, Bool.and_eq_true, beq_iff_eq] at hc
      simp only [Ram.entryBytes, Ram.cap]
      omega
    exact State.hostWrites_of_wordWrites hc hb .sample (by omega) (ws := [b ++ a]) (by simp) hk rfl
      (sampleAt_memPutWord s.mem w a b)

end Sys2Proof.Machine
end

section
/-! What a move of the core leaves alone (40_commands.md R123): the host's registers, and every byte below
the output RAM of the stage that ran. -/

namespace Sys2Proof.Machine

/-- A core move that answers while BUSY = 1 is the core step of the executing command's stages. -/
theorem coreStep_of_coreMove {s t : State} (hb : s.status.busy = true) (h : coreMove s = .next t) :
    coreStep (stageListOf s.status.lastOp) s.newEpoch = .next t := by
  rw [coreMove, if_pos hb] at h
  cases hd : decode .cmd (s.status.lastOp.setWidth 32) with
  | error e => rw [hd] at h; cases h
  | ok i =>
    obtain ⟨hop, hsrst⟩ := opcode_of_decode hd
    rw [hd] at h
    by_cases hi : i ∈ [Instr.run, .filter, .spectrum, .peaks, .hash]
    · rw [hop, ← exec_executing hi s hb hop]
      fin_cases hi <;> exact h
    · cases i with
      | nop => cases h
      | srst => exact absurd rfl hsrst
      | _ => simp at hi

/-- A single-stage command that executes runs its stage alone (R123). -/
theorem exec_singleStage {i : Instr} {st : Stage} (hi : i ∈ [Instr.run, .filter, .spectrum, .peaks, .hash])
    (hl : stagesOf i.opcode = [st]) {s : State} (hs : s.Executing i st) :
    exec i s = coreStep [(st, stageRule st)] s.newEpoch := by
  obtain ⟨hb, hop, -⟩ := hs
  rw [exec_executing hi s hb hop, stageListOf, hl, List.map_singleton]

/-- Completion, the next stage and an error leave ACCERR and LASTOP of STATUS (R123, R127, R238). -/
theorem coreStep_accErr_lastOp {op : BitVec 8} {s t : State} (h : coreStep (stageListOf op) s = .next t) :
    t.status.accErr = s.status.accErr ∧ t.status.lastOp = s.status.lastOp := by
  rcases coreStep_cases (stageListOf op) s with ⟨pre, rule, rest, hl, hc⟩ | ⟨-, e⟩
  · obtain ⟨st, -, hst⟩ := List.mem_map.mp
      (show (s.status.stage, rule) ∈ stageListOf op by rw [hl]; simp)
    cases hst
    rcases hc with ⟨u, hr, e⟩ | ⟨code, info, u, hr, e⟩ | ⟨r, -, e⟩ <;> cases e.symm.trans h
    · rw [← stageRule_status (s := s) (t := u) (by rw [hr]; rfl)]
      cases rest <;> exact ⟨rfl, rfl⟩
    · rw [← stageRule_status (s := s) (t := u) (by rw [hr]; rfl)]
      exact ⟨rfl, rfl⟩
  · cases e.symm.trans h

/-- A stage writes its output RAM from the base up (R131, R276). -/
theorem stageRule_memByte_below {st : Stage} {r : Ram} (hr : outputRam st = some r) {s t : State}
    (h : (stageRule st s).state? = some t) {a : Nat} (ha : a < r.base) :
    memByte t.mem a = memByte s.mem a := by
  cases st with
  | idle => cases h
  | filter =>
    cases hr
    rcases filterStage_cases s with ⟨_, _, -, e⟩ | ⟨-, _, _, -, -, e⟩ | ⟨-, -, e⟩ <;>
      rw [stageRule, e] at h <;> cases h
    · rfl
    · exact memByte_memPutF64s_outside _ _ _ _ (.inl ha)
  | spectrum =>
    cases hr
    rcases spectrumStage_cases s with ⟨_, _, -, e⟩ | ⟨-, _, _, -, -, e⟩ | ⟨-, -, e⟩ <;>
      rw [stageRule, e] at h <;> cases h
    · rfl
    · exact memByte_memPutF64s_outside _ _ _ _ (.inl ha)
  | peaks =>
    cases hr
    rcases peaksStage_cases s with ⟨_, _, -, e⟩ | ⟨-, _, -, e⟩ | ⟨-, -, e⟩ <;>
      rw [stageRule, e] at h <;> cases h
    · rfl
    · exact memByte_memPutWords_outside _ _ _ _ (.inl ha)
  | hash =>
    cases hr
    rcases hashStage_cases s with ⟨_, _, -, e⟩ | ⟨-, _, -, ⟨_, -, e⟩ | ⟨_, _, -, e⟩⟩ | ⟨-, -, e⟩ <;>
      rw [stageRule, e] at h <;> cases h
    · rfl
    · exact memByte_memPutWords_outside _ _ _ _ (.inl ha)
    · exact memByte_memPutWords_outside _ _ _ _ (.inl ha)

/-- No stage writes below the signal RAM: the kernel, window and sample RAM are the host's (R76 to R78). -/
theorem stageRule_memByte_below_signal {st : Stage} {s t : State}
    (h : (stageRule st s).state? = some t) {a : Nat} (ha : a < Ram.signal.base) :
    memByte t.mem a = memByte s.mem a := by
  cases hr : outputRam st with
  | none => cases st <;> cases hr; cases h
  | some r =>
    have hb : Ram.signal.base ≤ r.base := by cases st <;> cases hr <;> decide
    exact stageRule_memByte_below hr h (by omega)

/-- Settles O28: the idle core does nothing, and a busy core's move is the step of a stage, which keeps all
but STATUS, ERRINFO, the lengths and its output RAM. -/
theorem coreLeavesHostState : Obligations.CoreLeavesHostState := by
  intro s t h
  cases hb : s.status.busy with
  | false =>
    cases h.symm.trans (coreMove_idle s hb)
    exact ⟨rfl, rfl, rfl, rfl, rfl, rfl, rfl, rfl, fun _ _ => rfl⟩
  | true =>
    obtain ⟨herr, hop⟩ := coreStep_accErr_lastOp (coreStep_of_coreMove hb h)
    obtain ⟨u, st, info, hu, rfl⟩ := coreMove_next hb h
    have hmem {a : Nat} (ha : a < Ram.signal.base) : memByte u.mem a = memByte s.mem a :=
      stageRule_memByte_below_signal hu ha
    rw [stageRule_keeps _ _ _ hu]
    exact ⟨rfl, rfl, rfl, rfl, herr, hop, rfl, rfl, fun _ => hmem⟩

end Sys2Proof.Machine
end

section
/-! HASH and the magnitude words of the records (R75, R206): it reads none of them. -/

namespace Sys2Proof.Machine

/-- `m'` reads as `m` does outside the magnitude words of the peak region (R75, R81). -/
def SameButMagnitudes (m m' : Memory) : Prop :=
  ∀ a, memByte m' a = memByte m a ∨
    (Ram.peak.base ≤ a ∧ a < Ram.peak.base + Ram.peak.size ∧ 8 ≤ (a - Ram.peak.base) % 16)

section
variable {m m' : Memory} (h : SameButMagnitudes m m')
include h

/-- FRAME and BIN are the first eight of a record's sixteen bytes (R81). -/
theorem SameButMagnitudes.peakKeyAt (p : Nat) : peakKeyAt m' p = peakKeyAt m p := by
  have hbyte {a : Nat} (h₁ : Ram.peak.entry p ≤ a) (h₂ : a < Ram.peak.entry p + 8) :
      memByte m' a = memByte m a :=
    (h a).resolve_right fun ⟨_, _, h₃⟩ => by simp only [Ram.entry, Ram.base, Ram.entryBytes] at *; omega
  have hframe : peakFrameAt m' p = peakFrameAt m p :=
    memWord_eq_of_bytes fun _ h₁ h₂ => hbyte h₁ (by omega)
  have hbin : peakBinAt m' p = peakBinAt m p :=
    memWord_eq_of_bytes fun _ h₁ h₂ => hbyte (by omega) (by omega)
  rw [Machine.peakKeyAt, Machine.peakKeyAt, hframe, hbin]

/-- The hash RAM lies above the peak region (R71). -/
theorem SameButMagnitudes.hashAt (i : Nat) : hashAt m' i = hashAt m i :=
  memWord_eq_of_bytes fun a h₁ _ => (h a).resolve_right fun ⟨_, h₃, _⟩ => by
    simp only [Ram.entry, Ram.base, Ram.entryBytes, Ram.size] at *; omega

end

/-- `t'` has the results of `t` that HASH leaves (R208, R209). -/
def SameHashResult (t t' : State) : Prop :=
  t'.status = t.status ∧ t'.len = t.len ∧ t'.errInfo = t.errInfo ∧
    ∀ i, i < t.len.numHashes.toNat → hashAt t'.mem i = hashAt t.mem i

theorem hashAt_hashWrite (s : State) (hs : List Word) {i : Nat} (hi : i < hs.length) :
    hashAt (hashWrite s hs).mem i = some hs[i] :=
  memWord_memPutWords_inside hs s.mem Ram.hash.base i hi

/-- The hashes that HASH writes cover those NUM_HASHES counts, whatever memory they are written to. -/
theorem hashWrite_sameHashResult (s : State) (m' : Memory) (hs : List Word) :
    SameHashResult (hashWrite s hs) (hashWrite { s with mem := m' } hs) := by
  refine ⟨rfl, rfl, rfl, fun i hi => ?_⟩
  have hi' : i < hs.length := by
    rw [hashWrite_len, BitVec.toNat_ofNat] at hi
    exact hi.trans_le (Nat.mod_le _ _)
  rw [hashAt_hashWrite _ _ hi', hashAt_hashWrite _ _ hi']

/-- Two stage results with the same hashes: both done, or both the same error. -/
inductive SameHashOutcome : StageResult → StageResult → Prop
  | done {t t' : State} (h : SameHashResult t t') : SameHashOutcome (.done t) (.done t')
  | error {t t' : State} (code : ErrCode) (info : Word) (h : SameHashResult t t') :
      SameHashOutcome (.error code info t) (.error code info t')
  | fault (r : Fault) : SameHashOutcome (.fault r) (.fault r)

/-- The HASH stage answers the same on memories that differ in magnitude words only. -/
theorem hashStage_sameHashOutcome {s : State} {m' : Memory} (h : SameButMagnitudes s.mem m') :
    SameHashOutcome (hashStage s) (hashStage { s with mem := m' }) := by
  have hkeys : collectFrom (peakKeyAt m') 0 s.len.numPeaks.toNat =
      collectFrom (peakKeyAt s.mem) 0 s.len.numPeaks.toNat :=
    collectFrom_congr 0 _ fun p _ _ => h.peakKeyAt p
  have hchecks : hashChecks { s with mem := m' } = hashChecks s := rfl
  rcases hashStage_cases s with
    ⟨code, info, hc, e⟩ | ⟨hc, ps, hps, ⟨hs, hh, e⟩ | ⟨i, hs, hh, e⟩⟩ | ⟨hc, hps, e⟩
  · have e' : hashStage { s with mem := m' } = .error code info { s with mem := m' } := by
      simp only [hashStage, hchecks, hc]
    rw [e, e']
    exact .error code info ⟨rfl, rfl, rfl, fun i _ => h.hashAt i⟩
  · have e' : hashStage { s with mem := m' } = .done (hashWrite { s with mem := m' } hs) := by
      simp only [hashStage, hchecks, hc, hkeys, hps, hh]
    rw [e, e']
    exact .done (hashWrite_sameHashResult s m' hs)
  · have e' : hashStage { s with mem := m' } =
        .error .capHashes (BitVec.ofNat 32 i) (hashWrite { s with mem := m' } hs) := by
      simp only [hashStage, hchecks, hc, hkeys, hps, hh]
    rw [e, e']
    exact .error _ _ (hashWrite_sameHashResult s m' hs)
  · have e' : hashStage { s with mem := m' } = .fault .unwrittenWord :=
      hashStage_fault (hchecks.trans hc) (hkeys.trans hps)
    rw [e, e']
    exact .fault _

/-- Completion and the error completion change the same of both states (R127, R238). -/
theorem SameHashOutcome.coreStep {rule : State → StageResult} {st : Stage} {s s' t : State}
    (hst : s.status.stage = st) (hst' : s'.status.stage = st) (h : SameHashOutcome (rule s) (rule s'))
    (ht : coreStep [(st, rule)] s = .next t) :
    ∃ t', coreStep [(st, rule)] s' = .next t' ∧ SameHashResult t t' := by
  simp only [Machine.coreStep, if_pos hst, if_pos hst'] at ht ⊢
  generalize rule s = r at h ht
  generalize rule s' = r' at h
  cases h with
  | done h =>
    obtain ⟨hstatus, hlen, herr, hhash⟩ := h
    cases ht
    exact ⟨_, rfl, by simp only [afterStage, State.complete_status, hstatus], hlen, herr, hhash⟩
  | error code info h =>
    obtain ⟨hstatus, hlen, -, hhash⟩ := h
    cases ht
    exact ⟨_, rfl, by simp only [State.errorCompletion_status, hstatus], hlen, rfl, hhash⟩
  | fault r => cases ht

/-- Settles O49: the HASH stage answers the same hashes, and the sequencer adds the same to both. -/
theorem hashIgnoresMagnitudes : Obligations.HashIgnoresMagnitudes := by
  intro s m' hs hm t ht
  have hs' : State.Executing { s with mem := m' } .hash .hash := hs
  rw [exec_singleStage (by simp) rfl hs] at ht
  rw [exec_singleStage (by simp) rfl hs']
  obtain ⟨-, -, hst⟩ := hs
  have hsame : SameHashOutcome (stageRule .hash s.newEpoch)
      (stageRule .hash (State.newEpoch { s with mem := m' })) :=
    hashStage_sameHashOutcome (s := s.newEpoch) hm
  exact hsame.coreStep (s := s.newEpoch) hst hst ht

end Sys2Proof.Machine
end

section
/-! The command words (30_encoding.md R100 to R106): what each word written to CMD decodes to, and the bytes
that hold it. -/

namespace Sys2Proof.Machine

/-! ### Words -/

/-- A command word is its OP field when RSV is 0 (R100). -/
theorem eq_setWidth_of_rsv {w : Word} (h : w.extractLsb' 8 24 = 0) : w = (w.extractLsb' 0 8).setWidth 32 := by
  have hrsv := congrArg BitVec.toNat h
  apply BitVec.eq_of_toNat_eq
  simp [Nat.shiftRight_eq_div_pow] at hrsv ⊢
  omega

theorem decode_encode (i : Instr) : decode i.reg (encode i) = .ok i := by cases i <;> rfl

theorem reg_eq_cmd_iff (i : Instr) : i.reg = .cmd ↔ i ≠ .srst := by cases i <;> decide

theorem decode_cmd_reservedBits {w : Word} (h : w.extractLsb' 8 24 ≠ 0) :
    decode .cmd w = .error .reservedBits := by
  rw [decode, decodeCmd, if_pos h]

theorem decode_cmd_ok_iff (w : Word) (i : Instr) :
    decode .cmd w = .ok i ↔ i.reg = .cmd ∧ w = encode i := by
  constructor
  · intro h
    have hrsv : w.extractLsb' 8 24 = 0 := by
      by_contra hrsv
      cases (decode_cmd_reservedBits hrsv).symm.trans h
    have hw := eq_setWidth_of_rsv hrsv
    rw [hw] at h
    obtain ⟨hop, hsrst⟩ := opcode_of_decode h
    exact ⟨(reg_eq_cmd_iff i).mpr hsrst, by rw [hw, hop, encode]⟩
  · rintro ⟨hreg, rfl⟩
    exact hreg ▸ decode_encode i

/-- OP fields from 6 on belong to no command (R101). -/
theorem decode_cmd_reservedOpcode {w : Word} (hrsv : w.extractLsb' 8 24 = 0)
    (hop : 5 < (w.extractLsb' 0 8).toNat) : decode .cmd w = .error .reservedOpcode := by
  rw [decode, decodeCmd, if_neg (not_not.mpr hrsv)]
  split
  case h_7 => rfl
  all_goals omega

/-- Every word of R103 is rejected. -/
theorem decode_cmd_illegal {w : Word} (h : w.extractLsb' 8 24 ≠ 0 ∨ 6 ≤ (w.extractLsb' 0 8).toNat) :
    ∃ e, decode .cmd w = .error e := by
  by_cases hrsv : w.extractLsb' 8 24 = 0
  · exact ⟨_, decode_cmd_reservedOpcode hrsv (h.resolve_left (not_not.mpr hrsv))⟩
  · exact ⟨_, decode_cmd_reservedBits hrsv⟩

theorem writeCmd_rejected {s : State} {w : Word} {e : Reject} (hb : s.status.busy = false)
    (h : decode .cmd w = .error e) : writeCmd w s = .next (s.illegalCommand w) := by
  simp [writeCmd, hb, h]

/-! ### Bytes -/

/-- The bytes of a word, and what follows them, decode as the word does (R72, R104). -/
theorem decodeBytes_byteOf (r : CmdReg) (w : Word) (rest : List Byte) :
    decodeBytes r (byteOf w 0 :: byteOf w 1 :: byteOf w 2 :: byteOf w 3 :: rest) =
      (decode r w).map (·, rest) := by
  rw [decodeBytes, wordOfBytes_byteOf]
  cases decode r w <;> rfl

theorem decodeBytes_encodeBytes (i : Instr) (rest : List Byte) :
    decodeBytes i.reg (encodeBytes i ++ rest) = .ok (i, rest) :=
  calc decodeBytes i.reg (encodeBytes i ++ rest)
    _ = (decode i.reg (encode i)).map (·, rest) := decodeBytes_byteOf i.reg (encode i) rest
    _ = .ok (i, rest) := congrArg (Except.map (·, rest)) (decode_encode i)

theorem decodeBytes_truncated (r : CmdReg) :
    ∀ bs : List Byte, bs.length < 4 → decodeBytes r bs = .error .truncated
  | [], _ | [_], _ | [_, _], _ | [_, _, _], _ => rfl
  | _ :: _ :: _ :: _ :: bs, h => by simp only [List.length_cons] at h; omega

/-! ### The statements -/

/-- Settles O1: OP is the whole word when RSV is 0, and each OP of R101 is one command's own. -/
theorem decodeCommandWordIff : Obligations.DecodeCommandWordIff := fun w =>
  ⟨decode_cmd_ok_iff w, decode_cmd_reservedBits, decode_cmd_reservedOpcode⟩

/-- Settles O2: the four bytes of a word make up the word again. -/
theorem decodeBytesAgree : Obligations.DecodeBytesAgree := by
  refine ⟨fun r w rest => ?_, decodeBytes_encodeBytes, decodeBytes_truncated⟩
  rw [decodeBytes_byteOf]
  cases decode r w <;> rfl

/-- Settles O3: the words of the commands, one word to CTRL with bit 0 set, and one with RSV not 0. -/
theorem tableWordsDecode : Obligations.TableWordsDecode :=
  ⟨decode_encode .nop, decode_encode .run, decode_encode .filter, decode_encode .spectrum,
    decode_encode .peaks, decode_encode .hash, (decode_ctrl_ok_iff _ _).mpr ⟨rfl, rfl⟩,
    decode_cmd_reservedBits (by decide)⟩

/-- Settles O21: CMD's write rule rejects the word, and the error completion is R120's. -/
theorem illegalWordRefused : Obligations.IllegalWordRefused := by
  intro s w hb hw
  obtain ⟨e, he⟩ := decode_cmd_illegal hw
  calc memWrite 0x00C w s = writeCmd w s := memWrite_csr .cmd w s
    _ = .next (s.illegalCommand w) := writeCmd_rejected hb he

end Sys2Proof.Machine
end

section
/-! The issue of a command (40_commands.md R120 to R122, R130) and the soft reset (R131): what each leaves. -/

namespace Sys2Proof.Machine

/-! ### The issue -/

theorem execNop_idle {s : State} (hb : s.status.busy = false) : exec .nop s = .next (s.nopDone 0x00) := by
  simp [exec, execNop, hb, Instr.opcode]

theorem writeCmd_busy {s : State} (hb : s.status.busy = true) (w : Word) :
    writeCmd w s = .next (s.accError cmdOffset) := by
  simp [writeCmd, hb]

theorem writeCmd_decoded {s : State} {w : Word} {i : Instr} (hb : s.status.busy = false)
    (h : decode .cmd w = .ok i) : writeCmd w s = exec i s := by
  simp [writeCmd, hb, h]

/-- Settles O19: R122's update of the idle state, field by field; DONE then raises irq. -/
theorem nopCompletes : Obligations.NopCompletes := by
  intro s hb
  refine ⟨s.nopDone 0x00, execNop_idle hb, by rw [State.nopDone_status, hb], rfl, rfl, rfl, rfl, rfl, rfl,
    rfl, rfl, rfl, fun hie => ?_⟩
  simp [State.irq, hie]

/-- Settles O20: each stage command is `runCommand` with its opcode and first stage, which accepts when
idle. -/
theorem stageCommandAccepted : Obligations.StageCommandAccepted := by
  intro s hb p hp
  fin_cases hp
  · exact runCommand_idle _ _ runStages s hb
  · exact runCommand_idle _ _ [(.filter, filterStage)] s hb
  · exact runCommand_idle _ _ [(.spectrum, spectrumStage)] s hb
  · exact runCommand_idle _ _ [(.peaks, peaksStage)] s hb
  · exact runCommand_idle _ _ [(.hash, hashStage)] s hb

/-- Settles O22: CMD's write rule drops the word before it is decoded. -/
theorem busyCommandDropped : Obligations.BusyCommandDropped := by
  intro s w hb
  calc memWrite 0x00C w s = writeCmd w s := memWrite_csr .cmd w s
    _ = .next (s.accError cmdOffset) := writeCmd_busy hb w

/-! ### The soft reset -/

/-- R131's four pairs are the model's output RAMs, by their regions of R71. -/
theorem State.aborts_iff (s : State) (a : Nat) : s.Aborts a ↔
    s.status.busy = true ∧ ∃ r, outputRam s.status.stage = some r ∧ r.base ≤ a ∧ a < r.base + r.size := by
  refine and_congr_right fun _ => ?_
  cases s.status.stage <;> simp [outputRegions, outputRam, Ram.base, Ram.size] <;> omega

theorem memByte_softResetMemory (s : State) (a : Nat) :
    memByte (softResetMemory s) a = if s.Aborts a then none else memByte s.mem a := by
  rw [softResetMemory]
  simp only [s.aborts_iff a]
  cases s.status.busy with
  | false => simp
  | true =>
    cases outputRam s.status.stage with
    | none => simp
    | some r => simp [memByte_memErase]

/-- A soft reset leaves every register of the map as hardware reset does (R131, R265). -/
theorem csrValue_softReset (s : State) (r : Csr) : csrValue s.softReset r = csrValue (State.resetOf s.caps) r := by
  cases r <;> rfl

/-- Settles O23: the registers are those of the hardware reset, and R131 erases one region of the RAMs. -/
theorem softResetLeaves : Obligations.SoftResetLeaves := by
  refine fun s => ⟨s.softReset, rfl, csrValue_softReset s, rfl, rfl, rfl, rfl, fun a ha => ?_, fun a ha => ?_⟩
  · rw [State.softReset_mem, memByte_softResetMemory, if_pos ha]
  · rw [State.softReset_mem, memByte_softResetMemory, if_neg ha]

end Sys2Proof.Machine
end

section
/-! The sequencer's step (40_commands.md R123, R127, R238) as one equation: the stage STATUS.STAGE runs, and
what it answers decides between the next stage, completion, the error completion and a stop. -/

namespace Sys2Proof.Machine

/-! ### The core step of a stage -/

/-- The stage that follows `st` in the list of the command `op` (R123). -/
def nextStage (op : BitVec 8) (st : Stage) : Option Stage :=
  ((stagesOf op).dropWhile (· ≠ st)).tail.head?

/-- The sequencer enters the next stage, or the command completes (R123, R127). -/
def State.moveOn (s : State) : Option Stage → State
  | none => s.complete
  | some st => s.enterStage st

/-- What the core step makes of a stage's answer. -/
def StageResult.outcome (next : Option Stage) : StageResult → Host.Outcome State Fault Refusal
  | .done t => .next (t.moveOn next)
  | .error code info t => .next (t.errorCompletion code info)
  | .fault r => .fault r

theorem coreStep_map_stageRule {l : List Stage} {s : State} (h : s.status.stage ∈ l) :
    coreStep (l.map fun st => (st, stageRule st)) s =
      (stageRule s.status.stage s).outcome (l.dropWhile (· ≠ s.status.stage)).tail.head? := by
  induction l with
  | nil => cases h
  | cons st l ih =>
    by_cases hst : s.status.stage = st
    · simp only [List.map_cons, coreStep, hst, if_true]
      cases stageRule st s with
      | done t => cases l <;> simp [StageResult.outcome, afterStage, State.moveOn]
      | error code info t => rfl
      | fault r => rfl
    · have hl : s.status.stage ∈ l := (List.mem_cons.mp h).resolve_left hst
      simpa [coreStep, hst, Ne.symm hst] using ih hl

/-- While a command executes, its meaning is what the stage STATUS.STAGE answers. -/
theorem exec_stage {i : Instr} {st : Stage} {s : State}
    (hi : i ∈ [Instr.run, .filter, .spectrum, .peaks, .hash]) (hst : st ∈ stagesOf i.opcode)
    (hs : s.Executing i st) :
    exec i s = (stageRule st s.newEpoch).outcome (nextStage i.opcode st) := by
  obtain ⟨hb, hop, rfl⟩ := hs
  rw [exec_executing hi s hb hop]
  exact coreStep_map_stageRule (s := s.newEpoch) hst

/-- A move of the core in a consistent state is what the stage STATUS.STAGE answers. -/
theorem coreMove_stage {s : State} (hb : s.status.busy = true)
    (hst : s.status.stage ∈ stagesOf s.status.lastOp) :
    coreMove s = (stageRule s.status.stage s.newEpoch).outcome (nextStage s.status.lastOp s.status.stage) :=
  (coreMove_executing s hb hst).trans (coreStep_map_stageRule (s := s.newEpoch) hst)

/-! ### A stage does not read STATUS -/

def State.withStatus (s : State) (st : Status) : State := { s with status := st }

/-- A stage's answer with another STATUS in the state it leaves. -/
def StageResult.withStatus (st : Status) : StageResult → StageResult
  | .done t => .done (t.withStatus st)
  | .error code info t => .error code info (t.withStatus st)
  | .fault r => .fault r

/-- No stage reads or writes STATUS: the sequencer does (R123). -/
theorem stageRule_withStatus (st : Stage) (s : State) (x : Status) :
    stageRule st (s.withStatus x) = (stageRule st s).withStatus x := by
  cases st with
  | idle => rfl
  | filter =>
    have hc : filterChecks (s.withStatus x) = filterChecks s := rfl
    have hx : filterSamples (s.withStatus x) = filterSamples s := rfl
    have hk : filterKernel (s.withStatus x) = filterKernel s := rfl
    simp only [stageRule, filterStage, hc, hx, hk]
    cases filterChecks s <;> cases filterSamples s <;> cases filterKernel s <;> rfl
  | spectrum =>
    have hc : spectrumChecks (s.withStatus x) = spectrumChecks s := rfl
    have hw : spectrumWindow (s.withStatus x) = spectrumWindow s := rfl
    have hf : collectFrom (frameAt (s.withStatus x)) 0 (spectrumFrames (s.withStatus x)) =
        collectFrom (frameAt s) 0 (spectrumFrames s) := rfl
    simp only [stageRule, spectrumStage, hc, hw, hf]
    cases spectrumChecks s <;> cases spectrumWindow s <;>
      cases collectFrom (frameAt s) 0 (spectrumFrames s) <;> rfl
  | peaks =>
    have hc : peaksChecks (s.withStatus x) = peaksChecks s := rfl
    have he : collectFrom (specAt (s.withStatus x).mem) 0 (peakEntries (s.withStatus x)) =
        collectFrom (specAt s.mem) 0 (peakEntries s) := rfl
    simp only [stageRule, peaksStage, hc, he]
    cases peaksChecks s <;> cases collectFrom (specAt s.mem) 0 (peakEntries s) <;> rfl
  | hash =>
    have hc : hashChecks (s.withStatus x) = hashChecks s := rfl
    have hp : collectFrom (peakKeyAt (s.withStatus x).mem) 0 (s.withStatus x).len.numPeaks.toNat =
        collectFrom (peakKeyAt s.mem) 0 s.len.numPeaks.toNat := rfl
    have hh (ps : List PeakKey) :
        hashScan (s.withStatus x).cfg.targetZone.toNat (s.withStatus x).caps.hashes.toNat ps =
          hashScan s.cfg.targetZone.toNat s.caps.hashes.toNat ps := rfl
    simp only [stageRule, hashStage, hc, hp, hh]
    cases hashChecks s with
    | some e => rfl
    | none =>
      cases collectFrom (peakKeyAt s.mem) 0 s.len.numPeaks.toNat with
      | none => rfl
      | some ps =>
        dsimp only
        rcases hashScan s.cfg.targetZone.toNat s.caps.hashes.toNat ps with ⟨_ | _, _⟩ <;> rfl

/-! ### A stage inside RUN and alone -/

/-- Two core steps that leave the same RAMs, lengths and error record, or the same fault. -/
inductive SameStageOutcome : Host.Outcome State Fault Refusal → Host.Outcome State Fault Refusal → Prop
  | next {t u : State} (hmem : u.mem = t.mem) (hlen : u.len = t.len) (hinfo : u.errInfo = t.errInfo)
      (herr : u.status.err = t.status.err) (hcode : u.status.errCode = t.status.errCode) :
      SameStageOutcome (.next t) (.next u)
  | fault (r : Fault) : SameStageOutcome (.fault r) (.fault r)

/-- The STATUS in which a stage runs, up to ERR and ERRCODE, and the stage that follows it decide nothing
about RAMs, lengths and errors. -/
theorem StageResult.sameStageOutcome {r : StageResult} {st x : Status} (hr : r.withStatus st = r)
    (herr : x.err = st.err) (hcode : x.errCode = st.errCode) (a b : Option Stage) :
    SameStageOutcome (r.outcome a) ((r.withStatus x).outcome b) := by
  cases r with
  | done t =>
    have ht : t.withStatus st = t := StageResult.done.inj hr
    rw [← ht]
    cases a <;> cases b <;> exact .next rfl rfl rfl herr hcode
  | error code info t => exact .next rfl rfl rfl rfl rfl
  | fault r => exact .fault r

theorem stageRule_withStatus_self (st : Stage) (s : State) :
    (stageRule st s).withStatus s.status = stageRule st s := (stageRule_withStatus st s s.status).symm

/-- Settles O24: a stage does not see which command runs it. -/
theorem runStageEqualsSingle : Obligations.RunStageEqualsSingle := by
  intro s t p hp hs r
  have hsame : SameStageOutcome (exec p.1 s) (exec .run r) := by
    obtain ⟨hi, hst, hrun⟩ : p.1 ∈ [Instr.run, .filter, .spectrum, .peaks, .hash] ∧
        p.2 ∈ stagesOf p.1.opcode ∧ p.2 ∈ stagesOf (Instr.opcode .run) := by fin_cases hp <;> decide
    have hr : r.Executing .run p.2 := ⟨hs.1, rfl, hs.2.2⟩
    have hrule : stageRule p.2 r.newEpoch = (stageRule p.2 s.newEpoch).withStatus r.status :=
      stageRule_withStatus p.2 s.newEpoch r.status
    rw [exec_stage hi hst hs, exec_stage (by simp) hrun hr, hrule]
    exact StageResult.sameStageOutcome (x := r.status) (stageRule_withStatus_self p.2 s.newEpoch) rfl rfl _ _
  generalize exec p.1 s = o at hsame
  generalize exec .run r = o' at hsame
  cases hsame with
  | next hmem hlen hinfo herr hcode =>
    refine ⟨fun h => ?_, by simp⟩
    cases h
    exact ⟨_, rfl, hmem, hlen, hinfo, herr, hcode⟩
  | fault f => simp

end Sys2Proof.Machine
end

section
/-! The ends of commands (40_commands.md R123, R126, R127, R132): RUN's four core steps, and the bound of
four steps for every command. -/

namespace Sys2Proof.Machine

/-! ### RUN -/

theorem State.advance_nil {s : State} (hsched : s.sched = []) (hrsp : s.rsp = none) : s.advance [] = s := by
  rw [State.advance, ← hsched, ← hrsp]

/-- `t` is reached inside the RUN that began in `s`: its stage is `st`, and only the RAMs, the lengths and
the epoch differ otherwise. -/
def State.RunAt (s : State) (st : Stage) (t : State) : Prop :=
  t = { s with status := { s.status with stage := st }, mem := t.mem, len := t.len, epoch := t.epoch }

theorem State.runAt_self {s : State} {st : Stage} (hst : s.status.stage = st) : s.RunAt st s := by
  subst hst
  rfl

section
variable {s t u : State} {st : Stage} (ht : s.RunAt st t) (hu : stageRule st t.newEpoch = .done u)
include ht hu

theorem State.RunAt.done : s.RunAt st u := by
  have hkeep := stageRule_keeps st t.newEpoch u (by rw [hu]; rfl)
  rw [RunAt, hkeep, ht]
  rfl

theorem State.RunAt.enterStage (st' : Stage) : s.RunAt st' (u.enterStage st') := by
  rw [RunAt, ht.done hu]
  rfl

/-- A stage of RUN that raises no error takes one step, from which the sequencer moves on (R123). -/
theorem State.RunAt.step (hs : s.status.busy = true ∧ s.status.lastOp = Instr.opcode .run)
    (hidle : s.sched = [] ∧ s.rsp = none) (hst : st ∈ stagesOf (Instr.opcode .run)) :
    step t = .next (u.moveOn (nextStage (Instr.opcode .run) st)) := by
  obtain ⟨hstatus, hsched, hrsp⟩ : t.status = { s.status with stage := st } ∧ t.sched = [] ∧ t.rsp = none := by
    rw [ht]
    exact ⟨rfl, hidle⟩
  have hstage : t.status.stage = st := by rw [hstatus]
  have hop : t.status.lastOp = Instr.opcode .run := by rw [hstatus]; exact hs.2
  rw [step_core_nil t hsched, advance_nil hsched hrsp,
    coreMove_stage (by rw [hstatus]; exact hs.1) (by rwa [hstage, hop]), hstage, hop, hu]
  rfl

end

/-- Settles O25: each stage is one step that enters the next stage, and after HASH the command completes. -/
theorem runCompletesInFourSteps : Obligations.RunCompletesInFourSteps := by
  intro s a b c d ⟨hb, hop, hst⟩ hsched hrsp ha hb' hc hd
  have hrun := And.intro hb hop
  have hidle := And.intro hsched hrsp
  have at₀ : s.RunAt .filter s := State.runAt_self hst
  have at₁ : s.RunAt .spectrum (a.enterStage .spectrum) := at₀.enterStage ha .spectrum
  have at₂ : s.RunAt .peaks (b.enterStage .peaks) := at₁.enterStage hb' .peaks
  have at₃ : s.RunAt .hash (c.enterStage .hash) := at₂.enterStage hc .hash
  have hrest : s.RunAt .hash d := at₃.done hd
  have hsteps : Host.Core.run Sys2Proof.core 4 s = .next d.complete :=
    calc Host.Core.run Sys2Proof.core 4 s
      _ = Host.Core.run Sys2Proof.core 3 (a.enterStage .spectrum) :=
        run_succ (at₀.step ha hrun hidle (by decide)) 3
      _ = Host.Core.run Sys2Proof.core 2 (b.enterStage .peaks) :=
        run_succ (at₁.step hb' hrun hidle (by decide)) 2
      _ = Host.Core.run Sys2Proof.core 1 (c.enterStage .hash) :=
        run_succ (at₂.step hc hrun hidle (by decide)) 1
      _ = Host.Core.run Sys2Proof.core 0 d.complete := run_succ (at₃.step hd hrun hidle (by decide)) 0
      _ = .next d.complete := rfl
  refine ⟨d.complete, hsteps, ?_, rfl, rfl, ?_, ?_, ?_⟩ <;> rw [hrest] <;> rfl

/-! ### Every command -/

/-- Every stage list runs in the order of the stage numbers (R33, R123). -/
theorem nextStage_code_lt {op : BitVec 8} {st st' : Stage} (h : nextStage op st = some st') :
    st.code.toNat < st'.code.toNat := by
  unfold nextStage stagesOf at h
  split_ifs at h <;> cases st <;> cases h <;> decide

theorem Stage.code_pos {st : Stage} (h : st ≠ .idle) : 1 ≤ st.code.toNat := by
  cases st with
  | idle => exact absurd rfl h
  | _ => decide

theorem Stage.code_le (st : Stage) : st.code.toNat ≤ 4 := by cases st <;> decide

/-- A move of the core that answers while a command executes ends the command or enters a later stage. -/
theorem coreMove_progress {s t : State} (hs : s.SequencerOk) (hb : s.status.busy = true)
    (h : coreMove s = .next t) :
    (t.status.busy = false ∧ t.status.done = true) ∨
      (t.status.busy = true ∧ s.status.stage.code.toNat < t.status.stage.code.toNat) := by
  obtain ⟨-, -, -, hst⟩ := hs hb
  rw [coreMove_stage hb hst] at h
  cases hr : stageRule s.status.stage s.newEpoch with
  | done u =>
    have hu : u.status = s.status := stageRule_status (s := s.newEpoch) (by rw [hr]; rfl)
    rw [hr] at h
    cases hn : nextStage s.status.lastOp s.status.stage with
    | none => rw [hn] at h; cases h; exact .inl ⟨rfl, rfl⟩
    | some st =>
      rw [hn] at h
      cases h
      exact .inr ⟨by simp [State.moveOn, hu, hb], nextStage_code_lt hn⟩
  | error code info u => rw [hr] at h; cases h; exact .inl ⟨rfl, rfl⟩
  | fault r => rw [hr] at h; cases h

/-- After `k` steps the command has completed, or a never-written word stopped the machine. -/
def State.EndsAfter (s : State) (k : Nat) : Prop :=
  (∃ t, Host.Core.run Sys2Proof.core k s = .next t ∧ t.status.busy = false ∧ t.status.done = true) ∨
    Host.Core.run Sys2Proof.core k s = .fault .unwrittenWord

theorem State.EndsAfter.succ {s t : State} {k : Nat} (hstep : step s = .next t) (h : t.EndsAfter k) :
    s.EndsAfter (k + 1) := by
  rw [EndsAfter, run_succ hstep]
  exact h

theorem coreRun_fault (M : Host.Core) {s : M.State} {r : M.Fault} (h : M.step s = .fault r) (k : Nat) :
    M.run (k + 1) s = .fault r := by rw [Host.Core.run, h]

/-- The stages from STATUS.STAGE to the last one bound the steps: each step ends the command or enters a
later stage. -/
theorem endsAfter_of_sequencerOk (n : Nat) {s : State} (hs : s.SequencerOk) (hb : s.status.busy = true)
    (hsched : s.sched = []) (hn : 5 ≤ n + s.status.stage.code.toNat) :
    ∃ k, 1 ≤ k ∧ k ≤ n ∧ s.EndsAfter k := by
  induction n generalizing s with
  | zero => have := s.status.stage.code_le; omega
  | succ n ih =>
    have hstep : step s = coreMove (s.advance []) := step_core_nil s hsched
    rcases coreMove_answers (s.advance []) hs with ⟨t, ht, hok⟩ | ⟨hf, -⟩
    · rcases coreMove_progress (s := s.advance []) hs hb ht with hend | ⟨hb', hlt⟩
      · exact ⟨1, by omega, by omega, .succ (k := 0) (hstep.trans ht) (.inl ⟨t, rfl, hend⟩)⟩
      · obtain ⟨-, -, -, -, -, -, hsched', -, -⟩ := coreLeavesHostState (s.advance []) t ht
        have hlt' : s.status.stage.code.toNat < t.status.stage.code.toNat := hlt
        obtain ⟨k, hk, hkn, h⟩ := ih hok hb' hsched' (by omega)
        exact ⟨k + 1, by omega, by omega, .succ (hstep.trans ht) h⟩
    · exact ⟨1, by omega, by omega, .inr (coreRun_fault Sys2Proof.core (hstep.trans hf) 0)⟩

/-- Settles O26: from the first stage on, four stages are the most a command has. -/
theorem commandsEnd : Obligations.CommandsEnd := by
  intro s hs hb hsched
  obtain ⟨-, -, -, hst⟩ := hs hb
  have hpos : 1 ≤ s.status.stage.code.toNat := Stage.code_pos fun e => idle_notMem_stagesOf _ (e ▸ hst)
  exact endsAfter_of_sequencerOk 4 hs hb hsched (by omega)

end Sys2Proof.Machine
end

section
/-! What a step does around the meanings of the instructions (20_memory.md R84, R85, R89; 30_encoding.md
R109; 40_commands.md R120, R123). -/

namespace Sys2Proof.Machine

/-! ### The core's turn -/

/-- With no move of the host next, the core moves (R89, R126). -/
theorem step_coreMove {s : State} (h : s.sched.head? = some .core ∨ s.sched = []) :
    step s = coreMove (s.advance s.sched.tail) := by
  rcases h with h | h
  · obtain ⟨rest, hs⟩ := List.head?_eq_some_iff.mp h
    rw [step_core s rest hs, hs, List.tail_cons]
  · rw [step_core_nil s h, h, List.tail_nil]

theorem coreMove_decoded {s : State} {i : Instr} (hb : s.status.busy = true)
    (h : decode .cmd (s.status.lastOp.setWidth 32) = .ok i) (hi : i ≠ .nop) : coreMove s = exec i s := by
  rw [coreMove, if_pos hb, h]
  cases i with
  | nop => exact absurd rfl hi
  | _ => rfl

/-! ### The host's turn -/

theorem memRead_sched (a : Offset) (s : State) : (memRead a s).2.sched = s.sched := by
  rcases memRead_cases a s with h | ⟨h, -⟩ <;> rw [h]
  rfl

/-- WAIT reads once, and keeps its place behind a move of the core while its condition fails (R109). -/
theorem hostMove_wait (a : Offset) (mask v : Word) (s : State) :
    hostMove (.wait a mask v) s = .next { (memRead a s).2 with
      rsp := some (memRead a s).1
      sched := if (memRead a s).1 &&& mask = v then s.sched else .core :: .host (.wait a mask v) :: s.sched } := by
  rw [hostMove]
  split_ifs
  · rw [← memRead_sched a s]
    rfl
  · rfl

theorem step_write {s : State} {a : Offset} {v : Word} {rest : List Move}
    (h : s.sched = .host (.write a v) :: rest) : step s = memWrite a v (s.advance rest) := by
  rw [step_host s _ rest h, hostMove]

/-- The host's write of a word to CMD runs its instruction when the machine is idle (R120). -/
theorem step_cmd {s : State} {w : Word} {rest : List Move} {i : Instr}
    (h : s.sched = .host (.write 0x00C w) :: rest) (hb : s.status.busy = false)
    (hd : decode .cmd w = .ok i) : step s = exec i (s.advance rest) :=
  calc step s
    _ = memWrite Csr.cmd.offset w (s.advance rest) := step_write h
    _ = writeCmd w (s.advance rest) := memWrite_csr .cmd w _
    _ = exec i (s.advance rest) := writeCmd_decoded hb hd

/-- The host's write of a word to CTRL runs its instruction (R106). -/
theorem step_ctrl {s : State} {w : Word} {rest : List Move} {i : Instr}
    (h : s.sched = .host (.write 0x004 w) :: rest) (hd : decode .ctrl w = .ok i) :
    step s = exec i (s.advance rest) :=
  calc step s
    _ = memWrite Csr.ctrl.offset w (s.advance rest) := step_write h
    _ = writeCtrl w (s.advance rest) := memWrite_csr .ctrl w _
    _ = exec i (s.advance rest) := by rw [writeCtrl, hd]

/-! ### A table row's word -/

/-- A row of the table decodes as its word written to its register does (log 5). -/
theorem decode_of_decodeTableWord {nbits w : Nat} {i : Instr} (h : decodeTableWord nbits w = some i) :
    decode (tableReg nbits) (tableWord nbits w) = .ok i := by
  simp only [decodeTableWord, decodeBytes_byteOf] at h
  cases hd : decode (tableReg nbits) (tableWord nbits w) with
  | ok j => rw [hd] at h; cases h; rfl
  | error e => rw [hd] at h; cases h

/-- In an idle machine the word that is offered runs its instruction in the state as it was. -/
theorem step_offer {s : State} {reg : CmdReg} {w : Word} {i : Instr} (hb : s.status.busy = false)
    (hd : decode reg w = .ok i) : step (s.offer reg w) = exec i (s.advance s.sched) := by
  have hstatus : (s.offer reg w).status = s.status := by cases reg <;> simp only [State.offer, ← hb]
  have hadv : (s.offer reg w).advance s.sched = s.advance s.sched := by
    rw [State.advance, hstatus]; rfl
  rw [← hadv]
  cases reg with
  | cmd => exact step_cmd rfl (hstatus ▸ hb) hd
  | ctrl => exact step_ctrl rfl hd

/-- Settles O18: the clauses are the turn of the core, the host's access, and a table row's word offered by
the host. -/
theorem stepRunsInstruction : Obligations.StepRunsInstruction := by
  refine ⟨fun s w rest i h hb hd => step_cmd h hb hd, fun s w rest i h hd => step_ctrl h hd,
    fun s i h hb hd hi => ?_, fun s a rest h => step_host s _ rest h, fun s a v rest h => step_write h,
    fun s a mask v rest h => ?_, fun s h hb => ?_, fun s nbits w i h hb => ?_⟩
  · exact (step_coreMove h).trans (coreMove_decoded (s := s.advance s.sched.tail) hb hd hi)
  · exact (step_host s _ rest h).trans (hostMove_wait a mask v (s.advance rest))
  · exact (step_coreMove h).trans (coreMove_idle (s.advance s.sched.tail) hb)
  · exact step_offer hb (decode_of_decodeTableWord h)

end Sys2Proof.Machine
end

section
/-! Exact results and the sign of zeros in binary64 (R10): a result that fits is no other number, and -0.0
comes from no sum with another first addend. -/

namespace Sys2Proof.Machine

/-! ### Sign and units determine a finite value -/

/-- The value of the magnitude bits grows with them. -/
theorem bitsUnits_strictMono : StrictMono bitsUnits := by
  refine strictMono_nat_of_lt_succ fun b => ?_
  obtain ⟨p, s, rfl, hs, hp⟩ : ∃ p s, b = p * 2 ^ 52 + s ∧ s < 2 ^ 53 ∧ (p = 0 ∨ 2 ^ 52 ≤ s) := by
    by_cases hb : b < 2 ^ 52
    · exact ⟨0, b, by omega, by omega, .inl rfl⟩
    · exact ⟨b / 2 ^ 52 - 1, 2 ^ 52 + b % 2 ^ 52, by omega, by omega, .inr (by omega)⟩
  rw [add_assoc, bitsUnits_binade hs.le hp, bitsUnits_binade hs (hp.imp_right fun h => by omega)]
  exact Nat.mul_lt_mul_of_pos_right (Nat.lt_succ_self s) (by positivity)

theorem eq_of_sign_finiteUnits {x y : F64} {u : Int} (hs : x.getLsbD 63 = y.getLsbD 63)
    (hx : finiteUnits x = some u) (hy : finiteUnits y = some u) : x = y := by
  refine eq_of_sign_magBits hs (bitsUnits_strictMono.injective ?_)
  have hu := (finiteUnits_eq_some_iff.mp hx).2.symm.trans (finiteUnits_eq_some_iff.mp hy).2
  simpa using congrArg Int.natAbs hu

/-- The sign of a finite value that is not -0.0 is that of its units. -/
theorem sign_eq_decide_finiteUnits {x : F64} {u : Int} (hx : finiteUnits x = some u)
    (hz : x ≠ zeroOf true) : x.getLsbD 63 = decide (u < 0) := by
  obtain ⟨-, hu⟩ := finiteUnits_eq_some_iff.mp hx
  by_cases h0 : bitsUnits (magBits x) = 0
  · obtain rfl : u = 0 := hu.trans (signedMant_eq_zero_iff.mpr h0)
    have hzero := eq_zeroOf_of_finiteUnits hx
    by_contra hs
    rw [show x.getLsbD 63 = true by simpa using hs] at hzero
    exact hz hzero
  · rw [hu, decide_signedMant_neg h0]

/-- But for the sign of zero, binary64 has one pattern for each number. -/
theorem eq_of_finiteUnits {x y : F64} {u : Int} (hx : finiteUnits x = some u)
    (hy : finiteUnits y = some u) (hxz : x ≠ zeroOf true) (hyz : y ≠ zeroOf true) : x = y :=
  eq_of_sign_finiteUnits
    (by rw [sign_eq_decide_finiteUnits hx hxz, sign_eq_decide_finiteUnits hy hyz]) hx hy

/-! ### Exact results -/

theorem natAbs_mul_two_pow (n : Int) (k : Nat) : (n * 2 ^ k).natAbs = n.natAbs * 2 ^ k := by
  simp [Int.natAbs_mul, Int.natAbs_pow]

/-- A number with a significand of 53 bits that fits the exponent range is rounded to itself. -/
theorem IsRounding.finiteUnits_eq {n v : Int} {k p : Nat} {r : F64} (h : IsRounding n k r)
    (hn : n * 2 ^ 1074 = v * 2 ^ p * 2 ^ k) (hv : v.natAbs < 2 ^ 53) (hp : p ≤ 2045) :
    finiteUnits r = some (v * 2 ^ p) := by
  obtain ⟨neg, m, rfl, rfl⟩ := h
  have habs : m * 2 ^ 1074 = v.natAbs * 2 ^ p * 2 ^ k := by
    rw [← natAbs_signedMant neg m, ← natAbs_mul_two_pow, hn, natAbs_mul_two_pow, natAbs_mul_two_pow]
  have hm : m * 2 ^ (1074 - k) = v.natAbs * 2 ^ (p + (k - 1074)) := by
    refine Nat.eq_of_mul_eq_mul_right (show 0 < 2 ^ min k 1074 by positivity) ?_
    rw [mul_assoc, mul_assoc, ← pow_add, ← pow_add, show 1074 - k + min k 1074 = 1074 by omega,
      show p + (k - 1074) + min k 1074 = p + k by omega, habs, mul_assoc, pow_add]
  rw [finiteUnits_roundDyadic_exact neg hm hv hp]
  refine congrArg some (mul_right_cancel₀ (show (2 : Int) ^ k ≠ 0 by positivity) ?_)
  rw [signedMant_mul_pow, ← habs, ← signedMant_mul_pow, hn]

/-- A finite value has a significand of 53 bits. -/
theorem exists_significand {x : F64} {u : Int} (h : finiteUnits x = some u) :
    ∃ v p, u = v * 2 ^ p ∧ v.natAbs < 2 ^ 53 ∧ p ≤ 2045 := by
  obtain ⟨m, e, hx, rfl⟩ := exists_fin_of_finiteUnits h
  obtain ⟨-, -, hm, he⟩ := unpack_fin_parts hx
  exact ⟨signedMant (x.getLsbD 63) m, e, (signedMant_mul_pow _ _ _).symm, by simpa using hm, he⟩

/-- A result that is a finite binary64 value is exact. -/
theorem IsRounding.exact {n u : Int} {k : Nat} {r c : F64} (h : IsRounding n k r)
    (hc : finiteUnits c = some u) (hn : n * 2 ^ 1074 = u * 2 ^ k) : finiteUnits r = some u := by
  obtain ⟨v, p, rfl, hv, hp⟩ := exists_significand hc
  exact h.finiteUnits_eq hn hv hp

theorem finiteUnits_zero : finiteUnits 0 = some 0 := rfl

/-- The units of a positive pattern whose mantissa ends in `c` zeros. -/
theorem finiteUnits_of_mantissa {x : F64} {t c e k : Nat} (hx : unpack x = .fin false (t * 2 ^ c) e)
    (hk : c + e = k) : finiteUnits x = some ((t : Int) * 2 ^ k) := by
  rw [finiteUnits_of_fin hx, ← hk, pow_add]
  simp [unitsOf, mul_assoc]

theorem finiteUnits_one : finiteUnits 0x3FF0000000000000 = some (2 ^ 1074) := by
  rw [finiteUnits_of_mantissa (t := 1) (c := 52) (e := 1022) (by decide) rfl, Nat.cast_one, one_mul]

theorem finiteUnits_twoPowNeg15 : finiteUnits 0x3F00000000000000 = some (2 ^ 1059) := by
  rw [finiteUnits_of_mantissa (t := 1) (c := 52) (e := 1007) (by decide) rfl, Nat.cast_one, one_mul]

section
variable {a b : F64} {u : Int} (ha : finiteUnits a = some u)
include ha

theorem finiteUnits_fmul_zero : finiteUnits (fmul a 0) = some 0 :=
  (isRounding_fmul ha finiteUnits_zero).exact finiteUnits_zero (by rw [mul_zero, zero_mul, zero_mul])

theorem finiteUnits_fmul_one : finiteUnits (fmul a 0x3FF0000000000000) = some u :=
  (isRounding_fmul ha finiteUnits_one).exact ha (by rw [mul_assoc, ← pow_add])

theorem finiteUnits_fadd_zero_left (hb : finiteUnits b = some 0) : finiteUnits (fadd b a) = some u :=
  (isRounding_fadd hb ha).exact ha (by rw [zero_add])

theorem finiteUnits_fadd_zero_right (hb : finiteUnits b = some 0) : finiteUnits (fadd a b) = some u :=
  (isRounding_fadd ha hb).exact ha (by rw [add_zero])

end

/-! ### The sign of zero -/

theorem canonicalNaN_ne_negZero : canonicalNaN ≠ zeroOf true := by decide

theorem infinity_ne_negZero (s : Bool) : infinity s ≠ zeroOf true := by cases s <;> decide

/-- A number of whole units that is not zero does not round to a zero. -/
theorem roundHalfEven_ne_zero {m : Nat} (hm : m ≠ 0) : roundHalfEven m (droppedBits m 0) ≠ 0 := by
  rcases Nat.eq_zero_or_pos (droppedBits m 0) with h | h
  · have hdvd := roundHalfEven_of_dvd (m := m) (d := 0) (one_dvd m)
    rw [pow_zero, mul_one] at hdvd
    rwa [h, hdvd]
  · have := le_roundHalfEven h
    omega

theorem roundDyadic_ne_zeroOf (neg s : Bool) {m : Nat} (hm : m ≠ 0) :
    roundDyadic neg m 1074 ≠ zeroOf s := by
  intro h
  have h0 : finiteUnits (roundDyadic neg m 1074) = some 0 := by rw [h]; cases s <;> rfl
  have hu := finiteUnits_roundDyadic h0
  rw [Nat.sub_self, pow_zero, mul_one] at hu
  have := mul_ne_zero (roundHalfEven_ne_zero hm) (show 2 ^ (droppedBits m 0 - 0) ≠ 0 by positivity)
  exact this (signedMant_eq_zero_iff.mp hu.symm)

/-- A sum is the NaN or an infinity, or both addends are finite. -/
theorem fadd_cases (a b : F64) : fadd a b = canonicalNaN ∨ (∃ s, fadd a b = infinity s) ∨
    ∃ u v, finiteUnits a = some u ∧ finiteUnits b = some v := by
  unfold fadd
  split
  · exact .inl rfl
  · exact .inl rfl
  · split_ifs
    · exact .inr (.inl ⟨_, rfl⟩)
    · exact .inl rfl
  · exact .inr (.inl ⟨_, rfl⟩)
  · exact .inr (.inl ⟨_, rfl⟩)
  · next hx hy => exact .inr (.inr ⟨_, _, finiteUnits_of_fin hx, finiteUnits_of_fin hy⟩)

/-- R149: a sum is -0.0 only if its first addend is. -/
theorem fadd_ne_negZero {a : F64} (b : F64) (ha : a ≠ zeroOf true) : fadd a b ≠ zeroOf true := by
  rcases fadd_cases a b with h | ⟨s, h⟩ | ⟨u, v, hu, hv⟩
  · rw [h]; exact canonicalNaN_ne_negZero
  · rw [h]; exact infinity_ne_negZero s
  · rw [fadd_finite hu hv]
    split_ifs with h0
    · intro hz
      have hsign := congrArg (fun x : F64 => x.getLsbD 63) hz
      simp only [sign_zeroOf, Bool.and_eq_true] at hsign
      obtain ⟨hsa, hsb⟩ := hsign
      have hneg : u < 0 := of_decide_eq_true ((sign_eq_decide_finiteUnits hu ha).symm.trans hsa)
      have hnonpos : v ≤ 0 := by
        rw [(finiteUnits_eq_some_iff.mp hv).2, hsb]
        simp [signedMant]
      omega
    · exact roundDyadic_ne_zeroOf _ _ (Int.natAbs_ne_zero.mpr h0)

/-- R149: a sum of any number of terms from +0.0 on is not -0.0. -/
theorem foldl_fadd_ne_negZero (ts : List F64) {acc : F64} (h : acc ≠ zeroOf true) :
    ts.foldl fadd acc ≠ zeroOf true := by
  induction ts generalizing acc with
  | nil => exact h
  | cons t ts ih => exact ih (fadd_ne_negZero t h)

/-- Zeros change no number that is added up. -/
theorem finiteUnits_foldl_fadd_zeros {ts : List F64} (hts : ∀ t ∈ ts, finiteUnits t = some 0) {acc : F64}
    {u : Int} (h : finiteUnits acc = some u) : finiteUnits (ts.foldl fadd acc) = some u := by
  induction ts generalizing acc with
  | nil => exact h
  | cons t ts ih =>
    obtain ⟨ht, hts⟩ := List.forall_mem_cons.mp hts
    exact ih hts (finiteUnits_fadd_zero_right h ht)

/-- A square has sign 0, the NaN too. -/
theorem sign_fmul_self (a : F64) : (fmul a a).getLsbD 63 = false := by
  cases hx : unpack a with
  | nan => rw [fmul_nan_left hx]; rfl
  | inf s =>
    obtain rfl := eq_infinity_of_unpack hx
    rw [fmul_infinity_infinity, sign_infinity, Bool.xor_self]
  | fin s m e =>
    have ha := finiteUnits_of_fin hx
    rw [fmul_finite ha ha, sign_roundDyadic, Bool.xor_self]

/-- A root has sign 0 unless it is that of -0.0 (log 8). -/
theorem sign_fsqrt {a : F64} (ha : a ≠ zeroOf true) : (fsqrt a).getLsbD 63 = false := by
  cases hx : unpack a with
  | nan => rw [fsqrt_nan hx]; rfl
  | inf s =>
    obtain rfl := eq_infinity_of_unpack hx
    cases s <;> rfl
  | fin s m e =>
    rcases eq_or_ne m 0 with rfl | hm
    · rw [fsqrt_of_zero hx, sign_zeroOf, (unpack_fin_parts hx).1,
        sign_eq_decide_finiteUnits (u := 0) (by simpa [unitsOf] using finiteUnits_of_fin hx) ha]
      rfl
    · cases s with
      | false => rw [fsqrt_of_pos hx hm, sign_roundDyadic]
      | true => rw [fsqrt_of_neg hx hm]; rfl

end Sys2Proof.Machine
end

section
/-! The datapath of FILTER (41_filter.md R142 to R145, R149): the normalised samples, and one output as the
sum of its in-range products. -/

namespace Sys2Proof.Machine

/-! ### Normalisation -/

theorem natAbs_sext16_le (h : BitVec 16) : (sext16 h).natAbs ≤ 2 ^ 15 := by
  have h₁ := BitVec.le_toInt h
  have h₂ := BitVec.toInt_lt (x := h)
  unfold sext16
  omega

/-- R142: the scaling by 2^-15 is exact. -/
theorem finiteUnits_normalizeSample (h : BitVec 16) :
    finiteUnits (normalizeSample h) = some (sext16 h * 2 ^ 1059) := by
  have hn := natAbs_sext16_le h
  have hx := finiteUnits_i16ToF64 (n := sext16 h) (by omega)
  refine (isRounding_fmul hx finiteUnits_twoPowNeg15).finiteUnits_eq ?_ (by omega) (by norm_num)
  rw [mul_assoc (sext16 h), ← pow_add, mul_assoc, mul_assoc, ← pow_add, ← pow_add]

theorem sign_normalizeSample (h : BitVec 16) :
    (normalizeSample h).getLsbD 63 = decide (sext16 h < 0) := by
  have hn := natAbs_sext16_le h
  have hx := finiteUnits_i16ToF64 (n := sext16 h) (by omega)
  rw [normalizeSample, fmul_finite hx finiteUnits_twoPowNeg15, sign_roundDyadic, i16ToF64, sign_roundDyadic]
  exact Bool.xor_false _

theorem normalizeSample_ne_negZero (h : BitVec 16) : normalizeSample h ≠ zeroOf true := by
  intro hz
  have hu := finiteUnits_normalizeSample h
  have hs := sign_normalizeSample h
  rw [hz] at hu hs
  have h0 : sext16 h * 2 ^ 1059 = 0 := (Option.some.inj hu).symm
  have h0' : sext16 h = 0 := (Int.mul_eq_zero.mp h0).resolve_right (by positivity)
  rw [h0'] at hs
  cases hs

theorem normalizeSample_max : normalizeSample 0x7FFF = 0x3FEFFFC000000000 := by
  have hx := finiteUnits_normalizeSample 0x7FFF
  rw [show sext16 0x7FFF = (32767 : Nat) by decide] at hx
  exact eq_of_finiteUnits hx
    (finiteUnits_of_mantissa (t := 32767) (c := 38) (e := 1021) (by decide) rfl)
    (normalizeSample_ne_negZero _) (by decide)

/-- Settles O31: the units of the normalised sample are exact, and a 16-bit sample bounds them. -/
theorem normalizeExact : Obligations.NormalizeExact := by
  intro h
  have hlo := BitVec.le_toInt h
  have hhi := BitVec.toInt_lt (x := h)
  refine ⟨_, finiteUnits_normalizeSample h, rfl, ?_, ?_, ?_⟩
  · calc -(2 ^ 1074 : Int) = -2 ^ 15 * 2 ^ 1059 := by rw [neg_mul, ← pow_add]
      _ ≤ sext16 h * 2 ^ 1059 := mul_le_mul_of_nonneg_right hlo (by positivity)
  · exact mul_le_mul_of_nonneg_right (Int.le_of_lt_add_one hhi) (by positivity)
  · exact normalizeSample_max

/-! ### One output -/

/-- Term `j` of output `i` (R144): the product, unless its index falls outside the input. -/
def firTerm (x k : List F64) (i j : Nat) : Option F64 :=
  if i + j < k.length / 2 then none
  else x[i + j - k.length / 2]?.map fun v => fmul v (k.getD j 0)

/-- R144: an output is the sum, from +0.0 on in ascending `j`, of the terms that are there. -/
theorem firOutput_eq_foldl (x k : List F64) (i : Nat) :
    firOutput x k i = ((List.range k.length).filterMap (firTerm x k i)).foldl fadd 0 := by
  rw [List.foldl_filterMap, firOutput]
  congr 1
  funext acc j
  unfold firTerm
  split_ifs with h
  · rfl
  · cases x[i + j - k.length / 2]? <;> rfl

theorem firOutput_ne_negZero (x k : List F64) (i : Nat) : firOutput x k i ≠ zeroOf true := by
  rw [firOutput_eq_foldl]
  exact foldl_fadd_ne_negZero _ (by decide)

/-- R144 in the spec's index arithmetic over the integers. -/
theorem firOutput_eq_refFir {x k : List F64} {xr kr : Nat → F64} (hx : ∀ n, (h : n < x.length) → xr n = x[n])
    (hk : ∀ j, (h : j < k.length) → kr j = k[j]) (i : Nat) :
    firOutput x k i = refFir xr kr x.length k.length i := by
  rw [firOutput_eq_foldl, List.foldl_filterMap, refFir]
  refine List.foldl_ext _ _ _ fun acc j hj => ?_
  have hkj : k.getD j 0 = kr j := by
    rw [hk j (List.mem_range.mp hj), List.getD_eq_getElem]
  dsimp only
  by_cases hlow : i + j < k.length / 2
  · rw [firTerm, if_pos hlow, if_neg (by omega)]
  · rw [firTerm, if_neg hlow, hkj]
    by_cases hhigh : i + j - k.length / 2 < x.length
    · rw [if_pos (by omega), List.getElem?_eq_getElem hhigh,
        show ((i : Int) + j - (k.length / 2 : Nat)).toNat = i + j - k.length / 2 by omega, hx _ hhigh]
      rfl
    · rw [if_neg (by omega), List.getElem?_eq_none (not_lt.mp hhigh)]
      rfl

theorem getElem_decimated {x k : List F64} {d l m : Nat} (hm : m < (decimated x k d l).length) :
    (decimated x k d l)[m] = firOutput x k (m * d) := by simp [decimated]

/-- Settles O33: a sum from +0.0 on is not -0.0, and a magnitude is the root of a sum of squares. -/
theorem noNegativeZero : Obligations.NoNegativeZero := by
  refine ⟨firOutput_ne_negZero, fun z => sign_fsqrt (fadd_ne_negZero _ fun hz => ?_)⟩
  have hs := sign_fmul_self z.1
  rw [hz] at hs
  cases hs

/-! ### The kernel [0.0, 1.0, 0.0] -/

section
variable {x : List F64} (hx : ∀ v ∈ x, ∃ u, finiteUnits v = some u)
include hx

/-- On finite samples the terms of taps +0.0 are zeros. -/
theorem finiteUnits_firTerm_zero {k : List F64} {js : List Nat} (hk : ∀ j ∈ js, k.getD j 0 = 0) (i : Nat) :
    ∀ t ∈ js.filterMap (firTerm x k i), finiteUnits t = some 0 := by
  intro t ht
  obtain ⟨j, hj, hterm⟩ := List.mem_filterMap.mp ht
  unfold firTerm at hterm
  split_ifs at hterm
  obtain ⟨v, hv, rfl⟩ := Option.map_eq_some_iff.mp hterm
  obtain ⟨u, hu⟩ := hx v (List.mem_of_getElem? hv)
  rw [hk j hj]
  exact finiteUnits_fmul_zero hu

/-- On finite samples the kernel [0.0, 1.0, 0.0] changes no number. -/
theorem finiteUnits_firOutput_identity {i : Nat} {u : Int} (hi : i < x.length)
    (hu : finiteUnits x[i] = some u) :
    finiteUnits (firOutput x [0, 0x3FF0000000000000, 0] i) = some u := by
  have hmid : firTerm x [0, 0x3FF0000000000000, 0] i 1 = some (fmul x[i] 0x3FF0000000000000) := by
    simp [firTerm, hi]
  rw [firOutput_eq_foldl,
    show List.range ([0, 0x3FF0000000000000, 0] : List F64).length = [0] ++ 1 :: [2] from rfl,
    List.filterMap_append, List.filterMap_cons_some hmid, List.foldl_append, List.foldl_cons]
  have hfirst := finiteUnits_foldl_fadd_zeros
    (finiteUnits_firTerm_zero hx (k := [0, 0x3FF0000000000000, 0]) (js := [0]) (by simp) i) finiteUnits_zero
  exact finiteUnits_foldl_fadd_zeros (finiteUnits_firTerm_zero hx (by simp) i)
    (finiteUnits_fadd_zero_left (finiteUnits_fmul_one hu) hfirst)

end

/-- Settles O32: the outputs and the samples are the same numbers, and none of them is -0.0. -/
theorem identityKernel : Obligations.IdentityKernel := by
  intro samples
  have hfinite : ∀ v ∈ samples.map normalizeSample, ∃ u, finiteUnits v = some u := by
    intro v hv
    obtain ⟨h, -, rfl⟩ := List.mem_map.mp hv
    exact ⟨_, finiteUnits_normalizeSample h⟩
  refine List.ext_getElem (by rw [length_decimated, List.length_map]) fun i hi hi' => ?_
  have hx := finiteUnits_normalizeSample (samples[i]'(by simpa using hi'))
  rw [getElem_decimated, mul_one, List.getElem_map]
  exact eq_of_finiteUnits (finiteUnits_firOutput_identity hfinite hi' (by rwa [List.getElem_map])) hx
    (firOutput_ne_negZero _ _ _) (normalizeSample_ne_negZero _)

end Sys2Proof.Machine
end

section
/-! The core step of a stage by its answer (40_commands.md R123, R127, R238), and FILTER's (41_filter.md R140,
R146, R149). -/

namespace Sys2Proof.Machine

/-! ### A stage's answer in its command and in RUN -/

/-- After a stage a single-stage command completes, and RUN enters its next stage if there is one. -/
theorem State.moveOn_nextStage {i : Instr} (hi : i ∈ [Instr.run, .filter, .spectrum, .peaks, .hash])
    (st : Stage) (s : State) : s.moveOn (nextStage i.opcode st) =
      s.withStatus (s.status.afterStage i (nextStage (Instr.opcode .run) st)) := by
  fin_cases hi <;> cases st <;> rfl

section
variable {i : Instr} {st : Stage} {s t : State} (hi : i ∈ [Instr.run, .filter, .spectrum, .peaks, .hash])
  (hst : st ∈ stagesOf i.opcode) (hs : s.Executing i st)
include hi hst hs

theorem exec_stage_done (h : stageRule st s.newEpoch = .done t) : exec i s =
    .next (t.withStatus (t.status.afterStage i (nextStage (Instr.opcode .run) st))) := by
  rw [exec_stage hi hst hs, h, StageResult.outcome, State.moveOn_nextStage hi]

theorem exec_stage_error {code : ErrCode} {info : Word} (h : stageRule st s.newEpoch = .error code info t) :
    exec i s = .next (t.errorCompletion code info) := by
  rw [exec_stage hi hst hs, h, StageResult.outcome]

end

/-! ### The stage -/

theorem filter_mem_stagesOf {i : Instr} (hi : i ∈ [Instr.filter, .run]) :
    i ∈ [Instr.run, .filter, .spectrum, .peaks, .hash] ∧ Stage.filter ∈ stagesOf i.opcode := by
  fin_cases hi <;> decide

theorem filterStage_error {s : State} {code : ErrCode} {info : Word}
    (h : filterChecks s = some (code, info)) : filterStage s = .error code info s := by
  rw [filterStage, h]

theorem filterStage_done {s : State} {samples : List (BitVec 16)} {k : List F64}
    (hc : filterChecks s = none) (hx : filterSamples s = some samples) (hk : filterKernel s = some k) :
    filterStage s = .done (filterWrite s
      (decimated (samples.map normalizeSample) k (decimation s) (filterLength s))) := by
  rw [filterStage, hc, hx, hk]

/-! ### The checks -/

theorem toNat_ne_zero {w : Word} (h : w ≠ 0) : w.toNat ≠ 0 := BitVec.toNat_ne_iff_ne.mpr h

/-- Settles O29: the first check that fails decides the error completion. -/
theorem filterChecksInOrder : Obligations.FilterChecksInOrder := by
  intro s i hi hs n d l fails
  obtain ⟨hcmd, hst⟩ := filter_mem_stagesOf hi
  have hfail {code : ErrCode} {info : Word} (h : filterChecks s = some (code, info)) : fails code info :=
    exec_stage_error hcmd hst hs (filterStage_error (s := s.newEpoch) h)
  refine ⟨fun hrate => hfail ?_, fun hrate => ⟨fun h0 => hfail ?_, fun h0 => ⟨fun hn => hfail ?_, fun hn =>
    ⟨fun hk => hfail ?_, fun hk hl => hfail ?_⟩⟩⟩⟩
  · rw [filterChecks, if_pos hrate]
  · rw [filterChecks, if_neg hrate.not_gt, if_pos (by rw [h0]; rfl)]
  · rw [filterChecks, if_neg hrate.not_gt, if_neg (toNat_ne_zero h0), if_pos hn]
  · rw [filterChecks, if_neg hrate.not_gt, if_neg (toNat_ne_zero h0), if_neg hn.not_gt, if_pos hk]
  · rw [filterChecks, if_neg hrate.not_gt, if_neg (toNat_ne_zero h0), if_neg hn.not_gt, if_neg hk.not_gt]
    exact if_pos hl

/-- R140 with no check that fails. -/
theorem filterChecks_eq_none {s : State} (hrate : s.cfg.targetRate.toNat ≤ s.cfg.sampleRate.toNat)
    (h0 : s.cfg.targetRate ≠ 0) (hn : s.cfg.numSamples.toNat ≤ s.caps.samples.toNat)
    (hk : s.cfg.numTaps.toNat ≤ s.caps.taps.toNat) (hl : filterLength s ≤ s.caps.signal.toNat) :
    filterChecks s = none := by
  rw [filterChecks, if_neg hrate.not_gt, if_neg (toNat_ne_zero h0), if_neg hn.not_gt, if_neg hk.not_gt,
    if_neg hl.not_gt]

/-! ### The outputs -/

theorem filterLength_eq_zero {s : State} (h : s.cfg.numSamples.toNat = 0) : filterLength s = 0 := by
  rw [filterLength, h, zero_add, Nat.div_eq_zero_iff]
  omega

theorem filterSamples_isSome {s : State}
    (h : ∀ j, j < s.cfg.numSamples.toNat → (sampleAt s.mem j).isSome = true) :
    ∃ samples, filterSamples s = some samples :=
  Option.isSome_iff_exists.mp ((collectFrom_isSome_iff _ _ _).mpr fun j hj => by simpa using h j hj)

theorem filterKernel_isSome {s : State} (h : 0 < s.cfg.numSamples.toNat →
    ∀ j, j < s.cfg.numTaps.toNat → (kernelAt s.mem j).isSome = true) : ∃ k, filterKernel s = some k := by
  refine Option.isSome_iff_exists.mp ((collectFrom_isSome_iff _ _ _).mpr fun j hj => ?_)
  rw [zero_add]
  split_ifs at hj with h0
  · omega
  · exact h (Nat.pos_of_ne_zero h0) j hj

/-- R144: on what the stage reads, an output is the reference sum over the sample and kernel RAMs. -/
theorem firOutput_eq_refFir_mem {s : State} {samples : List (BitVec 16)} {k : List F64}
    (hx : filterSamples s = some samples) (hk : filterKernel s = some k) (hn : s.cfg.numSamples.toNat ≠ 0)
    (i : Nat) : firOutput (samples.map normalizeSample) k i =
      refFir (refNormalized s.mem) (fun j => (kernelAt s.mem j).getD 0) s.cfg.numSamples.toNat
        s.cfg.numTaps.toNat i := by
  obtain ⟨hxl, hxs⟩ := (collectFrom_eq_some_iff _ _ _ _).mp hx
  obtain ⟨hkl, hks⟩ := (collectFrom_eq_some_iff _ _ _ _).mp hk
  rw [if_neg hn] at hkl
  rw [← hxl, ← hkl, ← List.length_map (as := samples) normalizeSample]
  refine firOutput_eq_refFir (fun n h => ?_) (fun j h => ?_) i
  · have hsample := hxs n (by simpa using h)
    rw [zero_add] at hsample
    rw [refNormalized, hsample, List.getElem_map]
    rfl
  · have htap := hks j h
    rw [zero_add] at htap
    rw [htap]
    rfl

/-- Settles O30: the outputs are written from entry 0 of SIGNAL on, each the sum of R144. -/
theorem filterResult : Obligations.FilterResult := by
  intro s i hi hs n k d l hrate h0 hn hk hl hsamples htaps
  obtain ⟨hcmd, hst⟩ := filter_mem_stagesOf hi
  obtain ⟨xs, hxs⟩ := filterSamples_isSome hsamples
  obtain ⟨ks, hks⟩ := filterKernel_isSome htaps
  have hexec := exec_stage_done hcmd hst hs
    (filterStage_done (s := s.newEpoch) (filterChecks_eq_none hrate h0 hn hk hl) hxs hks)
  refine ⟨_, hexec, rfl, rfl, fun m hm => ?_, fun a ha => ?_, rfl, rfl, rfl, rfl, rfl, rfl, rfl⟩
  · have hpos : s.cfg.numSamples.toNat ≠ 0 := fun hn0 => by
      rw [show l = 0 from filterLength_eq_zero hn0] at hm
      exact Nat.not_lt_zero m hm
    rw [← firOutput_eq_refFir_mem hxs hks hpos, ← getElem_decimated (by rwa [length_decimated])]
    exact memF64_memPutF64s_inside _ _ _ _ _
  · exact memByte_memPutF64s_outside _ _ _ _ (by rwa [length_decimated])

end Sys2Proof.Machine
end

section
/-! SPECTRUM's checks (42_spectrum.md R160) and its frame count (R161). -/

namespace Sys2Proof.Machine

/-! ### The stage -/

theorem spectrum_mem_stagesOf {i : Instr} (hi : i ∈ [Instr.spectrum, .run]) :
    i ∈ [Instr.run, .filter, .spectrum, .peaks, .hash] ∧ Stage.spectrum ∈ stagesOf i.opcode := by
  fin_cases hi <;> decide

theorem spectrumStage_error {s : State} {code : ErrCode} {info : Word}
    (h : spectrumChecks s = some (code, info)) : spectrumStage s = .error code info s := by
  rw [spectrumStage, h]

theorem spectrumStage_done {s : State} {window : List F64} {frames : List (List F64)}
    (hc : spectrumChecks s = none) (hw : spectrumWindow s = some window)
    (hf : collectFrom (frameAt s) 0 (spectrumFrames s) = some frames) :
    spectrumStage s =
      .done (spectrumWrite s (frames.map (spectrumRow s.cfg.frameSize.toNat window))) := by
  rw [spectrumStage, hc, hw, hf]

/-! ### The checks -/

/-- A positive power of two is one by its logarithm. -/
theorem isPowerOfTwo_iff (n : Nat) : isPowerOfTwo n = true ↔ ∃ e, n = 2 ^ e := by
  simp only [isPowerOfTwo, Bool.and_eq_true, bne_iff_ne, beq_iff_eq]
  constructor
  · exact fun ⟨_, h⟩ => ⟨n.log2, h.symm⟩
  · rintro ⟨e, rfl⟩
    exact ⟨by positivity, by rw [Nat.log2_two_pow]⟩

/-- The FRAME_SIZE condition of R160: a power of two from 2 to FS_MAX. -/
def State.FrameSizeOk (s : State) : Prop :=
  (∃ e, s.cfg.frameSize.toNat = 2 ^ e) ∧ 2 ≤ s.cfg.frameSize.toNat ∧
    s.cfg.frameSize.toNat ≤ s.caps.frame.toNat

theorem spectrumChecks_frameSize {s : State} (h : ¬s.FrameSizeOk) :
    spectrumChecks s = some (.cfgFrameSize, s.cfg.frameSize) := by
  rw [spectrumChecks, if_pos (by rwa [isPowerOfTwo_iff])]

/-- R160 after the FRAME_SIZE check. -/
theorem spectrumChecks_of_frameSizeOk {s : State} (h : s.FrameSizeOk) : spectrumChecks s =
    if s.cfg.hopSize.toNat = 0 then some (.cfgHop, 0)
    else if s.caps.signal.toNat < s.len.sigLen.toNat then some (.capSignal, s.len.sigLen)
    else if s.caps.spec.toNat < spectrumFrames s * spectrumBins s then
      some (.capSpec, saturate32 (spectrumFrames s * spectrumBins s))
    else none := by
  rw [spectrumChecks, if_neg (by rwa [isPowerOfTwo_iff, not_not])]

/-- R160 with no check that fails. -/
theorem spectrumChecks_eq_none {s : State} (hsize : s.FrameSizeOk) (h0 : s.cfg.hopSize.toNat ≠ 0)
    (hsig : s.len.sigLen.toNat ≤ s.caps.signal.toNat)
    (hspec : spectrumFrames s * spectrumBins s ≤ s.caps.spec.toNat) : spectrumChecks s = none := by
  rw [spectrumChecks_of_frameSizeOk hsize, if_neg h0, if_neg hsig.not_gt, if_neg hspec.not_gt]

/-- Settles O34: the first check that fails decides the error completion. -/
theorem spectrumChecksInOrder : Obligations.SpectrumChecksInOrder := by
  intro s i hi hs fs b f fails sizeOk
  obtain ⟨hcmd, hst⟩ := spectrum_mem_stagesOf hi
  have hfail {code : ErrCode} {info : Word} (h : spectrumChecks s = some (code, info)) : fails code info :=
    exec_stage_error hcmd hst hs (spectrumStage_error (s := s.newEpoch) h)
  refine ⟨fun hsize => hfail (spectrumChecks_frameSize hsize), fun hsize => ?_⟩
  have hchecks := spectrumChecks_of_frameSizeOk (s := s) hsize
  refine ⟨fun h0 => hfail ?_, fun h0 => ⟨fun hsig => hfail ?_, fun hsig hspec => hfail ?_⟩⟩
  · rw [hchecks, if_pos (by rw [h0]; rfl)]
  · rw [hchecks, if_neg (toNat_ne_zero h0), if_pos hsig]
  · rw [hchecks, if_neg (toNat_ne_zero h0), if_neg hsig.not_gt]
    exact if_pos hspec

/-! ### The frame count -/

/-- Settles O35: frame `f` fits when its start is at most `s - fs`. -/
theorem frameEmittedIffFits : Obligations.FrameEmittedIffFits := by
  intro s fs hop f hhop
  refine ⟨?_, rfl⟩
  unfold frameCount
  split_ifs with h
  · exact iff_of_false (Nat.not_lt_zero f) (by omega)
  · rw [Nat.lt_succ_iff, Nat.le_div_iff_mul_le hhop]
    omega

end Sys2Proof.Machine
end

section
/-! The FFT (42_spectrum.md R165): the bit reversal, and the blocks of each level as the spec's loops in place on
one array. -/

namespace Sys2Proof.Machine

/-! ### Bit reversal -/

theorem revBits_lt (b i : Nat) : revBits b i < 2 ^ b := by
  induction b generalizing i with
  | zero => exact Nat.one_pos
  | succ b ih =>
    have hbit : i % 2 * 2 ^ b ≤ 1 * 2 ^ b := Nat.mul_le_mul_right _ (by omega)
    have := ih (i / 2)
    rw [revBits, pow_succ']
    omega

/-- Settles O38: the lowest bit goes to the top, and the others are reversed below it. -/
theorem revBitsReverses : Obligations.RevBitsReverses := by
  intro b
  induction b with
  | zero => intro i j; simp [revBits]
  | succ b ih =>
    intro i j
    rw [revBits, mul_comm, Nat.testBit_two_pow_mul_add _ (revBits_lt b _), ih]
    rcases lt_trichotomy j b with hlt | rfl | hgt
    · rw [if_pos hlt, ← Nat.testBit_add_one]
      simp [hlt, show j < b + 1 by omega, show b - 1 - j + 1 = b - j by omega]
    · simp [Nat.testBit_zero]
    · rw [if_neg (by omega)]
      obtain ⟨k, hk⟩ : ∃ k, j - b = k + 1 := ⟨j - b - 1, by omega⟩
      simp [show ¬j < b + 1 by omega, hk, Nat.testBit_add_one]

/-! ### One block -/

theorem length_fftBlock (s : Nat) (block : List Complex64) : (fftBlock s block).length = s / 2 + s / 2 := by
  simp [fftBlock]

/-- Entry `m` of a list that is done below `m` becomes done. -/
theorem set_take_append_drop {α : Type} {done todo : List α} (hlen : done.length = todo.length) {m : Nat}
    (hm : m < done.length) :
    (done.take m ++ todo.drop m).set m done[m] = done.take (m + 1) ++ todo.drop (m + 1) := by
  rw [List.set_append_right _ _ (by simp), List.drop_eq_getElem_cons (hlen ▸ hm), List.length_take,
    Nat.min_eq_left hm.le, Nat.sub_self, List.set_cons_zero, ← List.take_append_getElem hm,
    List.append_assoc, List.singleton_append]

theorem length_take_append_drop {α : Type} {done todo : List α} (hlen : done.length = todo.length) {m : Nat}
    (hm : m ≤ done.length) : (done.take m ++ todo.drop m).length = todo.length := by
  rw [List.length_append, List.length_take, List.length_drop]
  omega

theorem getD_take_append_drop {α : Type} {done todo : List α} {m : Nat}
    (hm : m < done.length) (d : α) : (done.take m ++ todo.drop m).getD m d = todo.getD m d := by
  rw [List.getD_append_right _ _ _ _ (by simp), List.length_take, Nat.min_eq_left hm.le, Nat.sub_self,
    List.getD_eq_getElem?_getD, List.getElem?_drop, add_zero, List.getD_eq_getElem?_getD]

/-- R165's loop body on a block of the halves `us` and `vs`: entry `j` of each is replaced. -/
theorem inPlaceButterfly_append {s j : Nat} (pre post : List Complex64) {us vs : List Complex64}
    (hu : us.length = s / 2) (hv : vs.length = s / 2) (hj : j < s / 2) :
    inPlaceButterfly s pre.length j (pre ++ (us ++ (vs ++ post))) =
      pre ++ (us.set j (butterfly (twiddle j s) (us.getD j (0, 0)) (vs.getD j (0, 0))).1 ++
        (vs.set j (butterfly (twiddle j s) (us.getD j (0, 0)) (vs.getD j (0, 0))).2 ++ post)) := by
  have hupper : (pre ++ (us ++ (vs ++ post))).getD (pre.length + j) (0, 0) = us.getD j (0, 0) := by
    rw [List.getD_append_right _ _ _ _ (by omega), Nat.add_sub_cancel_left, List.getD_append _ _ _ _ (by omega)]
  have hlower : (pre ++ (us ++ (vs ++ post))).getD (pre.length + j + s / 2) (0, 0) = vs.getD j (0, 0) := by
    rw [List.getD_append_right _ _ _ _ (by omega), List.getD_append_right _ _ _ _ (by omega),
      List.getD_append _ _ _ _ (by omega), show pre.length + j + s / 2 - pre.length - us.length = j by omega]
  have hset₁ (x : Complex64) : (pre ++ (us ++ (vs ++ post))).set (pre.length + j) x =
      pre ++ (us.set j x ++ (vs ++ post)) := by
    rw [List.set_append_right _ _ (by omega), Nat.add_sub_cancel_left, List.set_append_left _ _ (by omega)]
  have hset₂ (x y : Complex64) : (pre ++ (us.set j x ++ (vs ++ post))).set (pre.length + j + s / 2) y =
      pre ++ (us.set j x ++ (vs.set j y ++ post)) := by
    have hu' : (us.set j x).length = s / 2 := by rw [List.length_set, hu]
    rw [List.set_append_right _ _ (by omega), List.set_append_right _ _ (by omega),
      List.set_append_left _ _ (by omega),
      show pre.length + j + s / 2 - pre.length - (us.set j x).length = j by omega]
  rw [← hset₂, ← hset₁, ← hupper, ← hlower]
  rfl

/-- The outputs of the butterflies of a block with the halves `us` and `vs`. -/
def blockOutputs (s : Nat) (us vs : List Complex64) : List (Complex64 × Complex64) :=
  (List.range (s / 2)).map fun j => butterfly (twiddle j s) (us.getD j (0, 0)) (vs.getD j (0, 0))

theorem fftBlock_append {s : Nat} {us vs : List Complex64} (hu : us.length = s / 2) :
    fftBlock s (us ++ vs) = (blockOutputs s us vs).map Prod.fst ++ (blockOutputs s us vs).map Prod.snd := by
  have h : (List.range (s / 2)).map (fun j => butterfly (twiddle j s) ((us ++ vs).getD j (0, 0))
      ((us ++ vs).getD (j + s / 2) (0, 0))) = blockOutputs s us vs := by
    refine List.map_congr_left fun j hj => ?_
    have hj' := List.mem_range.mp hj
    rw [List.getD_append _ _ _ _ (by omega), List.getD_append_right _ _ _ _ (by omega), hu,
      Nat.add_sub_cancel]
  rw [← h]
  rfl

section
variable {s : Nat} (pre post : List Complex64) {us vs : List Complex64} (hu : us.length = s / 2)
  (hv : vs.length = s / 2)
include hu hv

/-- After `m` butterflies the first `m` entries of both halves are outputs. -/
theorem foldl_inPlaceButterfly {m : Nat} (hm : m ≤ s / 2) :
    (List.range m).foldl (fun a j => inPlaceButterfly s pre.length j a) (pre ++ (us ++ (vs ++ post))) =
      pre ++ (((blockOutputs s us vs).map Prod.fst).take m ++ us.drop m ++
        (((blockOutputs s us vs).map Prod.snd).take m ++ vs.drop m ++ post)) := by
  induction m with
  | zero => simp
  | succ m ih =>
    have hfst : ((blockOutputs s us vs).map Prod.fst).length = us.length := by simp [blockOutputs, hu]
    have hsnd : ((blockOutputs s us vs).map Prod.snd).length = vs.length := by simp [blockOutputs, hv]
    have hus := length_take_append_drop hfst (m := m) (by omega)
    have hvs := length_take_append_drop hsnd (m := m) (by omega)
    rw [List.range_succ, List.foldl_append, ih (by omega), List.foldl_cons, List.foldl_nil,
      inPlaceButterfly_append _ _ (hus.trans hu) (hvs.trans hv) hm,
      getD_take_append_drop (by omega), getD_take_append_drop (by omega),
      ← set_take_append_drop hfst (by omega), ← set_take_append_drop hsnd (by omega)]
    simp [blockOutputs]

/-- R165's loop over `j` does a block in place. -/
theorem foldl_inPlaceButterfly_block :
    (List.range (s / 2)).foldl (fun a j => inPlaceButterfly s pre.length j a) (pre ++ (us ++ vs ++ post)) =
      pre ++ (fftBlock s (us ++ vs) ++ post) := by
  rw [fftBlock_append hu, List.append_assoc us, foldl_inPlaceButterfly pre post hu hv le_rfl,
    List.take_of_length_le (by simp [blockOutputs]), List.take_of_length_le (by simp [blockOutputs]),
    List.drop_of_length_le hu.le, List.drop_of_length_le hv.le, List.append_nil, List.append_nil,
    List.append_assoc]

end

/-! ### One level -/

theorem length_flatMap_fftBlock (s : Nat) (f : Nat → List Complex64) (n : Nat) :
    ((List.range n).flatMap fun blk => fftBlock s (f blk)).length = n * (s / 2 + s / 2) := by
  simp [List.length_flatMap, length_fftBlock]

theorem length_fftLevel (s : Nat) (a : List Complex64) :
    (fftLevel s a).length = a.length / s * (s / 2 + s / 2) := length_flatMap_fftBlock s _ _

/-- After `n` of R165's blocks the first `n` blocks are done, and the rest of the array is as before. -/
theorem foldl_inPlaceBlock {h : Nat} (a : List Complex64) {n : Nat} (hn : n * (2 * h) ≤ a.length) :
    (List.range n).foldl (fun a blk => (List.range (2 * h / 2)).foldl
      (fun a j => inPlaceButterfly (2 * h) (blk * (2 * h)) j a) a) a =
    ((List.range n).flatMap fun blk => fftBlock (2 * h) ((a.drop (blk * (2 * h))).take (2 * h))) ++
      a.drop (n * (2 * h)) := by
  induction n with
  | zero => simp
  | succ n ih =>
    rw [Nat.succ_mul] at hn
    have hpre := length_flatMap_fftBlock (2 * h) (fun blk => (a.drop (blk * (2 * h))).take (2 * h)) n
    rw [show 2 * h / 2 + 2 * h / 2 = 2 * h by omega] at hpre
    have hsplit : a.drop (n * (2 * h)) = (a.drop (n * (2 * h))).take h ++
        ((a.drop (n * (2 * h))).drop h).take h ++ a.drop ((n + 1) * (2 * h)) := by
      rw [Nat.succ_mul n, ← List.drop_drop, ← List.take_add, ← two_mul, List.take_append_drop]
    have hblock := foldl_inPlaceButterfly_block (s := 2 * h)
      ((List.range n).flatMap fun blk => fftBlock (2 * h) ((a.drop (blk * (2 * h))).take (2 * h)))
      (a.drop ((n + 1) * (2 * h))) (us := (a.drop (n * (2 * h))).take h)
      (vs := ((a.drop (n * (2 * h))).drop h).take h) (by simp; omega) (by simp; omega)
    rw [hpre, ← hsplit, ← List.take_add, ← two_mul] at hblock
    rw [List.range_succ, List.foldl_append, ih (by omega), List.foldl_cons, List.foldl_nil, hblock,
      List.flatMap_append, List.flatMap_singleton, List.append_assoc]

theorem fftLevel_eq_inPlaceLevel {h n : Nat} (hh : 0 < h) {a : List Complex64}
    (ha : a.length = n * (2 * h)) : fftLevel (2 * h) a = inPlaceLevel a.length (2 * h) a := by
  rw [inPlaceLevel, fftLevel, foldl_inPlaceBlock a (Nat.div_mul_le_self _ _), ha,
    Nat.mul_div_cancel _ (by omega), ← ha, List.drop_length, List.append_nil]

/-! ### The levels -/

/-- For `FS = 2^b` the levels up to `t` are the in-place ones, and keep the length. -/
theorem foldl_fftLevel_eq (b : Nat) {a : List Complex64} (ha : a.length = 2 ^ b) {t : Nat} (ht : t ≤ b) :
    ((List.range t).foldl (fun a t => fftLevel (2 ^ (t + 1)) a) a).length = 2 ^ b ∧
    (List.range t).foldl (fun a t => fftLevel (2 ^ (t + 1)) a) a =
      (List.range t).foldl (fun a t => inPlaceLevel (2 ^ b) (2 ^ (t + 1)) a) a := by
  induction t with
  | zero => exact ⟨ha, rfl⟩
  | succ t ih =>
    obtain ⟨hlen, heq⟩ := ih (by omega)
    have hblocks : 2 ^ b = 2 ^ (b - (t + 1)) * (2 * 2 ^ t) := by
      rw [← pow_succ', ← pow_add, Nat.sub_add_cancel ht]
    have hlevel := fftLevel_eq_inPlaceLevel (by positivity) (hlen.trans hblocks)
    rw [hlen, ← pow_succ'] at hlevel
    simp only [List.range_succ, List.foldl_append, List.foldl_cons, List.foldl_nil, ← heq, hlevel]
    refine ⟨?_, trivial⟩
    rw [← hlevel, length_fftLevel, hlen, show 2 ^ (t + 1) / 2 + 2 ^ (t + 1) / 2 = 2 ^ (t + 1) by omega]
    exact Nat.div_mul_cancel (pow_dvd_pow 2 ht)

/-- An FFT has as many values as its input. -/
theorem length_fft (b : Nat) (u : List F64) : (fft b u).length = 2 ^ b :=
  (foldl_fftLevel_eq b (by simp) le_rfl).1

/-- Settles O37: level by level, a block after the other, half a block in step with the other half. -/
theorem fftIsTheInPlaceLoop : Obligations.FftIsTheInPlaceLoop :=
  fun b _ => (foldl_fftLevel_eq b (by simp) le_rfl).2

end Sys2Proof.Machine
end

section
/-! SPECTRUM completes (42_spectrum.md R162 to R164, R168, R169): what it reads, and every bin it writes. -/

namespace Sys2Proof.Machine

/-! ### Rows -/

/-- Entry `k` of row `g` in the rows laid end to end, all of `n` entries. -/
theorem getElem?_flatten_of_length {α : Type} {rows : List (List α)} {n : Nat}
    (h : ∀ row ∈ rows, row.length = n) (g : Nat) {k : Nat} (hk : k < n) :
    rows.flatten[g * n + k]? = rows[g]?.bind (·[k]?) := by
  induction rows generalizing g with
  | nil => rfl
  | cons row rows ih =>
    obtain ⟨hrow, hrows⟩ := List.forall_mem_cons.mp h
    rw [List.flatten_cons]
    cases g with
    | zero => rw [Nat.zero_mul, Nat.zero_add, List.getElem?_append_left (by omega)]; rfl
    | succ g =>
      rw [Nat.succ_mul, List.getElem?_append_right (by omega), hrow,
        show g * n + n + k - n = g * n + k by omega, ih hrows]
      rfl

section
variable {fs e : Nat} (hfs : fs = 2 ^ e) (window frame : List F64)
include hfs

/-- R168: the bins of a row are entries of the FFT. -/
theorem half_lt_length_fft (u : List F64) : fs / 2 < (fft e u).length := by
  rw [length_fft, ← hfs]
  have : 0 < fs := hfs ▸ Nat.two_pow_pos e
  omega

theorem length_spectrumRow : (spectrumRow fs window frame).length = fs / 2 + 1 := by
  have hlog : fs.log2 = e := hfs ▸ Nat.log2_two_pow
  rw [spectrumRow, List.length_map, List.length_take, hlog]
  exact Nat.min_eq_left (half_lt_length_fft hfs _)

/-- Bin `k` of a row is the magnitude of entry `k` of the FFT of the windowed frame. -/
theorem getElem?_spectrumRow {k : Nat} (hk : k < fs / 2 + 1) : (spectrumRow fs window frame)[k]? =
    (fft e (List.zipWith fmul frame window))[k]?.map magnitude := by
  have hlog : fs.log2 = e := hfs ▸ Nat.log2_two_pow
  rw [spectrumRow, List.getElem?_map, List.getElem?_take_of_lt hk, hlog]

end

/-! ### What the stage reads -/

theorem spectrumWindow_isSome {s : State} (h : 0 < spectrumFrames s →
    ∀ n, n < s.cfg.frameSize.toNat → (windowAt s.mem n).isSome = true) :
    ∃ window, spectrumWindow s = some window := by
  refine Option.isSome_iff_exists.mp ((collectFrom_isSome_iff _ _ _).mpr fun n hn => ?_)
  rw [zero_add]
  split_ifs at hn with h0
  · omega
  · exact h (Nat.pos_of_ne_zero h0) n hn

theorem frameAt_isSome {s : State} {g : Nat} (h : ∀ n, n < s.cfg.frameSize.toNat →
    (signalAt s.mem (g * s.cfg.hopSize.toNat + n)).isSome = true) : (frameAt s g).isSome = true :=
  (collectFrom_isSome_iff _ _ _).mpr h

theorem spectrumFrames_isSome {s : State} (h : ∀ g, g < spectrumFrames s → ∀ n, n < s.cfg.frameSize.toNat →
    (signalAt s.mem (g * s.cfg.hopSize.toNat + n)).isSome = true) :
    ∃ frames, collectFrom (frameAt s) 0 (spectrumFrames s) = some frames :=
  Option.isSome_iff_exists.mp ((collectFrom_isSome_iff _ _ _).mpr fun g hg =>
    frameAt_isSome (by simpa using h g hg))

/-- R163, R164: the products of the frame and the window that the stage reads are the reference frame. -/
theorem zipWith_fmul_eq_refFrame {s : State} {window frame : List F64} {g : Nat}
    (hpos : spectrumFrames s ≠ 0) (hw : spectrumWindow s = some window) (hf : frameAt s g = some frame) :
    List.zipWith fmul frame window = refFrame s.mem s.cfg.frameSize.toNat s.cfg.hopSize.toNat g := by
  obtain ⟨hfl, hfs⟩ := (collectFrom_eq_some_iff _ _ _ _).mp hf
  obtain ⟨hwl, hws⟩ := (collectFrom_eq_some_iff _ _ _ _).mp hw
  rw [if_neg hpos] at hwl
  refine List.ext_getElem (by simp [refFrame, hfl, hwl]) fun n h₁ h₂ => ?_
  have hwn := hws n (by simp at h₁; omega)
  rw [zero_add] at hwn
  simp [refFrame, hfs n (by simp at h₁; omega), hwn]

/-! ### What the stage writes -/

section
variable {s : State} {e : Nat} {window : List F64} {frames : List (List F64)}
  (hfs : s.cfg.frameSize.toNat = 2 ^ e)
  (hf : collectFrom (frameAt s) 0 (spectrumFrames s) = some frames)
include hfs hf

/-- R162: the stage writes `F * B` entries. -/
theorem length_spectrumRows (window : List F64) :
    (frames.map (spectrumRow s.cfg.frameSize.toNat window)).flatten.length =
      spectrumFrames s * spectrumBins s := by
  have hrow : frames.map (List.length ∘ spectrumRow s.cfg.frameSize.toNat window) =
      List.replicate frames.length (spectrumBins s) :=
    List.eq_replicate_iff.mpr ⟨List.length_map _, List.forall_mem_map.mpr fun frame _ =>
      length_spectrumRow hfs window frame⟩
  rw [List.length_flatten, List.map_map, hrow, List.sum_replicate, length_of_collectFrom hf, smul_eq_mul]

/-- R163 to R165, R168: bin `k` of frame `g` of what the stage writes. -/
theorem getElem?_spectrumRows (hw : spectrumWindow s = some window) {g k : Nat}
    (hg : g < spectrumFrames s) (hk : k < spectrumBins s) :
    ∃ z, (fft e (refFrame s.mem s.cfg.frameSize.toNat s.cfg.hopSize.toNat g))[k]? = some z ∧
      (frames.map (spectrumRow s.cfg.frameSize.toNat window)).flatten[g * spectrumBins s + k]? =
        some (magnitude z) := by
  obtain ⟨hfl, hframes⟩ := (collectFrom_eq_some_iff _ _ _ _).mp hf
  have hframe := hframes g (by omega)
  rw [zero_add] at hframe
  have hrow : ∀ row ∈ frames.map (spectrumRow s.cfg.frameSize.toNat window), row.length = spectrumBins s :=
    List.forall_mem_map.mpr fun frame _ => length_spectrumRow hfs window frame
  have hz := List.getElem?_eq_getElem ((Nat.lt_succ_iff.mp hk).trans_lt (half_lt_length_fft hfs
    (refFrame s.mem s.cfg.frameSize.toNat s.cfg.hopSize.toNat g)))
  refine ⟨_, hz, ?_⟩
  calc (frames.map (spectrumRow s.cfg.frameSize.toNat window)).flatten[g * spectrumBins s + k]?
      = (spectrumRow s.cfg.frameSize.toNat window frames[g])[k]? := by
        rw [getElem?_flatten_of_length hrow g hk, List.getElem?_map,
          List.getElem?_eq_getElem (by omega), Option.map_some, Option.bind_some]
    _ = _ := by
        rw [getElem?_spectrumRow hfs _ _ hk, zipWith_fmul_eq_refFrame (by omega) hw hframe, hz, Option.map_some]

end

/-- Settles O36: the rows are written from entry 0 of SPEC on, a frame after the other. -/
theorem spectrumResult : Obligations.SpectrumResult := by
  intro s e i hi hs fs hop b f hfs he hcap hhop hsig hspec hsignal hwindow
  obtain ⟨hcmd, hst⟩ := spectrum_mem_stagesOf hi
  obtain ⟨window, hw⟩ := spectrumWindow_isSome hwindow
  obtain ⟨frames, hf⟩ := spectrumFrames_isSome hsignal
  have htwo : 2 ≤ fs := hfs ▸ Nat.le_self_pow (by omega) 2
  have hexec := exec_stage_done hcmd hst hs (spectrumStage_done (s := s.newEpoch)
    (spectrumChecks_eq_none ⟨⟨e, hfs⟩, htwo, hcap⟩ hhop.ne' hsig hspec) hw hf)
  refine ⟨_, hexec, rfl, rfl, fun g hg k hk => ?_, fun a ha => ?_, rfl, rfl, rfl, rfl, rfl, rfl, rfl⟩
  · obtain ⟨z, hz, hbin⟩ := getElem?_spectrumRows hfs hf hw hg hk
    obtain ⟨hlt, hbin⟩ := List.getElem?_eq_some_iff.mp hbin
    exact ⟨z, hz, (memF64_memPutF64s_inside _ _ _ _ hlt).trans (congrArg some hbin)⟩
  · refine memByte_memPutF64s_outside _ _ _ _ ?_
    rwa [length_spectrumRows (s := s.newEpoch) hfs hf]

end Sys2Proof.Machine
end

section
/-! No result depends on NUM_LANES (42_spectrum.md R170, R7). -/

namespace Sys2Proof.Machine

/-! ### The answers of PEAKS and HASH -/

theorem peaksStage_error {s : State} {code : ErrCode} {info : Word}
    (h : peaksChecks s = some (code, info)) : peaksStage s = .error code info s := by
  rw [peaksStage, h]

theorem peaksStage_done {s : State} {entries : List F64} (hc : peaksChecks s = none)
    (he : collectFrom (specAt s.mem) 0 (peakEntries s) = some entries) :
    peaksStage s = .done (peaksWrite s
      (allPeaks s.len.numFrames.toNat s.len.numBins.toNat s.cfg.numBands.toNat entries)) := by
  rw [peaksStage, hc, he]

theorem hashStage_error {s : State} {code : ErrCode} {info : Word}
    (h : hashChecks s = some (code, info)) : hashStage s = .error code info s := by
  rw [hashStage, h]

section
variable {s : State} {ps : List PeakKey} {hs : List Word} (hc : hashChecks s = none)
  (hp : collectFrom (peakKeyAt s.mem) 0 s.len.numPeaks.toNat = some ps)
include hc hp

theorem hashStage_done (hh : hashScan s.cfg.targetZone.toNat s.caps.hashes.toNat ps = (none, hs)) :
    hashStage s = .done (hashWrite s hs) := by
  simp only [hashStage, hc, hp, hh]

theorem hashStage_overflow {i : Nat}
    (hh : hashScan s.cfg.targetZone.toNat s.caps.hashes.toNat ps = (some i, hs)) :
    hashStage s = .error .capHashes (BitVec.ofNat 32 i) (hashWrite s hs) := by
  simp only [hashStage, hc, hp, hh]

end

/-! ### Another lane count -/

/-- A stage's answer with another lane count in the state it leaves. -/
def StageResult.withLanes (n : Word) : StageResult → StageResult
  | .done t => .done (t.withLanes n)
  | .error code info t => .error code info (t.withLanes n)
  | .fault r => .fault r

/-- No stage reads the lane count: its checks, its reads and its outputs are those of the other machine. -/
theorem stageRule_withLanes (st : Stage) (s : State) (n : Word) :
    stageRule st (s.withLanes n) = (stageRule st s).withLanes n := by
  cases st with
  | idle => rfl
  | filter =>
    rcases filterStage_cases s with ⟨_, _, hc, e⟩ | ⟨hc, _, _, hx, hk, e⟩ | ⟨hc, hn, e⟩ <;>
      rw [stageRule, e]
    · exact filterStage_error (s := s.withLanes n) hc
    · exact filterStage_done (s := s.withLanes n) hc hx hk
    · exact filterStage_fault (s := s.withLanes n) hc hn
  | spectrum =>
    rcases spectrumStage_cases s with ⟨_, _, hc, e⟩ | ⟨hc, _, _, hw, hf, e⟩ | ⟨hc, hn, e⟩ <;>
      rw [stageRule, e]
    · exact spectrumStage_error (s := s.withLanes n) hc
    · exact spectrumStage_done (s := s.withLanes n) hc hw hf
    · exact spectrumStage_fault (s := s.withLanes n) hc hn
  | peaks =>
    rcases peaksStage_cases s with ⟨_, _, hc, e⟩ | ⟨hc, _, he, e⟩ | ⟨hc, hn, e⟩ <;> rw [stageRule, e]
    · exact peaksStage_error (s := s.withLanes n) hc
    · exact peaksStage_done (s := s.withLanes n) hc he
    · exact peaksStage_fault (s := s.withLanes n) hc hn
  | hash =>
    rcases hashStage_cases s with
      ⟨_, _, hc, e⟩ | ⟨hc, _, hp, ⟨_, hh, e⟩ | ⟨_, _, hh, e⟩⟩ | ⟨hc, hn, e⟩ <;> rw [stageRule, e]
    · exact hashStage_error (s := s.withLanes n) hc
    · exact hashStage_done (s := s.withLanes n) hc hp hh
    · exact hashStage_overflow (s := s.withLanes n) hc hp hh
    · exact hashStage_fault (s := s.withLanes n) hc hn

/-- Nor does the sequencer, whose core step runs the stage STATUS.STAGE of the list. -/
theorem coreStep_withLanes (l : List Stage) (s : State) (n : Word) :
    coreStep (l.map fun st => (st, stageRule st)) (s.withLanes n) =
      outcomeWithLanes n (coreStep (l.map fun st => (st, stageRule st)) s) := by
  induction l with
  | nil => rfl
  | cons st l ih =>
    by_cases h : s.status.stage = st
    · have h' : (s.withLanes n).status.stage = st := h
      simp only [List.map_cons, coreStep, if_pos h, if_pos h', stageRule_withLanes]
      cases stageRule st s with
      | done t => cases l <;> rfl
      | error code info t => rfl
      | fault r => rfl
    · have h' : ¬(s.withLanes n).status.stage = st := h
      simpa only [List.map_cons, coreStep, if_neg h, if_neg h'] using ih

/-- While a command executes NOP is dropped (R130). -/
theorem execNop_busy {s : State} (hb : s.status.busy = true) : exec .nop s = .next (s.accError cmdOffset) :=
  if_pos hb

/-- Settles O40: issue, core step and drop of a command, NOP and the soft reset do not read the lane count. -/
theorem lanesDoNotMatter : Obligations.LanesDoNotMatter := by
  intro i s n
  have stage (hi : i ∈ [Instr.run, .filter, .spectrum, .peaks, .hash]) :
      exec i (s.withLanes n) = outcomeWithLanes n (exec i s) := by
    obtain ⟨first, -, he⟩ := exec_stageCommand hi
    rw [he, he]
    cases hb : s.status.busy with
    | false => rw [runCommand_idle _ _ _ _ hb, runCommand_idle _ _ _ (s.withLanes n) hb]; rfl
    | true =>
      by_cases hop : s.status.lastOp = i.opcode
      · rw [runCommand_executing _ _ _ _ hb hop, runCommand_executing _ _ _ (s.withLanes n) hb hop]
        exact coreStep_withLanes _ s.newEpoch n
      · rw [runCommand_dropped _ _ _ _ hb hop, runCommand_dropped _ _ _ (s.withLanes n) hb hop]; rfl
  cases i with
  | nop =>
    cases hb : s.status.busy with
    | false => rw [execNop_idle hb, execNop_idle (s := s.withLanes n) hb]; rfl
    | true => rw [execNop_busy hb, execNop_busy (s := s.withLanes n) hb]; rfl
  | srst => rfl
  | run => exact stage (by simp)
  | filter => exact stage (by simp)
  | spectrum => exact stage (by simp)
  | peaks => exact stage (by simp)
  | hash => exact stage (by simp)

end Sys2Proof.Machine
end

section
/-! The twiddles (42_spectrum.md R167): one table for every frame size. -/

namespace Sys2Proof.Machine

theorem fixAngle_mul_right (n d : Nat) {c : Nat} (hc : 0 < c) : fixAngle (n * c) (d * c) = fixAngle n d := by
  rw [fixAngle, ← mul_assoc, Nat.mul_div_mul_right _ _ hc, fixAngle]

theorem cosEighth_mul_right (n d : Nat) {c : Nat} (hc : 0 < c) : cosEighth (n * c) (d * c) = cosEighth n d := by
  rw [cosEighth, fixAngle_mul_right n d hc, cosEighth]

theorem sinEighth_mul_right (n d : Nat) {c : Nat} (hc : 0 < c) : sinEighth (n * c) (d * c) = sinEighth n d := by
  rw [sinEighth, fixAngle_mul_right n d hc, sinEighth]

/-- A twiddle depends on the quotient of its angle alone: the octants and the reduced angles do. -/
theorem twiddle_mul_right (j s : Nat) {c : Nat} (hc : 0 < c) : twiddle (j * c) (s * c) = twiddle j s := by
  have hscale (a b : Nat) : a * (b * c) = a * b * c := (mul_assoc _ _ _).symm
  simp only [twiddle, hscale, ← Nat.sub_mul, Nat.mul_le_mul_right_iff hc, cosEighth_mul_right _ _ hc,
    sinEighth_mul_right _ _ hc]

/-- Settles O39: the seven entries are computed; the rest is that octant and angle depend on `j/s` alone. -/
theorem twiddleTable : Obligations.TwiddleTable :=
  ⟨by decide +kernel, by decide +kernel, by decide +kernel, by decide +kernel, by decide +kernel,
    by decide +kernel, by decide +kernel, fun j s _ hc => twiddle_mul_right j s hc⟩

end Sys2Proof.Machine
end

section
/-! The alternating series of the cosine and the sine, and its nested form in fixed point (42_spectrum.md R167): the
fixed-point value is the series' up to a few units. -/

namespace Sys2Proof.Machine

/-! ### The alternating series of the cosine and the sine -/

/-- Term `m` of the exponential series. -/
noncomputable def taylorTerm (y : ℝ) (m : Nat) : ℝ := y ^ m / (m.factorial : ℝ)

/-- The alternating series from the term of degree `m` on: from 0 the cosine, from 1 the sine. -/
noncomputable def trigTail (y : ℝ) : Nat → ℝ
  | 0 => Real.cos y
  | 1 => Real.sin y
  | m + 2 => taylorTerm y m - trigTail y m

theorem taylorTerm_nonneg {y : ℝ} (hy : 0 ≤ y) (m : Nat) : 0 ≤ taylorTerm y m := by
  unfold taylorTerm; positivity

theorem taylorTerm_add_two (y : ℝ) (m : Nat) :
    taylorTerm y (m + 2) = taylorTerm y m * (y ^ 2 / ((m + 1) * (m + 2))) := by
  have : (m.factorial : ℝ) ≠ 0 := by positivity
  simp only [taylorTerm, Nat.factorial_succ]
  push_cast
  field_simp
  ring

/-- On [0, 1] a term two degrees up is at most half the term. -/
theorem taylorTerm_add_two_le {y : ℝ} (hy : y ∈ Set.Icc (0 : ℝ) 1) (m : Nat) :
    2 * taylorTerm y (m + 2) ≤ taylorTerm y m := by
  have hsq : y ^ 2 ≤ 1 := pow_le_one₀ hy.1 hy.2
  have hm : (2 : ℝ) ≤ (m + 1) * (m + 2) := by
    exact_mod_cast Nat.mul_le_mul (show 1 ≤ m + 1 by omega) (show 2 ≤ m + 2 by omega)
  have hquot : y ^ 2 / ((m + 1) * (m + 2)) ≤ 1 / 2 := div_le_div₀ zero_le_one hsq two_pos hm
  rw [taylorTerm_add_two]
  have := mul_le_mul_of_nonneg_left hquot (taylorTerm_nonneg hy.1 m)
  linarith

theorem hasDerivAt_taylorTerm_succ (m : Nat) (y : ℝ) :
    HasDerivAt (taylorTerm · (m + 1)) (taylorTerm y m) y := by
  have h := (hasDerivAt_pow (m + 1) y).div_const (((m + 1).factorial : Nat) : ℝ)
  refine h.congr_deriv ?_
  have : (m.factorial : ℝ) ≠ 0 := by positivity
  rw [taylorTerm, Nat.factorial_succ, Nat.add_sub_cancel]
  push_cast
  field_simp

theorem hasDerivAt_trigTail_succ (m : Nat) (y : ℝ) :
    HasDerivAt (trigTail · (m + 1)) (trigTail y m) y := by
  induction m using Nat.twoStepInduction with
  | zero => exact Real.hasDerivAt_sin y
  | one =>
    have h := (Real.hasDerivAt_cos y).const_sub (taylorTerm y 0)
    rw [neg_neg] at h
    refine h.congr_of_eventuallyEq (.of_forall fun z => ?_)
    simp [trigTail, taylorTerm]
  | more m ih _ => exact (hasDerivAt_taylorTerm_succ m y).sub ih

theorem trigTail_zero_succ (m : Nat) : trigTail 0 (m + 1) = 0 := by
  induction m using Nat.twoStepInduction with
  | zero => exact Real.sin_zero
  | one => simp [trigTail, taylorTerm]
  | more m ih _ => rw [trigTail, ih]; simp [taylorTerm]

/-- Each tail grows from 0, for its derivative is the tail before it. -/
theorem trigTail_nonneg (m : Nat) {y : ℝ} (hy : y ∈ Set.Icc (0 : ℝ) 1) : 0 ≤ trigTail y m := by
  induction m generalizing y with
  | zero =>
    have hpi := Real.pi_gt_three
    exact Real.cos_nonneg_of_neg_pi_div_two_le_of_le (by linarith [hy.1]) (by linarith [hy.2])
  | succ m ih =>
    have hmono : MonotoneOn (trigTail · (m + 1)) (Set.Icc 0 1) := by
      refine monotoneOn_of_deriv_nonneg (convex_Icc 0 1)
        (fun z _ => (hasDerivAt_trigTail_succ m z).continuousAt.continuousWithinAt)
        (fun z _ => (hasDerivAt_trigTail_succ m z).differentiableAt.differentiableWithinAt) fun z hz => ?_
      rw [(hasDerivAt_trigTail_succ m z).deriv]
      exact ih (interior_subset hz)
    calc (0 : ℝ) = trigTail 0 (m + 1) := (trigTail_zero_succ m).symm
      _ ≤ trigTail y (m + 1) := hmono ⟨le_rfl, zero_le_one⟩ hy hy.1

/-! ### The series in fixed point -/

theorem fixSeries_le (x2 t k : Nat) : fixSeries x2 t k ≤ fixOne := by
  cases t with
  | zero => exact le_rfl
  | succ t => exact Nat.sub_le _ _

theorem fixOne_pos : 0 < fixOne := Nat.two_pow_pos _

/-- A quotient rounded down, as a real number. -/
theorem natDiv_error (a : Nat) {b : Nat} (hb : 0 < b) :
    ((a / b : Nat) : ℝ) ≤ a / b ∧ (a : ℝ) / b ≤ (a / b : Nat) + 1 := by
  have hb' : (0 : ℝ) < b := by exact_mod_cast hb
  refine ⟨Nat.cast_div_le, ?_⟩
  rw [div_le_iff₀ hb']
  have h := Nat.div_add_mod' a b
  have := Nat.mod_lt a hb
  exact_mod_cast (show a ≤ (a / b + 1) * b by rw [Nat.succ_mul]; omega)

section
variable {X : Nat} (hX : X ≤ fixOne)
include hX

/-- The value of a fixed-point number of at most 1. -/
theorem fixValue_mem : (X : ℝ) / fixOne ∈ Set.Icc (0 : ℝ) 1 := by
  have h : (0 : ℝ) < fixOne := by exact_mod_cast fixOne_pos
  exact ⟨by positivity, (div_le_one h).mpr (by exact_mod_cast hX)⟩

/-- One step of the nested form loses at most two units: one in the squared argument, one in the quotient. -/
theorem fixSeries_succ_error (t : Nat) {k : Nat} (hk : 1 ≤ k) :
    |(fixSeries (X * X / fixOne) (t + 1) k : ℝ) - (fixOne - ((X : ℝ) / fixOne) ^ 2 / (k * (k + 1)) *
      fixSeries (X * X / fixOne) t (k + 2))| ≤ 2 := by
  have hF : (0 : ℝ) < fixOne := by exact_mod_cast fixOne_pos
  have hK : (1 : ℝ) ≤ k * (k + 1) := by exact_mod_cast Nat.mul_le_mul hk (show 1 ≤ k + 1 by omega)
  have hc := fixSeries_le (X * X / fixOne) t (k + 2)
  have hA := natDiv_error (X * X) fixOne_pos
  have hAle : X * X / fixOne ≤ fixOne := Nat.div_le_of_le_mul (Nat.mul_le_mul hX hX)
  rw [fixSeries]
  generalize fixSeries (X * X / fixOne) t (k + 2) = c at *
  generalize X * X / fixOne = A at *
  have hq := natDiv_error (A * c) (b := fixOne * (k * (k + 1)))
    (Nat.mul_pos fixOne_pos (Nat.mul_pos hk (Nat.succ_pos k)))
  have hqle : A * c / (fixOne * (k * (k + 1))) ≤ fixOne :=
    Nat.div_le_of_le_mul ((Nat.mul_le_mul hAle hc).trans
      (Nat.mul_le_mul_right _ (Nat.le_mul_of_pos_right _ (Nat.mul_pos hk (Nat.succ_pos k)))))
  generalize A * c / (fixOne * (k * (k + 1))) = q at *
  push_cast [Nat.cast_sub hqle] at hA hq ⊢
  have hw : (0 : ℝ) ≤ c / (fixOne * (k * (k + 1))) := by positivity
  have hw' : (c : ℝ) / (fixOne * (k * (k + 1))) ≤ 1 :=
    (div_le_one (by positivity)).mpr ((Nat.cast_le.mpr hc).trans (le_mul_of_one_le_right hF.le hK))
  have hsq : ((X : ℝ) / fixOne) ^ 2 / (k * (k + 1)) * c =
      X * X / fixOne * (c / (fixOne * (k * (k + 1)))) := by field_simp
  have hquot : (A : ℝ) * c / (fixOne * (k * (k + 1))) = A * (c / (fixOne * (k * (k + 1)))) := mul_div_assoc _ _ _
  rw [hquot] at hq
  rw [hsq, abs_le]
  constructor <;> nlinarith

/-- With `t` terms the nested form is the alternating series up to four units and the first term left out. -/
theorem fixSeries_error (t m : Nat) :
    |taylorTerm (X / fixOne) m * fixSeries (X * X / fixOne) t (m + 1) - fixOne * trigTail (X / fixOne) m| ≤
      4 * taylorTerm (X / fixOne) m + fixOne * taylorTerm (X / fixOne) (m + 2 * t) := by
  have hF : (0 : ℝ) < fixOne := by exact_mod_cast fixOne_pos
  have hy := fixValue_mem hX
  induction t generalizing m with
  | zero =>
    have htail := trigTail_nonneg m hy
    have hnext := trigTail_nonneg (m + 2) hy
    have hterm := taylorTerm_nonneg hy.1 m
    rw [trigTail] at hnext
    rw [fixSeries, mul_comm _ (fixOne : ℝ), ← mul_sub, abs_of_nonneg (mul_nonneg hF.le hnext)]
    have := mul_nonneg hF.le htail
    rw [Nat.mul_zero, Nat.add_zero]
    nlinarith
  | succ t ih =>
    have hstep := fixSeries_succ_error hX t (k := m + 1) (Nat.succ_pos m)
    have hnext := ih (m + 2)
    have hhalf := taylorTerm_add_two_le hy m
    have hterm := taylorTerm_nonneg hy.1 m
    have hsplit : taylorTerm (X / fixOne) m * fixSeries (X * X / fixOne) (t + 1) (m + 1) -
        fixOne * trigTail (X / fixOne) m =
        taylorTerm (X / fixOne) m * (fixSeries (X * X / fixOne) (t + 1) (m + 1) - (fixOne -
          ((X : ℝ) / fixOne) ^ 2 / ((m + 1 : Nat) * ((m + 1 : Nat) + 1)) *
            fixSeries (X * X / fixOne) t (m + 1 + 2))) -
        (taylorTerm (X / fixOne) (m + 2) * fixSeries (X * X / fixOne) t (m + 2 + 1) -
          fixOne * trigTail (X / fixOne) (m + 2)) := by
      rw [taylorTerm_add_two, trigTail]
      push_cast
      ring
    rw [hsplit, show m + 2 * (t + 1) = m + 2 + 2 * t by ring]
    refine (abs_sub _ _).trans ?_
    rw [abs_mul, abs_of_nonneg hterm]
    have := mul_le_mul_of_nonneg_left hstep hterm
    linarith

end

end Sys2Proof.Machine
end

section
/-! The sine and the cosine in fixed point (42_spectrum.md R167): their distance from the real ones. -/

namespace Sys2Proof.Machine

/-- The angle `2*pi*n/8192`: every twiddle of R7's frame sizes has one of these. -/
noncomputable def angleOf (n : Nat) : ℝ := 2 * Real.pi * n / 8192

/-- What `cosEighth` rounds. -/
def cosFixed (n : Nat) : Nat := fixSeries (fixAngle n 8192 * fixAngle n 8192 / fixOne) fixTerms 1

/-- What `sinEighth` rounds. -/
def sinFixed (n : Nat) : Nat :=
  fixAngle n 8192 * fixSeries (fixAngle n 8192 * fixAngle n 8192 / fixOne) fixTerms 2 / fixOne

theorem cosEighth_eq (n : Nat) : cosEighth n 8192 = roundDyadic false (cosFixed n) 192 := rfl

theorem sinEighth_eq (n : Nat) : sinEighth n 8192 = roundDyadic false (sinFixed n) 192 := rfl

theorem fixPi_error : |(fixPi : ℝ) - fixOne * Real.pi| ≤ 2 ^ 126 := by
  have hlow := Real.pi_gt_d20
  have hhigh := Real.pi_lt_d20
  have hone : (fixOne : ℝ) = 2 ^ 192 := by norm_num [fixOne, fixBits]
  rw [hone, abs_le]
  unfold fixPi
  constructor <;> norm_num <;> linarith

theorem fixAngle_error (n : Nat) : |(fixAngle n 8192 : ℝ) - fixOne * angleOf n| ≤ n * 2 ^ 114 + 1 := by
  have hdiv := natDiv_error (2 * fixPi * n) (b := 8192) (by norm_num)
  have hpi := abs_le.mp fixPi_error
  have hn : (0 : ℝ) ≤ n := Nat.cast_nonneg n
  have h₁ := mul_le_mul_of_nonneg_right hpi.1 hn
  have h₂ := mul_le_mul_of_nonneg_right hpi.2 hn
  rw [fixAngle, angleOf, abs_le]
  push_cast at hdiv ⊢
  constructor <;> linarith

theorem fixAngle_le {n : Nat} (hn : n ≤ 1024) : fixAngle n 8192 ≤ fixOne := by
  refine Nat.div_le_of_le_mul ((Nat.mul_le_mul_left (2 * fixPi) hn).trans ?_)
  decide +kernel

/-- The terms the series leaves out are below one unit. -/
theorem fixOne_mul_taylorTerm_le {y : ℝ} (hy : y ∈ Set.Icc (0 : ℝ) 1) {m : Nat} (hm : 48 ≤ m) :
    fixOne * taylorTerm y m ≤ 1 := by
  have hfac : fixOne ≤ m.factorial :=
    (show fixOne ≤ Nat.factorial 48 by decide +kernel).trans (Nat.factorial_le hm)
  rw [taylorTerm, ← mul_div_assoc, div_le_one (by positivity)]
  calc (fixOne : ℝ) * y ^ m ≤ fixOne * 1 :=
        mul_le_mul_of_nonneg_left (pow_le_one₀ hy.1 hy.2) (Nat.cast_nonneg _)
    _ ≤ m.factorial := by rw [mul_one]; exact_mod_cast hfac

/-- What the rounded angle changes in a function of slope at most 1. -/
theorem fixAngle_lipschitz {g : ℝ → ℝ} (hg : ∀ x y, |g x - g y| ≤ |x - y|) (n : Nat) :
    |fixOne * g (fixAngle n 8192 / fixOne) - fixOne * g (angleOf n)| ≤ n * 2 ^ 114 + 1 := by
  have hF : (0 : ℝ) < fixOne := by exact_mod_cast fixOne_pos
  have hangle : (fixAngle n 8192 : ℝ) - fixOne * angleOf n =
      fixOne * (fixAngle n 8192 / fixOne - angleOf n) := by field_simp
  calc |fixOne * g (fixAngle n 8192 / fixOne) - fixOne * g (angleOf n)|
      = fixOne * |g (fixAngle n 8192 / fixOne) - g (angleOf n)| := by rw [← mul_sub, abs_mul, abs_of_pos hF]
    _ ≤ fixOne * |fixAngle n 8192 / fixOne - angleOf n| := mul_le_mul_of_nonneg_left (hg _ _) hF.le
    _ = |(fixAngle n 8192 : ℝ) - fixOne * angleOf n| := by rw [hangle, abs_mul, abs_of_pos hF]
    _ ≤ n * 2 ^ 114 + 1 := fixAngle_error n

/-- The bound of the errors of `cosFixed n` and `sinFixed n`: most of it is Mathlib's 20 digits of pi. -/
def fixedError (n : Nat) : Nat := (n + 1) * 2 ^ 114

theorem fixedError_pos (n : Nat) : 0 < fixedError n := Nat.mul_pos (Nat.succ_pos n) (Nat.two_pow_pos _)

section
variable {n : Nat} (hn : n ≤ 1024)
include hn

theorem sinFixed_le : sinFixed n ≤ fixOne :=
  Nat.div_le_of_le_mul (Nat.mul_le_mul (fixAngle_le hn) (fixSeries_le _ _ _))

theorem cosFixed_error : |(cosFixed n : ℝ) - fixOne * Real.cos (angleOf n)| ≤ fixedError n := by
  have hX := fixAngle_le hn
  have hseries := fixSeries_error hX fixTerms 0
  have hrest := fixOne_mul_taylorTerm_le (fixValue_mem hX) (m := 0 + 2 * fixTerms) (by decide)
  have hangle := fixAngle_lipschitz Real.abs_cos_sub_cos_le n
  have hterm : taylorTerm (fixAngle n 8192 / fixOne) 0 = 1 := by simp [taylorTerm]
  rw [hterm, one_mul, mul_one] at hseries
  refine (abs_sub_le _ (fixOne * Real.cos (fixAngle n 8192 / fixOne)) _).trans
    ((add_le_add (hseries.trans (add_le_add_right hrest _)) hangle).trans ?_)
  rw [fixedError]
  push_cast
  linarith

theorem sinFixed_error : |(sinFixed n : ℝ) - fixOne * Real.sin (angleOf n)| ≤ fixedError n := by
  have hX := fixAngle_le hn
  have hy := fixValue_mem hX
  have hseries := fixSeries_error hX fixTerms 1
  have hrest := fixOne_mul_taylorTerm_le hy (m := 1 + 2 * fixTerms) (by decide)
  have hangle := fixAngle_lipschitz Real.abs_sin_sub_sin_le n
  have hround : |(sinFixed n : ℝ) - fixAngle n 8192 / fixOne *
      fixSeries (fixAngle n 8192 * fixAngle n 8192 / fixOne) fixTerms 2| ≤ 1 := by
    obtain ⟨hlow, hhigh⟩ := natDiv_error
      (fixAngle n 8192 * fixSeries (fixAngle n 8192 * fixAngle n 8192 / fixOne) fixTerms 2) fixOne_pos
    rw [Nat.cast_mul, ← div_mul_eq_mul_div] at hlow hhigh
    rw [sinFixed, abs_le]
    constructor <;> linarith
  have hterm : taylorTerm (fixAngle n 8192 / fixOne) 1 = fixAngle n 8192 / fixOne := by simp [taylorTerm]
  rw [hterm] at hseries
  have hsum := add_le_add (add_le_add hround (hseries.trans (add_le_add_right hrest _))) hangle
  refine (abs_sub_le _ (fixOne * Real.sin (fixAngle n 8192 / fixOne)) _).trans
    ((add_le_add_left (abs_sub_le _ _ _) _).trans (hsum.trans ?_))
  rw [fixedError]
  push_cast
  linarith [hy.2]

end

end Sys2Proof.Machine
end

section
/-! Rounding a fixed-point number that is far from every rounding boundary (R10): the error that it carries changes
nothing. -/

namespace Sys2Proof.Machine

/-- Every multiple of half a unit in the last kept place of `M` is at least `t` away from `M`. -/
def farFromBoundaries (M t : Nat) : Bool :=
  decide (t ≤ M % 2 ^ (M.log2 - 53)) && decide (M % 2 ^ (M.log2 - 53) + t ≤ 2 ^ (M.log2 - 53))

/-- A number within `t` of an `M` that is farther than `t` from all multiples of `g` lies on the same side of
them. -/
theorem sameSide_of_mod {M t g : Nat} {T : ℝ} (ht : 0 < t) (hlow : t ≤ M % g) (hhigh : M % g + t ≤ g)
    (hT : |(M : ℝ) - T| ≤ t) : SameSide M T g := by
  obtain ⟨h₁, h₂⟩ := abs_le.mp hT
  have hdiv : (M : Int) = (M / g : Nat) * g + (M % g : Nat) := by exact_mod_cast (Nat.div_add_mod' M g).symm
  have hg : (0 : Int) ≤ g := Int.natCast_nonneg g
  intro i
  constructor
  · intro hi
    have hq : i ≤ (M / g : Nat) := by
      by_contra hn
      have := mul_le_mul_of_nonneg_right (show ((M / g : Nat) : Int) + 1 ≤ i by omega) hg
      rw [add_mul, one_mul] at this
      omega
    have hgap : i * g ≤ M - t := by
      have := mul_le_mul_of_nonneg_right hq hg
      omega
    have hgap' : (i : ℝ) * g ≤ M - t := by exact_mod_cast hgap
    exact hgap'.trans (by linarith)
  · intro hi
    have hq : ((M / g : Nat) : Int) + 1 ≤ i := by
      by_contra hn
      have := mul_le_mul_of_nonneg_right (show i ≤ (M / g : Nat) by omega) hg
      omega
    have hgap : (M : Int) + t ≤ i * g := by
      have := mul_le_mul_of_nonneg_right hq hg
      rw [add_mul, one_mul] at this
      omega
    have hgap' : (M : ℝ) + t ≤ i * g := by exact_mod_cast hgap
    exact le_trans (by linarith) hgap'

theorem SameSide.mul_right {M g c : Int} {T : ℝ} (h : SameSide M T g) (hc : 0 < c) :
    SameSide (M * c) (T * c) (g * c) := by
  have hc' : (0 : ℝ) < c := by exact_mod_cast hc
  intro i
  obtain ⟨hlow, hhigh⟩ := h i
  rw [← mul_assoc, Int.cast_mul, ← mul_assoc]
  exact ⟨fun hi => mul_le_mul_of_nonneg_right (hlow (le_of_mul_le_mul_right hi hc)) hc'.le,
    fun hi => mul_le_mul_of_nonneg_right (hhigh (le_of_mul_le_mul_right hi hc)) hc'.le⟩

theorem log2_mul_pow {n : Nat} (h : n ≠ 0) (k : Nat) : (n * 2 ^ k).log2 = n.log2 + k := by
  rw [Nat.log2_eq_iff (by positivity), add_right_comm, pow_add, pow_add _ _ k]
  exact ⟨Nat.mul_le_mul_right _ (Nat.log2_self_le h),
    Nat.mul_lt_mul_of_pos_right Nat.lt_log2_self (by positivity)⟩

theorem finiteUnits_roundDyadic_fixed_ne_none {M : Nat} (hM : M ≤ fixOne) :
    finiteUnits (roundDyadic false M 192) ≠ none := by
  rw [ne_eq, finiteUnits_roundDyadic_eq_none_iff, not_le]
  calc M ≤ 1 * 2 ^ 192 := by rwa [one_mul]
    _ < (2 ^ 54 - 1) * 2 ^ 970 * 2 ^ 192 := Nat.mul_lt_mul_of_pos_right
      ((show 1 < 2 ^ 54 - 1 by norm_num).trans_le (Nat.le_mul_of_pos_right _ (by positivity)))
      (by positivity)

/-- A fixed-point number and a real number on the same side of every multiple of half a unit in the last kept
place round alike: the rounding of the one is nearest to the other. -/
theorem SameSide.nearest_fixed {M : Nat} {r : ℝ} (hM : M ≤ fixOne) (hlog : 53 ≤ M.log2)
    (h : SameSide M (fixOne * r) (2 ^ (M.log2 - 53) : Nat)) :
    ∃ u, finiteUnits (roundDyadic false M 192) = some u ∧ ∀ z v, finiteUnits z = some v →
      |r * 2 ^ 1074 - (u : ℝ)| ≤ |r * 2 ^ 1074 - (v : ℝ)| := by
  obtain ⟨u, hu⟩ := Option.ne_none_iff_exists'.mp (finiteUnits_roundDyadic_fixed_ne_none hM)
  have hdrop : droppedBits (M * 2 ^ 882) 0 = M.log2 - 53 + 882 + 1 := by
    rw [droppedBits, log2_mul_pow (by rintro rfl; simp at hlog)]
    omega
  have hscale : (fixOne : ℝ) * r * ((2 ^ 882 : Int) : ℝ) = r * 2 ^ 1074 := by
    rw [show (fixOne : ℝ) = 2 ^ 192 by norm_num [fixOne, fixBits], mul_comm _ r, mul_assoc, Int.cast_pow,
      Int.cast_ofNat, ← pow_add]
  have hside := h.mul_right (c := 2 ^ 882) (by positivity)
  rw [hscale, Nat.cast_pow, Nat.cast_ofNat, ← pow_add] at hside
  have hkept := finiteUnits_roundDyadic hu
  rw [show 1074 - 192 = 882 from rfl, show 192 - 1074 = 0 from rfl, Nat.sub_zero, hdrop] at hkept
  subst hkept
  refine ⟨_, hu, fun z v hz => ?_⟩
  exact SameSide.roundHalfEven_nearest hdrop (by exact_mod_cast hside) hz

/-- A fixed-point number farther from every rounding boundary than from a real number rounds to a value nearest
to it. -/
theorem nearestToReal_of_far {M t : Nat} {r : ℝ} (ht : 0 < t) (hM : M ≤ fixOne)
    (hfar : farFromBoundaries M t = true) (hr : |(M : ℝ) - fixOne * r| ≤ t) :
    NearestToReal r (roundDyadic false M 192) := by
  simp only [farFromBoundaries, Bool.and_eq_true, decide_eq_true_eq] at hfar
  obtain ⟨hlow, hhigh⟩ := hfar
  have hlog : 53 ≤ M.log2 := by
    by_contra hn
    rw [show M.log2 - 53 = 0 by omega, pow_zero, Nat.mod_one] at hlow
    omega
  refine ⟨(sameSide_of_mod ht hlow hhigh hr).nearest_fixed hM hlog, ?_⟩
  rintro rfl
  exfalso
  have hMt : M ≤ t := by simpa using hr
  have hpow := Nat.log2_self_le (n := M) (by rintro rfl; simp at hlog)
  rw [← Nat.sub_add_cancel hlog, pow_add] at hpow
  have := Nat.two_pow_pos (M.log2 - 53)
  omega

end Sys2Proof.Machine
end

section
/-! Every twiddle is nearest to the real cosine and the negated real sine (42_spectrum.md R167, R7; log 7). -/

namespace Sys2Proof.Machine

/-! ### Every value of the first octant -/

/-- The values that `cosEighth` and `sinEighth` round at `n` are farther from every rounding boundary than their
error. -/
def eighthFar (n : Nat) : Bool :=
  farFromBoundaries (cosFixed n) (fixedError n) && farFromBoundaries (sinFixed n) (fixedError n)

/-- How near a cosine or sine comes to a rounding boundary is a property of its digits that no bound in `n` gives,
so the values of R7's largest frame size are computed one by one. -/
theorem all_eighthFar : (List.range 1024).all (fun n => eighthFar (n + 1)) = true := by decide +kernel

theorem eighthFar_of_le {n : Nat} (h0 : n ≠ 0) (hn : n ≤ 1024) : eighthFar n = true := by
  obtain ⟨k, rfl⟩ := Nat.exists_eq_succ_of_ne_zero h0
  exact List.all_eq_true.mp all_eighthFar k (List.mem_range.mpr hn)

theorem nearestToReal_of_eq {r : ℝ} {x : F64} {u : Int} (hx : finiteUnits x = some u)
    (hr : r * 2 ^ 1074 = u) (h0 : r = 0 → x = 0) : NearestToReal r x :=
  ⟨⟨u, hx, fun z v _ => by rw [hr, sub_self, abs_zero]; exact abs_nonneg _⟩, h0⟩

theorem cosEighth_nearest {n : Nat} (hn : n ≤ 1024) :
    NearestToReal (Real.cos (angleOf n)) (cosEighth n 8192) := by
  rcases eq_or_ne n 0 with rfl | h0
  · rw [show cosEighth 0 8192 = 0x3FF0000000000000 by decide +kernel,
      show angleOf 0 = 0 by simp [angleOf], Real.cos_zero]
    exact nearestToReal_of_eq finiteUnits_one (by rw [one_mul, Int.cast_pow, Int.cast_ofNat])
      fun h => absurd h one_ne_zero
  · obtain ⟨hcos, -⟩ := Bool.and_eq_true_iff.mp (eighthFar_of_le h0 hn)
    rw [cosEighth_eq]
    exact nearestToReal_of_far (fixedError_pos n) (fixSeries_le _ _ _) hcos (cosFixed_error hn)

theorem sinEighth_nearest {n : Nat} (hn : n ≤ 1024) :
    NearestToReal (Real.sin (angleOf n)) (sinEighth n 8192) := by
  rcases eq_or_ne n 0 with rfl | h0
  · rw [show sinEighth 0 8192 = 0 by decide +kernel, show angleOf 0 = 0 by simp [angleOf], Real.sin_zero]
    exact nearestToReal_of_eq finiteUnits_zero (by simp) fun _ => rfl
  · obtain ⟨-, hsin⟩ := Bool.and_eq_true_iff.mp (eighthFar_of_le h0 hn)
    rw [sinEighth_eq]
    exact nearestToReal_of_far (fixedError_pos n) (sinFixed_le hn) hsin (sinFixed_error hn)

/-! ### The octants -/

/-- Binary64 is symmetric, and the negated value of an exact zero is +0.0. -/
theorem NearestToReal.negNonzero {r : ℝ} {x : F64} (h : NearestToReal r x) :
    NearestToReal (-r) (negNonzero x) := by
  obtain ⟨⟨u, hu, hnear⟩, h0⟩ := h
  have hneg : finiteUnits (Machine.negNonzero x) = some (-u) := by
    unfold Machine.negNonzero
    split_ifs with hx
    · rw [hx, finiteUnits_zero, Option.some.injEq] at hu
      rw [← hu]
      rfl
    · exact finiteUnits_fneg hu
  refine ⟨⟨-u, hneg, fun z v hz => ?_⟩, fun hr => ?_⟩
  · have hz' := hnear (fneg z) (-v) (finiteUnits_fneg hz)
    rw [Int.cast_neg, sub_neg_eq_add] at hz'
    rw [Int.cast_neg, neg_mul, sub_neg_eq_add, neg_add_eq_sub, ← neg_add', abs_neg, abs_sub_comm]
    exact hz'
  · rw [h0 (neg_eq_zero.mp hr)]
    rfl

/-- The twiddles of R7's largest frame size: each octant gives the cosine and the sine of a reduced angle. -/
theorem twiddle_nearest {j : Nat} (hj : j < 4096) :
    NearestToReal (Real.cos (angleOf j)) (twiddle j 8192).1 ∧
    NearestToReal (-Real.sin (angleOf j)) (twiddle j 8192).2 := by
  unfold twiddle
  split_ifs with h₁ h₂ h₃ <;> dsimp only
  · exact ⟨cosEighth_nearest (by omega), (sinEighth_nearest (by omega)).negNonzero⟩
  · obtain ⟨n, hn⟩ : ∃ n, j + n = 2048 := ⟨2048 - j, by omega⟩
    have hangle : angleOf j = Real.pi / 2 - angleOf n := by
      have : (j : ℝ) + n = 2048 := by exact_mod_cast hn
      unfold angleOf
      rw [show (j : ℝ) = 2048 - n by linarith]
      ring
    rw [show 8192 - 4 * j = n * 4 by omega, mul_comm 4 8192, sinEighth_mul_right _ _ (by norm_num),
      cosEighth_mul_right _ _ (by norm_num), hangle, Real.cos_pi_div_two_sub, Real.sin_pi_div_two_sub]
    exact ⟨sinEighth_nearest (by omega), (cosEighth_nearest (by omega)).negNonzero⟩
  · obtain ⟨n, rfl⟩ : ∃ n, j = 2048 + n := ⟨j - 2048, by omega⟩
    have hangle : angleOf (2048 + n) = angleOf n + Real.pi / 2 := by
      unfold angleOf
      push_cast
      ring
    rw [show 4 * (2048 + n) - 8192 = n * 4 by omega, mul_comm 4 8192, sinEighth_mul_right _ _ (by norm_num),
      cosEighth_mul_right _ _ (by norm_num), hangle, Real.cos_add_pi_div_two, Real.sin_add_pi_div_two]
    exact ⟨(sinEighth_nearest (by omega)).negNonzero, (cosEighth_nearest (by omega)).negNonzero⟩
  · obtain ⟨n, hn⟩ : ∃ n, j + n = 4096 := ⟨4096 - j, by omega⟩
    have hangle : angleOf j = Real.pi - angleOf n := by
      have : (j : ℝ) + n = 4096 := by exact_mod_cast hn
      unfold angleOf
      rw [show (j : ℝ) = 4096 - n by linarith]
      ring
    rw [show 8192 - 2 * j = n * 2 by omega, mul_comm 2 8192, sinEighth_mul_right _ _ (by norm_num),
      cosEighth_mul_right _ _ (by norm_num), hangle, Real.cos_pi_sub, Real.sin_pi_sub]
    exact ⟨(cosEighth_nearest (by omega)).negNonzero, (sinEighth_nearest (by omega)).negNonzero⟩

/-- Settles O60: a twiddle of a smaller frame size is one of the largest (R167). -/
theorem twiddleIsNearest : Obligations.TwiddleIsNearest := by
  intro e j he he13 hj
  have hscale : 2 ^ e * 2 ^ (13 - e) = 8192 := by rw [← pow_add, Nat.add_sub_cancel' he13]; norm_num
  have hangle : 2 * Real.pi * j / 2 ^ e = angleOf (j * 2 ^ (13 - e)) := by
    have hscale' : (2 : ℝ) ^ e * 2 ^ (13 - e) = 8192 := by exact_mod_cast hscale
    rw [angleOf, ← hscale']
    push_cast
    field_simp
  rw [hangle, ← twiddle_mul_right j (2 ^ e) (Nat.two_pow_pos (13 - e)), hscale]
  refine twiddle_nearest ?_
  have hhalf := Nat.mul_lt_mul_of_pos_right hj (Nat.two_pow_pos (13 - e))
  have hdvd : 2 ^ e / 2 * 2 = 2 ^ e := Nat.div_mul_cancel (dvd_pow_self 2 (by omega))
  rw [← hdvd] at hscale
  linarith

end Sys2Proof.Machine
end

section
/-! PEAKS' checks (43_peaks.md R190). -/

namespace Sys2Proof.Machine

theorem peaks_mem_stagesOf {i : Instr} (hi : i ∈ [Instr.peaks, .run]) :
    i ∈ [Instr.run, .filter, .spectrum, .peaks, .hash] ∧ Stage.peaks ∈ stagesOf i.opcode := by
  fin_cases hi <;> decide

/-- R190 with no check that fails. -/
theorem peaksChecks_eq_none {s : State} (h0 : s.cfg.numBands.toNat ≠ 0)
    (hspec : peakEntries s ≤ s.caps.spec.toNat) (hpeaks : peakCount s ≤ s.caps.peaks.toNat) :
    peaksChecks s = none := by
  rw [peaksChecks, if_neg h0, if_neg hspec.not_gt, if_neg hpeaks.not_gt]

/-- Settles O41: the first check that fails decides the error completion. -/
theorem peaksChecksInOrder : Obligations.PeaksChecksInOrder := by
  intro s i hi hs nb f b p fails
  obtain ⟨hcmd, hst⟩ := peaks_mem_stagesOf hi
  have hfail {code : ErrCode} {info : Word} (h : peaksChecks s = some (code, info)) : fails code info :=
    exec_stage_error hcmd hst hs (peaksStage_error (s := s.newEpoch) h)
  refine ⟨fun h0 => hfail ?_, fun h0 => ⟨fun hspec => hfail ?_, fun hspec hpeaks => hfail ?_⟩⟩
  · exact if_pos h0
  · rw [peaksChecks, if_neg h0]
    exact if_pos hspec
  · have hspec' : peakEntries s ≤ s.caps.spec.toNat := hspec
    rw [peaksChecks, if_neg h0, if_neg hspec'.not_gt]
    exact if_pos hpeaks

end Sys2Proof.Machine
end

section
/-! The strongest bin of a band (43_peaks.md R192): the order of `fgt` on the values that are no NaN, and the
scan's invariant. -/

namespace Sys2Proof.Machine

/-! ### The order of the comparison -/

/-- The place of a binary64 value in the order of R10's comparison, from -inf to +inf; a NaN has none. -/
def orderRank (x : F64) : Option (WithBot (WithTop Int)) :=
  match unpack x with
  | .nan => none
  | .inf neg => some (if neg then ⊥ else ⊤)
  | .fin neg m e => some ((unitsOf neg m e : WithTop Int) : WithBot (WithTop Int))

theorem orderRank_eq_none_iff (x : F64) : orderRank x = none ↔ unpack x = .nan := by
  unfold orderRank
  cases unpack x <;> simp

/-- R10: the comparison is the order of the ranks, and false without one. -/
theorem fgt_eq_true_iff (a b : F64) :
    fgt a b = true ↔ ∃ x y, orderRank a = some x ∧ orderRank b = some y ∧ y < x := by
  unfold fgt orderRank
  cases unpack a with
  | nan => simp
  | inf s =>
    cases unpack b with
    | nan => simp
    | inf t => cases s <;> cases t <;> simp
    | fin t n f => cases s <;> simp [← WithBot.coe_top]
  | fin s m e =>
    cases unpack b with
    | nan => simp
    | inf t => cases t <;> simp
    | fin t n f => simp

theorem fgt_asymm {a b : F64} (h : fgt a b = true) : fgt b a = false := by
  obtain ⟨x, y, ha, hb, hlt⟩ := (fgt_eq_true_iff a b).mp h
  rw [← Bool.not_eq_true, fgt_eq_true_iff, ha, hb]
  rintro ⟨_, _, ⟨⟩, ⟨⟩, hgt⟩
  exact lt_asymm hlt hgt

/-- A value above one that `c` does not exceed is above `c`, unless `c` is a NaN. -/
theorem fgt_of_fgt_of_not_fgt {a b c : F64} (h : fgt a b = true) (hc : fgt c b = false) :
    fgt a c = true ∨ unpack c = .nan := by
  obtain ⟨x, y, ha, hb, hlt⟩ := (fgt_eq_true_iff a b).mp h
  rw [← orderRank_eq_none_iff]
  cases hz : orderRank c with
  | none => exact .inr rfl
  | some z =>
    have hzy : z ≤ y := not_lt.mp fun hyz =>
      Bool.false_ne_true (hc.symm.trans ((fgt_eq_true_iff c b).mpr ⟨z, y, hz, hb, hyz⟩))
    exact .inl ((fgt_eq_true_iff a c).mpr ⟨x, z, ha, hz, hzy.trans_lt hlt⟩)

/-! ### The scan -/

theorem strongest_singleton (mag : List F64) (lo : Nat) : strongest mag lo (lo + 1) = lo := by
  simp [strongest]

/-- One more bin at the end of the band: the scan moves to it when it is greater. -/
theorem strongest_succ (mag : List F64) {lo hi : Nat} (h : lo < hi) : strongest mag lo (hi + 1) =
    if fgt (mag.getD hi 0) (mag.getD (strongest mag lo hi) 0) then hi else strongest mag lo hi := by
  rw [strongest, show hi + 1 - (lo + 1) = hi - (lo + 1) + 1 by omega, List.range'_1_concat,
    List.foldl_append, show lo + 1 + (hi - (lo + 1)) = hi by omega]
  rfl

/-- What R192 asks of the choice `best` among the bins `lo` to `hi - 1`. -/
structure IsStrongest (mag : List F64) (lo hi best : Nat) : Prop where
  low : lo ≤ best
  high : best < hi
  maximal : ∀ k, lo ≤ k → k < hi → fgt (mag.getD k 0) (mag.getD best 0) = false
  first : ∀ k, lo ≤ k → k < best →
    fgt (mag.getD best 0) (mag.getD k 0) = true ∨ unpack (mag.getD k 0) = .nan
  nanFirst : unpack (mag.getD lo 0) = .nan → best = lo

theorem IsStrongest.singleton (mag : List F64) (lo : Nat) : IsStrongest mag lo (lo + 1) lo where
  low := le_rfl
  high := Nat.lt_succ_self lo
  maximal k h₁ h₂ := by
    rw [show k = lo by omega, ← Bool.not_eq_true]
    exact fun h => Bool.false_ne_true ((fgt_asymm h).symm.trans h)
  first k h₁ h₂ := absurd h₂ h₁.not_gt
  nanFirst _ := rfl

section
variable {mag : List F64} {lo hi best : Nat} (h : IsStrongest mag lo hi best)
include h

/-- The choice stands when the next bin is not greater. -/
theorem IsStrongest.keep (hn : fgt (mag.getD hi 0) (mag.getD best 0) = false) :
    IsStrongest mag lo (hi + 1) best where
  low := h.low
  high := h.high.trans (Nat.lt_succ_self hi)
  maximal k h₁ h₂ := by
    rcases (Nat.lt_succ_iff.mp h₂).eq_or_lt with rfl | hk
    · exact hn
    · exact h.maximal k h₁ hk
  first := h.first
  nanFirst := h.nanFirst

/-- The next bin, when it is greater than the choice, is greater than every number before it. -/
theorem IsStrongest.replace (hg : fgt (mag.getD hi 0) (mag.getD best 0) = true) :
    IsStrongest mag lo (hi + 1) hi := by
  have hfirst (k : Nat) (h₁ : lo ≤ k) (h₂ : k < hi) :=
    fgt_of_fgt_of_not_fgt hg (h.maximal k h₁ h₂)
  refine ⟨(h.low.trans_lt h.high).le, Nat.lt_succ_self hi, fun k h₁ h₂ => ?_, hfirst, fun hnan => ?_⟩
  · rcases (Nat.lt_succ_iff.mp h₂).eq_or_lt with rfl | hk
    · exact (IsStrongest.singleton mag k).maximal k le_rfl (Nat.lt_succ_self k)
    · rcases hfirst k h₁ hk with hlt | hnan
      · exact fgt_asymm hlt
      · exact fgt_nan_left hnan _
  · rw [h.nanFirst hnan, fgt_nan_right hnan] at hg
    exact absurd hg Bool.false_ne_true

end

/-- The scan makes R192's choice. -/
theorem isStrongest_strongest (mag : List F64) {lo hi : Nat} (h : lo < hi) :
    IsStrongest mag lo hi (strongest mag lo hi) := by
  induction hi, h using Nat.le_induction with
  | base =>
    rw [Nat.succ_eq_add_one, strongest_singleton]
    exact .singleton mag lo
  | succ hi hlo ih =>
    rw [strongest_succ mag hlo]
    split_ifs with hg
    · exact ih.replace hg
    · exact ih.keep (Bool.not_eq_true _ ▸ hg)

end Sys2Proof.Machine
end

section
/-! The records of a frame and of all frames (43_peaks.md R191, R193, R194): one for every non-empty band, in
scan order. -/

namespace Sys2Proof.Machine

/-! ### The bands -/

theorem bandHigh_of_lt {bins nb b : Nat} (h : b + 1 < nb) : bandHigh bins nb b = bandLow bins nb (b + 1) :=
  if_pos (by omega)

/-- R191 with the condition of the statements. -/
theorem bandHigh_eq (bins nb b : Nat) :
    bandHigh bins nb b = if b + 1 < nb then (b + 1) * (bins / nb) else bins :=
  if_congr Nat.lt_sub_iff_add_lt rfl rfl

theorem bandHigh_le {bins nb b : Nat} : bandHigh bins nb b ≤ bins := by
  rw [bandHigh_eq]
  split_ifs with h
  · exact (Nat.mul_le_mul_right _ h.le).trans (Nat.mul_div_le bins nb)
  · exact le_rfl

/-- Bands are disjoint and ascending. -/
theorem bandHigh_le_bandLow {bins nb b c : Nat} (hbc : b < c) (hc : c < nb) :
    bandHigh bins nb b ≤ bandLow bins nb c := by
  rw [bandHigh_of_lt (by omega)]
  exact Nat.mul_le_mul_right _ hbc

/-- R194: with at least as many bins as bands every band holds a bin. -/
theorem bandLow_lt_bandHigh {bins nb b : Nat} (hb : b < nb) (hs : 1 ≤ bins / nb) :
    bandLow bins nb b < bandHigh bins nb b := by
  have hnext : bandLow bins nb b < (b + 1) * (bins / nb) :=
    Nat.mul_lt_mul_of_pos_right (Nat.lt_succ_self b) hs
  rw [bandHigh_eq]
  split_ifs with h
  · exact hnext
  · exact hnext.trans_le ((Nat.mul_le_mul_right _ hb).trans (Nat.mul_div_le bins nb))

/-- R194: with fewer bins than bands a bin lies in the last band alone. -/
theorem bandLow_lt_bandHigh_iff {bins nb b : Nat} (hb : b < nb + 1) (hs : bins / (nb + 1) = 0) :
    bandLow bins (nb + 1) b < bandHigh bins (nb + 1) b ↔ b = nb ∧ 1 ≤ bins := by
  rw [bandHigh_eq, bandLow, hs, mul_zero, mul_zero]
  split_ifs <;> omega

/-! ### The records of one frame -/

/-- The record of band `b` (R193), when the band holds a bin. -/
def bandPeak (nb f : Nat) (mag : List F64) (b : Nat) : Peak :=
  let best := strongest mag (bandLow mag.length nb b) (bandHigh mag.length nb b)
  { frame := f, bin := best, mag := mag.getD best 0 }

/-- The bands of a frame that hold a bin. -/
def fullBands (bins nb : Nat) : List Nat :=
  (List.range nb).filter fun b => decide (bandLow bins nb b < bandHigh bins nb b)

theorem framePeaks_eq_map (nb f : Nat) (mag : List F64) :
    framePeaks nb f mag = (fullBands mag.length nb).map (bandPeak nb f mag) := by
  rw [framePeaks, fullBands, ← List.filterMap_eq_map, ← List.filterMap_eq_filter, List.filterMap_filterMap]
  refine List.filterMap_congr fun b _ => ?_
  by_cases h : bandLow mag.length nb b < bandHigh mag.length nb b <;> simp [h, bandPeak, Option.guard]

theorem mem_fullBands {bins nb b : Nat} :
    b ∈ fullBands bins nb ↔ b < nb ∧ bandLow bins nb b < bandHigh bins nb b := by
  simp [fullBands]

theorem fullBands_eq_range {bins nb : Nat} (hs : 1 ≤ bins / nb) : fullBands bins nb = List.range nb :=
  List.filter_eq_self.mpr fun _ hb => decide_eq_true (bandLow_lt_bandHigh (List.mem_range.mp hb) hs)

theorem fullBands_eq_last {bins nb : Nat} (hs : bins / (nb + 1) = 0) :
    fullBands bins (nb + 1) = if 1 ≤ bins then [nb] else [] := by
  have hlast : fullBands bins (nb + 1) =
      (List.range (nb + 1)).filter fun b => decide (b = nb ∧ 1 ≤ bins) :=
    List.filter_congr fun b hb =>
      decide_eq_decide.mpr (bandLow_lt_bandHigh_iff (List.mem_range.mp hb) hs)
  rw [hlast]
  split_ifs with hb
  · simp [hb, List.filter_eq, List.count_eq_one_of_mem List.nodup_range List.self_mem_range_succ]
  · simp [hb]

/-- R194's number of peaks per frame. -/
theorem length_fullBands {nb : Nat} (hnb : 0 < nb) (bins : Nat) :
    (fullBands bins nb).length = peaksPerFrame bins nb := by
  obtain ⟨n, rfl⟩ := Nat.exists_eq_add_one.mpr hnb
  rcases Nat.eq_zero_or_pos (bins / (n + 1)) with hs | hs
  · rw [peaksPerFrame, hs, if_neg (by decide), fullBands_eq_last hs]
    split_ifs <;> rfl
  · rw [fullBands_eq_range hs, List.length_range, peaksPerFrame, if_pos (Nat.succ_le_of_lt hs)]

theorem length_framePeaks {nb : Nat} (hnb : 0 < nb) (f : Nat) (mag : List F64) :
    (framePeaks nb f mag).length = peaksPerFrame mag.length nb := by
  rw [framePeaks_eq_map, List.length_map, length_fullBands hnb]

/-- The strongest bin of a band is a bin of the frame, and its record holds its magnitude. -/
theorem bandPeak_bin {nb b : Nat} (f : Nat) {mag : List F64} (h : b ∈ fullBands mag.length nb) :
    bandLow mag.length nb b ≤ (bandPeak nb f mag b).bin ∧
    (bandPeak nb f mag b).bin < bandHigh mag.length nb b ∧
    mag[(bandPeak nb f mag b).bin]? = some (bandPeak nb f mag b).mag := by
  have hbest := isStrongest_strongest mag (mem_fullBands.mp h).2
  have hlt := hbest.high.trans_le bandHigh_le
  refine ⟨hbest.low, hbest.high, (List.getElem?_eq_getElem hlt).trans (congrArg some ?_)⟩
  exact (List.getD_eq_getElem mag 0 hlt).symm

theorem bandPeak_eq_iff {nb b f : Nat} {mag : List F64} {p : Peak} (h : b ∈ fullBands mag.length nb) :
    bandPeak nb f mag b = p ↔ p.frame = f ∧
      p.bin = strongest mag (bandLow mag.length nb b) (bandHigh mag.length nb b) ∧
      mag[p.bin]? = some p.mag := by
  obtain ⟨-, -, hmag⟩ := bandPeak_bin f h
  constructor
  · rintro rfl
    exact ⟨rfl, rfl, hmag⟩
  · obtain ⟨frame, bin, m⟩ := p
    rintro ⟨rfl, rfl, hm⟩
    cases hmag.symm.trans hm
    rfl

/-- A frame's records are those of the bands that hold a bin. -/
theorem mem_framePeaks {nb f : Nat} {mag : List F64} {p : Peak} : p ∈ framePeaks nb f mag ↔
    ∃ b ∈ fullBands mag.length nb, p.frame = f ∧
      p.bin = strongest mag (bandLow mag.length nb b) (bandHigh mag.length nb b) ∧
      mag[p.bin]? = some p.mag := by
  rw [framePeaks_eq_map, List.mem_map]
  exact exists_congr fun b => and_congr_right bandPeak_eq_iff

/-- R193: a record of a frame names the frame and a bin of it, with the bin's magnitude. -/
theorem framePeaks_record {nb f : Nat} {mag : List F64} {p : Peak} (h : p ∈ framePeaks nb f mag) :
    p.frame = f ∧ p.bin < mag.length ∧ mag[p.bin]? = some p.mag := by
  obtain ⟨b, hb, hframe, -, hmag⟩ := mem_framePeaks.mp h
  exact ⟨hframe, (List.getElem?_eq_some_iff.mp hmag).1, hmag⟩

/-- R194: within a frame the bins strictly increase. -/
theorem framePeaks_bins_increase (nb f : Nat) (mag : List F64) :
    (framePeaks nb f mag).Pairwise (fun p q => p.bin < q.bin) := by
  have hbands : (fullBands mag.length nb).Pairwise (· < ·) := List.pairwise_lt_range.filter _
  rw [framePeaks_eq_map, List.pairwise_map]
  refine hbands.imp_of_mem fun {b c} hb hc hbc => ?_
  obtain ⟨-, hhigh, -⟩ := bandPeak_bin f hb
  obtain ⟨hlow, -⟩ := bandPeak_bin f hc
  exact hhigh.trans_le ((bandHigh_le_bandLow hbc (mem_fullBands.mp hc).1).trans hlow)

/-- Settles O43: the bands that hold a bin give the records, and the scan's invariant the choice. -/
theorem strongestBin : Obligations.StrongestBin := by
  refine ⟨fun nb f mag p => ?_, fun mag lo hi h => ?_⟩
  · simp only [mem_framePeaks, mem_fullBands, bandHigh_eq, bandLow, and_assoc]
  · obtain ⟨hlow, hhigh, hmax, hfirst, hnan⟩ := isStrongest_strongest mag h
    exact ⟨hlow, hhigh, hmax, hfirst, hnan⟩

/-- Settles O44: frames are scanned in order, and the bands of a frame in order. -/
theorem peaksScanOrder : Obligations.PeaksScanOrder := by
  refine ⟨fun nb f mag hnb => ⟨length_framePeaks hnb f mag, fun p hp => framePeaks_record hp⟩,
    fun frames bins nb entries => List.pairwise_flatMap.mpr ⟨fun f _ => ?_, ?_⟩⟩
  · refine (framePeaks_bins_increase nb f _).imp_of_mem fun hp hq hbin => ?_
    exact ⟨((framePeaks_record hp).1.trans (framePeaks_record hq).1.symm).le, fun _ => hbin⟩
  · refine List.pairwise_lt_range.imp fun {f g} hfg p hp q hq => ?_
    have hframe : p.frame < q.frame := by
      rwa [(framePeaks_record hp).1, (framePeaks_record hq).1]
    exact ⟨hframe.le, fun h => absurd h hframe.ne⟩

end Sys2Proof.Machine
end

section
/-! PEAKS completes (43_peaks.md R193): the rows it reads, and every record it writes. -/

namespace Sys2Proof.Machine

/-! ### What the stage reads -/

theorem length_refRow (m : Memory) (bins f : Nat) : (refRow m bins f).length = bins := by simp [refRow]

theorem peakEntries_isSome {s : State}
    (h : ∀ e, e < peakEntries s → (specAt s.mem e).isSome = true) :
    ∃ entries, collectFrom (specAt s.mem) 0 (peakEntries s) = some entries :=
  Option.isSome_iff_exists.mp ((collectFrom_isSome_iff _ _ _).mpr fun e he => by simpa using h e he)

/-- Entry `k` of row `f` lies in the spectrogram. -/
theorem rowEntry_lt {f frames k bins : Nat} (hf : f < frames) (hk : k < bins) :
    f * bins + k < frames * bins := by
  have hrow := Nat.mul_le_mul_right bins (Nat.succ_le_of_lt hf)
  rw [Nat.succ_mul] at hrow
  omega

/-- R80: row `f` of the entries that the stage reads is the reference row. -/
theorem row_eq_refRow {m : Memory} {frames bins f : Nat} {entries : List F64}
    (he : collectFrom (specAt m) 0 (frames * bins) = some entries) (hf : f < frames) :
    (entries.drop (f * bins)).take bins = refRow m bins f := by
  obtain ⟨hl, hentries⟩ := (collectFrom_eq_some_iff _ _ _ _).mp he
  refine List.ext_getElem? fun k => ?_
  by_cases hk : k < bins
  · have hlt := (rowEntry_lt hf hk).trans_eq hl.symm
    have hentry := hentries _ hlt
    rw [zero_add] at hentry
    simp [refRow, List.getElem?_take_of_lt hk, hk, hentry, hlt]
  · rw [List.getElem?_take_eq_none (by omega), List.getElem?_eq_none (by rw [length_refRow]; omega)]

/-- R193: the records the stage writes are the reference records. -/
theorem allPeaks_eq_refPeaks {s : State} {entries : List F64}
    (he : collectFrom (specAt s.mem) 0 (peakEntries s) = some entries) :
    allPeaks s.len.numFrames.toNat s.len.numBins.toNat s.cfg.numBands.toNat entries = refPeaks s := by
  rw [allPeaks, refPeaks, List.flatMap_def, List.flatMap_def]
  refine congrArg List.flatten (List.map_congr_left fun f hf => ?_)
  rw [row_eq_refRow he (List.mem_range.mp hf)]

/-! ### The records -/

/-- R190's P. -/
theorem length_refPeaks {s : State} (h : s.cfg.numBands ≠ 0) : (refPeaks s).length = peakCount s := by
  have hrow (f : Nat) : (framePeaks s.cfg.numBands.toNat f (refRow s.mem s.len.numBins.toNat f)).length =
      peaksPerFrame s.len.numBins.toNat s.cfg.numBands.toNat := by
    rw [length_framePeaks (Nat.pos_of_ne_zero (toNat_ne_zero h)), length_refRow]
  simp [refPeaks, peakCount, List.length_flatMap, hrow]

/-- A record names a frame and a bin of it, with the magnitude of that entry of SPEC. -/
theorem refPeaks_record {s : State} (h : ∀ e, e < peakEntries s → (specAt s.mem e).isSome = true)
    {r : Peak} (hr : r ∈ refPeaks s) : r.frame < s.len.numFrames.toNat ∧ r.bin < s.len.numBins.toNat ∧
      specAt s.mem (r.frame * s.len.numBins.toNat + r.bin) = some r.mag := by
  obtain ⟨f, hf, hr⟩ := List.mem_flatMap.mp hr
  obtain ⟨rfl, hbin, hmag⟩ := framePeaks_record hr
  rw [length_refRow] at hbin
  have hf := List.mem_range.mp hf
  obtain ⟨x, hx⟩ := Option.isSome_iff_exists.mp (h _ (rowEntry_lt hf hbin))
  have hx' : x = r.mag := by simpa [refRow, hbin, hx] using hmag
  exact ⟨hf, hbin, hx' ▸ hx⟩

/-! ### What the stage writes -/

/-- Word `j` of record `p` in the records laid end to end (R81). -/
theorem memWord_peakRecord {ps : List Peak} {p : Nat} {r : Peak} (hr : ps[p]? = some r) (m : Memory)
    {j : Nat} (hj : j < 4) : memWord (memPutWords m Ram.peak.base (ps.flatMap peakWords))
      (Ram.peak.entry p + 4 * j) = (peakWords r)[j]? := by
  have hword : (ps.flatMap peakWords)[p * 4 + j]? = (peakWords r)[j]? := by
    rw [List.flatMap_def, getElem?_flatten_of_length (n := 4) (List.forall_mem_map.mpr fun _ _ => rfl) p hj,
      List.getElem?_map, hr]
    rfl
  have hlt : p * 4 + j < (ps.flatMap peakWords).length := by
    have := (List.getElem?_eq_some_iff.mp hr).1
    rw [length_flatMap_peakWords]
    omega
  rw [← hword, List.getElem?_eq_getElem hlt, ← memWord_memPutWords_inside _ m Ram.peak.base _ hlt]
  congr 1
  simp only [Ram.entry, Ram.entryBytes]
  omega

/-- R81: a record's words as the stage leaves them. -/
theorem peakRecord_written {ps : List Peak} {p : Nat} {r : Peak} (hr : ps[p]? = some r) (s : State) :
    peakFrameAt (peaksWrite s ps).mem p = some (BitVec.ofNat 32 r.frame) ∧
    peakBinAt (peaksWrite s ps).mem p = some (BitVec.ofNat 32 r.bin) ∧
    peakMagAt (peaksWrite s ps).mem p = some r.mag := by
  have hword {j : Nat} (hj : j < 4) := memWord_peakRecord hr s.mem hj
  refine ⟨hword (j := 0) (by omega), hword (j := 1) (by omega), ?_⟩
  rw [peakMagAt, memF64, peaksWrite_mem, hword (j := 2) (by omega), add_assoc, hword (j := 3) (by omega)]
  exact congrArg some (f64Words_join r.mag)

/-- Settles O42: the records of every frame in turn are written from entry 0 of PEAK on. -/
theorem peaksResult : Obligations.PeaksResult := by
  intro s i hi hs h0 hspec hpeaks hentries ps
  obtain ⟨hcmd, hst⟩ := peaks_mem_stagesOf hi
  obtain ⟨entries, he⟩ := peakEntries_isSome hentries
  have hexec := exec_stage_done hcmd hst hs (peaksStage_done (s := s.newEpoch)
    (peaksChecks_eq_none (toNat_ne_zero h0) hspec hpeaks) he)
  rw [State.newEpoch_cfg, State.newEpoch_len, allPeaks_eq_refPeaks he] at hexec
  refine ⟨length_refPeaks h0, fun r hr => refPeaks_record hentries hr, _, hexec, rfl, rfl,
    fun p r hr => peakRecord_written hr s.newEpoch, fun a ha => ?_, rfl, rfl, rfl, rfl, rfl, rfl, rfl⟩
  refine memByte_memPutWords_outside _ _ _ _ ?_
  rwa [length_flatMap_peakWords, length_refPeaks h0, ← mul_assoc]

end Sys2Proof.Machine
end

section
/-! The hash word and the pair scan (44_hash.md R207, R209 to R211). -/

namespace Sys2Proof.Machine

/-! ### The hash word -/

/-- R211: each clipped field lies below the shift of the next, so that the disjunction is a sum. -/
theorem pack_eq_refHash (a t dt : Nat) : pack a t dt = refHash a t dt := by
  have hdt : min dt 0x3FFF < 2 ^ 14 := by omega
  have hlow : min t 0x1FF * 2 ^ 14 + min dt 0x3FFF < 2 ^ 23 := by omega
  rw [pack, refHash, Nat.lor_assoc, ← Nat.shiftLeft_add_eq_or_of_lt hdt, Nat.shiftLeft_eq _ 14,
    ← Nat.shiftLeft_add_eq_or_of_lt hlow, Nat.shiftLeft_eq, ← Nat.add_assoc]

theorem toNat_refHash (a t dt : Nat) :
    (refHash a t dt).toNat = min a 0x1FF * 2 ^ 23 + min t 0x1FF * 2 ^ 14 + min dt 0x3FFF := by
  rw [refHash, BitVec.toNat_ofNat, Nat.mod_eq_of_lt (by omega)]

/-- Settles O47: the word is the sum of the fields at their places, and a field is a quotient and a
remainder of it. -/
theorem packFields : Obligations.PackFields := by
  intro a t dt
  rw [pack_eq_refHash]
  refine ⟨?_, ?_, ?_⟩ <;> rw [BitVec.extractLsb'_toNat, Nat.shiftRight_eq_div_pow, toNat_refHash] <;> omega

/-! ### The hashes of one anchor -/

section
variable {tz : Nat} {anchor target : PeakKey} (rest : List PeakKey)

/-- A target before the anchor is skipped. -/
theorem anchorHashes_skip (h : target.frame < anchor.frame) :
    anchorHashes tz anchor (target :: rest) = anchorHashes tz anchor rest := by
  simp [anchorHashes, h]

/-- A target past the target zone ends the scan of the anchor. -/
theorem anchorHashes_break (h : tz + anchor.frame < target.frame) :
    anchorHashes tz anchor (target :: rest) = [] := by
  have hle : anchor.frame ≤ target.frame := (Nat.le_add_left _ _).trans h.le
  simp [anchorHashes, hle, h]

theorem anchorHashes_pair (hle : anchor.frame ≤ target.frame) (hzone : target.frame ≤ tz + anchor.frame) :
    anchorHashes tz anchor (target :: rest) =
      pack anchor.bin target.bin (target.frame - anchor.frame) :: anchorHashes tz anchor rest := by
  simp [anchorHashes, hle, hzone]

end

/-! ### The scan with a limit makes the first hashes of the scan without one -/

/-- With no further hash the scan keeps what it has. -/
theorem false_out_eq_of_length_le {cap : Nat} {out : List Word} (hout : out.length ≤ cap) :
    (false, out) = (decide (cap < (out ++ []).length), (out ++ []).take cap) := by
  rw [List.append_nil, List.take_of_length_le hout, decide_eq_false hout.not_gt]

/-- R209: the scan of one anchor overflows when a pair is due past the limit, and keeps what fits. -/
theorem scanTargets_eq (tz : Nat) {cap : Nat} (anchor : PeakKey) (targets : List PeakKey) {out : List Word}
    (hout : out.length ≤ cap) : scanTargets tz cap anchor targets out =
      (decide (cap < (out ++ anchorHashes tz anchor targets).length),
        (out ++ anchorHashes tz anchor targets).take cap) := by
  induction targets generalizing out with
  | nil => exact false_out_eq_of_length_le hout
  | cons target rest ih =>
    unfold scanTargets
    dsimp only
    split_ifs with hskip hbreak hfull
    · rw [anchorHashes_skip rest (by omega), ih hout]
    · rw [anchorHashes_break rest (by omega)]
      exact false_out_eq_of_length_le hout
    · rw [anchorHashes_pair rest (by omega) (by omega), List.take_left' hfull]
      simp [hfull]
    · have hdt : ((target.frame : Int) - anchor.frame).toNat = target.frame - anchor.frame := by omega
      rw [anchorHashes_pair rest (by omega) (by omega), hdt, List.append_cons out _ (anchorHashes _ _ _)]
      refine ih ?_
      rw [List.length_append, List.length_singleton]
      omega

section
variable (tz : Nat) {cap : Nat} (i : Nat) (anchor : PeakKey) (rest : List PeakKey) {out : List Word}
  (hout : out.length ≤ cap)
include hout

theorem scanAnchors_cons_fits (h : (out ++ anchorHashes tz anchor rest).length ≤ cap) :
    scanAnchors tz cap i (anchor :: rest) out =
      scanAnchors tz cap (i + 1) rest (out ++ anchorHashes tz anchor rest) := by
  rw [scanAnchors, scanTargets_eq tz anchor rest hout, decide_eq_false h.not_gt, List.take_of_length_le h]

theorem scanAnchors_cons_overflow (h : cap < (out ++ anchorHashes tz anchor rest).length) :
    scanAnchors tz cap i (anchor :: rest) out =
      (some i, (out ++ anchorHashes tz anchor rest).take cap) := by
  rw [scanAnchors, scanTargets_eq tz anchor rest hout, decide_eq_true h]

end

theorem scanAnchors_fits {tz cap : Nat} (i : Nat) (ps : List PeakKey) {out : List Word}
    (h : (out ++ unlimitedHashes tz ps).length ≤ cap) :
    scanAnchors tz cap i ps out = (none, out ++ unlimitedHashes tz ps) := by
  induction ps generalizing i out with
  | nil => rw [unlimitedHashes, List.append_nil, scanAnchors]
  | cons anchor rest ih =>
    rw [unlimitedHashes, ← List.append_assoc] at h ⊢
    have hanchor := (List.length_append ▸ Nat.le_add_right _ _).trans h
    have hout := (List.length_append ▸ Nat.le_add_right _ _).trans hanchor
    rw [scanAnchors_cons_fits tz i anchor rest hout hanchor, ih (i + 1) h]

/-! ### The hashes of the first anchors -/

theorem hashesBefore_zero (tz : Nat) (ps : List PeakKey) : hashesBefore tz ps 0 = 0 := Nat.sub_self _

theorem length_unlimitedHashes_drop_le (tz : Nat) (ps : List PeakKey) (j : Nat) :
    (unlimitedHashes tz (ps.drop j)).length ≤ (unlimitedHashes tz ps).length := by
  induction ps generalizing j with
  | nil => rw [List.drop_nil]
  | cons anchor rest ih =>
    cases j with
    | zero => exact le_rfl
    | succ j =>
      rw [List.drop_succ_cons, unlimitedHashes, List.length_append]
      exact (ih j).trans (Nat.le_add_left _ _)

theorem hashesBefore_succ (tz : Nat) (anchor : PeakKey) (rest : List PeakKey) (j : Nat) :
    hashesBefore tz (anchor :: rest) (j + 1) =
      (anchorHashes tz anchor rest).length + hashesBefore tz rest j := by
  rw [hashesBefore, List.drop_succ_cons, unlimitedHashes, List.length_append, hashesBefore,
    Nat.add_sub_assoc (length_unlimitedHashes_drop_le tz rest j)]

/-- R209: the scan overflows at the anchor at which the count of hashes passes the limit. -/
theorem scanAnchors_overflow {tz cap : Nat} (i : Nat) (ps : List PeakKey) {out : List Word}
    (hout : out.length ≤ cap) (h : cap < (out ++ unlimitedHashes tz ps).length) :
    ∃ j, scanAnchors tz cap i ps out = (some (i + j), (out ++ unlimitedHashes tz ps).take cap) ∧
      j < ps.length ∧ out.length + hashesBefore tz ps j ≤ cap ∧
      cap < out.length + hashesBefore tz ps (j + 1) := by
  induction ps generalizing i out with
  | nil =>
    rw [unlimitedHashes, List.append_nil] at h
    exact absurd hout h.not_ge
  | cons anchor rest ih =>
    rw [unlimitedHashes, ← List.append_assoc] at h ⊢
    by_cases hanchor : cap < (out ++ anchorHashes tz anchor rest).length
    · refine ⟨0, ?_, Nat.succ_pos _, by rwa [hashesBefore_zero], ?_⟩
      · rw [scanAnchors_cons_overflow tz i anchor rest hout hanchor, List.take_append_of_le_length hanchor.le]
        rfl
      · rwa [hashesBefore_succ, hashesBefore_zero, Nat.add_zero, ← List.length_append]
    · have hfits := Nat.le_of_not_lt hanchor
      obtain ⟨j, hscan, hj, hbefore, hafter⟩ := ih (i + 1) hfits h
      rw [List.length_append, Nat.add_assoc, ← hashesBefore_succ] at hbefore hafter
      refine ⟨j + 1, ?_, Nat.succ_lt_succ hj, hbefore, hafter⟩
      rw [scanAnchors_cons_fits tz i anchor rest hout hfits, hscan, Nat.add_right_comm, Nat.add_assoc]

section
variable {tz cap : Nat} {ps : List PeakKey}

theorem hashScan_fits (h : (unlimitedHashes tz ps).length ≤ cap) :
    hashScan tz cap ps = (none, unlimitedHashes tz ps) :=
  scanAnchors_fits 0 ps (out := []) h

theorem hashScan_overflow (h : cap < (unlimitedHashes tz ps).length) :
    ∃ anchor, hashScan tz cap ps = (some anchor, (unlimitedHashes tz ps).take cap) ∧ anchor < ps.length ∧
      hashesBefore tz ps anchor ≤ cap ∧ cap < hashesBefore tz ps (anchor + 1) := by
  obtain ⟨j, hscan, hj, hbefore, hafter⟩ := scanAnchors_overflow 0 ps (out := []) (Nat.zero_le cap) h
  rw [List.length_nil, Nat.zero_add] at hbefore hafter
  exact ⟨j, by rw [hashScan, hscan, Nat.zero_add]; rfl, hj, hbefore, hafter⟩

end

/-! ### Sorted peaks -/

/-- When a later element is only in if every earlier one is, the first elements that are in are all. -/
theorem takeWhile_eq_filter {α : Type} {p : α → Bool} {l : List α}
    (h : l.Pairwise fun x y => p y = true → p x = true) : l.takeWhile p = l.filter p := by
  induction h with
  | nil => rfl
  | @cons x l hx _ ih =>
    by_cases hp : p x = true
    · rw [List.takeWhile_cons_of_pos hp, List.filter_cons_of_pos hp, ih]
    · rw [List.takeWhile_cons_of_neg hp, List.filter_cons_of_neg hp,
        List.filter_eq_nil_iff.mpr fun y hy hpy => hp (hx y hy hpy)]

/-- R210: among later targets in the order of their frames no target of the zone stands past the break. -/
theorem unlimitedHashes_eq_allPairsHashes (tz : Nat) {ps : List PeakKey}
    (h : ps.Pairwise fun p q => p.frame ≤ q.frame) : unlimitedHashes tz ps = allPairsHashes tz ps := by
  induction h with
  | nil => rfl
  | @cons anchor rest _ hsorted ih =>
    have hzone : (rest.filter fun t => decide (anchor.frame ≤ t.frame)).Pairwise fun p q =>
        decide (q.frame - anchor.frame ≤ tz) = true → decide (p.frame - anchor.frame ≤ tz) = true :=
      (hsorted.filter _).imp fun hpq hq => decide_eq_true
        ((Nat.sub_le_sub_right hpq _).trans (of_decide_eq_true hq))
    rw [unlimitedHashes, allPairsHashes, ih, anchorHashes, takeWhile_eq_filter hzone, List.filter_filter]
    simp only [pack_eq_refHash, Bool.decide_and, Bool.and_comm]

/-- Settles O48: for sorted peaks the scan without a limit makes the hashes of all pairs, and the scan with a
limit keeps the first of them. -/
theorem sortedPeaksLoseNoPair : Obligations.SortedPeaksLoseNoPair := by
  intro tz cap ps hsorted hs
  have hall : unlimitedHashes tz ps = hs := unlimitedHashes_eq_allPairsHashes tz hsorted
  rw [← hall]
  refine ⟨hashScan_fits, fun h => ?_⟩
  obtain ⟨anchor, hscan, -⟩ := hashScan_overflow h
  rw [hscan]
  exact ⟨rfl, rfl⟩

end Sys2Proof.Machine
end

section
/-! HASH completes, or ends in its check or in the overflow of the hash RAM (44_hash.md R205 to R209). -/

namespace Sys2Proof.Machine

theorem hash_mem_stagesOf {i : Instr} (hi : i ∈ [Instr.hash, .run]) :
    i ∈ [Instr.run, .filter, .spectrum, .peaks, .hash] ∧ Stage.hash ∈ stagesOf i.opcode := by
  fin_cases hi <;> decide

/-- R205 with NUM_PEAKS in the peak RAM. -/
theorem hashChecks_eq_none {s : State} (h : s.len.numPeaks.toNat ≤ s.caps.peaks.toNat) :
    hashChecks s = none := if_neg h.not_gt

theorem length_peakKeys (s : State) : (peakKeys s).length = s.len.numPeaks.toNat := by simp [peakKeys]

/-- R206: the stage reads the FRAME and BIN words of the records below NUM_PEAKS. -/
theorem collect_peakKeys {s : State} (h : ∀ p, p < s.len.numPeaks.toNat →
    (peakFrameAt s.mem p).isSome = true ∧ (peakBinAt s.mem p).isSome = true) :
    collectFrom (peakKeyAt s.mem) 0 s.len.numPeaks.toNat = some (peakKeys s) := by
  refine (collectFrom_eq_some_iff _ _ _ _).mpr ⟨length_peakKeys s, fun p hp => ?_⟩
  obtain ⟨hframe, hbin⟩ := h p (length_peakKeys s ▸ hp)
  obtain ⟨f, hf⟩ := Option.isSome_iff_exists.mp hframe
  obtain ⟨b, hb⟩ := Option.isSome_iff_exists.mp hbin
  simp [peakKeyAt, peakKeys, hf, hb]

/-- R208: HASH leaves the hashes from entry 0 of the hash RAM on. -/
theorem hashAt_hashWrite_getElem? (s : State) (hs : List Word) {h : Nat} (hh : h < hs.length) :
    hashAt (hashWrite s hs).mem h = hs[h]? := by
  rw [hashAt_hashWrite s hs hh, List.getElem?_eq_getElem hh]

theorem hashWrite_sameBytesOutside (s : State) (hs : List Word) :
    s.SameBytesOutside (hashWrite s hs) Ram.hash.base (4 * hs.length) :=
  fun _ ha => memByte_memPutWords_outside _ _ _ _ ha

/-- Settles O45: the scan overflows nowhere, and its hashes are written. -/
theorem hashResult : Obligations.HashResult := by
  intro s i hi hs hpeaks hread hashes hfits
  obtain ⟨hcmd, hst⟩ := hash_mem_stagesOf hi
  have hexec := exec_stage_done hcmd hst hs (hashStage_done (s := s.newEpoch) (hashChecks_eq_none hpeaks)
    (collect_peakKeys hread) (hashScan_fits hfits))
  exact ⟨_, hexec, rfl, rfl, fun h hh => hashAt_hashWrite_getElem? s.newEpoch hashes hh,
    hashWrite_sameBytesOutside s.newEpoch hashes, rfl, rfl, rfl, rfl, rfl, rfl, rfl⟩

/-- Settles O46: the check fails before any record is read; on an overflow the first HASH_CAP hashes are
written and the error completion follows. -/
theorem hashErrors : Obligations.HashErrors := by
  intro s i hi hs
  obtain ⟨hcmd, hst⟩ := hash_mem_stagesOf hi
  refine ⟨fun hpeaks => exec_stage_error hcmd hst hs (hashStage_error (s := s.newEpoch) (if_pos hpeaks)), ?_⟩
  intro hpeaks hread tz cap hashes hover
  obtain ⟨anchor, hscan, hanchor, hbefore, hafter⟩ := hashScan_overflow hover
  have hexec := exec_stage_error hcmd hst hs (hashStage_overflow (s := s.newEpoch)
    (hashChecks_eq_none hpeaks) (collect_peakKeys hread) hscan)
  have hlen : (hashes.take cap).length = cap := List.length_take_of_le hover.le
  refine ⟨_, anchor, hexec, length_peakKeys s ▸ hanchor, hbefore, hafter, rfl, rfl, ?_, fun h hh => ?_, ?_,
    rfl, rfl, rfl, rfl⟩
  · rw [State.errorCompletion_len, hashWrite_len, hlen, BitVec.ofNat_toNat, BitVec.setWidth_eq]
    rfl
  · rw [← List.getElem?_take_of_lt hh]
    exact hashAt_hashWrite_getElem? s.newEpoch _ (hlen.symm ▸ hh)
  · have hframe := hashWrite_sameBytesOutside s.newEpoch (hashes.take cap)
    rwa [hlen] at hframe

end Sys2Proof.Machine
end

section
/-! What an error completion leaves unchanged (60_exceptions.md R239, 40_commands.md R129): a failed check
comes before any write, and CAP_HASHES after the writes of a full hash RAM. -/

namespace Sys2Proof.Machine

/-! ### The errors of a stage -/

/-- The checks that the stage's rule makes before it reads an operand (R140, R160, R190, R205). -/
def stageChecks : Stage → State → Option (ErrCode × Word)
  | .idle => fun _ => none
  | .filter => filterChecks
  | .spectrum => spectrumChecks
  | .peaks => peaksChecks
  | .hash => hashChecks

/-- CAP_HASHES is an error of HASH's scan and of no check (R209, R236). -/
theorem stageChecks_code_ne_capHashes {st : Stage} {s : State} {code : ErrCode} {info : Word}
    (h : stageChecks st s = some (code, info)) : code ≠ .capHashes := by
  rintro rfl
  cases st with
  | idle => cases h
  | filter => simp only [stageChecks, filterChecks] at h; split_ifs at h <;> cases h
  | spectrum => simp only [stageChecks, spectrumChecks] at h; split_ifs at h <;> cases h
  | peaks => simp only [stageChecks, peaksChecks] at h; split_ifs at h <;> cases h
  | hash => simp only [stageChecks, hashChecks] at h; split_ifs at h; cases h

/-- R209: a scan that overflows has made exactly as many hashes as the hash RAM holds. -/
theorem length_hashScan_overflow {tz cap anchor : Nat} {ps : List PeakKey} {hs : List Word}
    (h : hashScan tz cap ps = (some anchor, hs)) : hs.length = cap := by
  rcases le_or_gt (unlimitedHashes tz ps).length cap with hfits | hover
  · cases h.symm.trans (hashScan_fits hfits)
  · obtain ⟨_, hscan, -⟩ := hashScan_overflow hover
    cases h.symm.trans hscan
    exact List.length_take_of_le hover.le

/-- A stage raises an error in two ways: a check fails in the state as it was, or HASH has filled the hash
RAM. -/
theorem stageRule_error_cases {st : Stage} {s t : State} {code : ErrCode} {info : Word}
    (h : stageRule st s = .error code info t) :
    (stageChecks st s = some (code, info) ∧ t = s) ∨
    (code = .capHashes ∧ ∃ hs : List Word, hs.length = s.caps.hashes.toNat ∧ t = hashWrite s hs) := by
  cases st with
  | idle => cases h
  | filter =>
    rcases filterStage_cases s with ⟨_, _, hc, e⟩ | ⟨-, _, _, -, -, e⟩ | ⟨-, -, e⟩ <;>
      cases e.symm.trans h
    exact .inl ⟨hc, rfl⟩
  | spectrum =>
    rcases spectrumStage_cases s with ⟨_, _, hc, e⟩ | ⟨-, _, _, -, -, e⟩ | ⟨-, -, e⟩ <;>
      cases e.symm.trans h
    exact .inl ⟨hc, rfl⟩
  | peaks =>
    rcases peaksStage_cases s with ⟨_, _, hc, e⟩ | ⟨-, _, -, e⟩ | ⟨-, -, e⟩ <;> cases e.symm.trans h
    exact .inl ⟨hc, rfl⟩
  | hash =>
    rcases hashStage_cases s with
      ⟨_, _, hc, e⟩ | ⟨-, _, -, ⟨_, -, e⟩ | ⟨_, hs, hscan, e⟩⟩ | ⟨-, -, e⟩ <;> cases e.symm.trans h
    · exact .inl ⟨hc, rfl⟩
    · exact .inr ⟨rfl, hs, length_hashScan_overflow hscan, rfl⟩

/-! ### The error completion -/

/-- Completion and the next stage leave ERR (R123, R127). -/
theorem State.moveOn_err (s : State) (next : Option Stage) :
    (s.moveOn next).status.err = s.status.err := by cases next <;> rfl

/-- While a command executes, an instruction that leaves ERR = 1 is the command's core step, in which the
stage STATUS.STAGE raised an error (R238). -/
theorem exec_next_err {i : Instr} {s t : State} (hs : s.SequencerOk) (hb : s.status.busy = true)
    (h : exec i s = .next t) (herr : t.status.err = true) :
    ∃ code info u, stageRule s.status.stage s.newEpoch = .error code info u ∧
      t = u.errorCompletion code info := by
  obtain ⟨-, hserr, -, hst⟩ := hs hb
  have hdropped : exec i s ≠ .next (s.accError cmdOffset) := by
    intro hdrop
    cases h.symm.trans hdrop
    exact Bool.false_ne_true (hserr.symm.trans herr)
  have hi : i ∈ [Instr.run, .filter, .spectrum, .peaks, .hash] := by
    cases i with
    | nop => exact absurd (execNop_busy hb) hdropped
    | srst => cases h; exact absurd herr Bool.false_ne_true
    | _ => simp
  have hop : s.status.lastOp = i.opcode := by
    obtain ⟨_, -, hcmd⟩ := exec_stageCommand hi
    by_contra hne
    exact hdropped ((hcmd s).trans (runCommand_dropped _ _ _ s hb hne))
  rw [exec_stage hi (hop ▸ hst) ⟨hb, hop, rfl⟩] at h
  cases hr : stageRule s.status.stage s.newEpoch with
  | done u =>
    have hu : u.status = s.status := stageRule_status (s := s.newEpoch) (by rw [hr]; rfl)
    rw [hr] at h
    cases h
    rw [State.moveOn_err, hu, hserr] at herr
    exact absurd herr Bool.false_ne_true
  | error code info u => rw [hr] at h; cases h; exact ⟨code, info, u, rfl, rfl⟩
  | fault r => rw [hr] at h; cases h

/-- Settles O27: the running stage raised the error, in a failed check with nothing written, or after
HASH_CAP hashes with the code CAP_HASHES. -/
theorem errorsArePrecise : Obligations.ErrorsArePrecise := by
  intro s t i hs hb h herr
  obtain ⟨code, info, u, hrule, rfl⟩ := exec_next_err hs hb h herr
  rcases stageRule_error_cases hrule with ⟨hcheck, rfl⟩ | ⟨rfl, hashes, hlen, rfl⟩
  · exact ⟨fun _ => ⟨rfl, rfl⟩, fun hcode => absurd hcode (stageChecks_code_ne_capHashes hcheck)⟩
  · refine ⟨fun hcode => absurd rfl hcode, fun _ => ⟨?_, ?_⟩⟩
    · rw [State.errorCompletion_len, hashWrite_len, hlen, BitVec.ofNat_toNat, BitVec.setWidth_eq]
      rfl
    · have hframe := hashWrite_sameBytesOutside s.newEpoch hashes
      rwa [hlen] at hframe

end Sys2Proof.Machine
end

section
/-! Hardware reset (70_reset_and_hazards.md R265), register by register and word by word. -/

namespace Sys2Proof.Machine

@[simp] theorem memWord_nil (a : Nat) : memWord [] a = none := rfl

@[simp] theorem Status.reset_word : Status.reset.word = 0 := by decide

@[simp] theorem IrqEnable.reset_word : IrqEnable.reset.word = 0 := by decide

/-- STATUS and IRQ_EN are the registers kept as fields; every other one holds its reset value as a word. -/
theorem csrValues_resetOf (c : Caps) : allCsrs.map (csrValue (State.resetOf c)) =
    [0x41465031, 0, 0, 0, 0, 0, 0, 0, 11025, 0, 101, 1024, 512, 6, 20, 0, 0, 0, 0, 0, 0,
      c.samples, c.taps, c.frame, c.signal, c.spec, c.peaks, c.hashes, c.lanes] := by
  have hst : csrValue (State.resetOf c) .status = 0 := Status.reset_word
  have hie : csrValue (State.resetOf c) .irqEn = 0 := IrqEnable.reset_word
  simp only [allCsrs, List.cons_append, List.nil_append, List.map_cons, List.map_nil, hst, hie]
  rfl

theorem State.resetOf_irq (c : Caps) : (State.resetOf c).irq = false := rfl

/-- Settles O4: the map's registers hold their reset values, and a word of the empty memory is none. -/
theorem resetLeaves : Obligations.ResetLeaves :=
  ⟨fun c => ⟨csrValues_resetOf c, memWord_nil, State.resetOf_irq c, rfl⟩, rfl, by decide⟩

end Sys2Proof.Machine
end
